-- ==== Sys2Proof/Word.lean ====
section
/-! DEFINITION. The widths of the unit's ports and of the pieces the spec cuts them into
(`00_scope.md` R6, R7, R8, R11; `10_state.md` R24, R25). Bit 0 is the least significant bit. -/

namespace Sys2Proof

/-- One 128-bit slot of a port: the atomic unit of all wide computation (R27). -/
abbrev Limb := BitVec 128

/-- An operand or result port: thirty-two slots of 128 bits, slot 0 least significant (R24). -/
abbrev Port := BitVec 4096

/-- The 32-bit command word (R51). -/
abbrev CmdWord := BitVec 32

/-- One nibble of a slot (R11). -/
abbrev Nibble := BitVec 4

/-- One byte: a field of the command word (R51), or a byte of host storage (R41). -/
abbrev Byte := BitVec 8

end Sys2Proof
end

