-- ==== Sys2Proof/Syntax.lean ====
section
/-! DEFINITION. The operations of the unit: one constructor per row of `spec/opcode_table.json`
(`30_encoding.md` R52), with the operands the command word itself carries (R53 to R57). -/

namespace Sys2Proof

/-- The condition codes of CMPU and BCDCMP (R55). -/
inductive Cond where
  | eq
  | ne
  | lt
  | le
  | gt
  | ge
deriving DecidableEq, Repr

/-- The multiply shapes of WMUL (R56), named by the widths of A and B in bits. -/
inductive MulShape where
  | m128x128
  | m256x256
  | m512x128
  | m512x512
  | m1024x1024
  | m2048x2048
deriving DecidableEq, Repr

/-- The divisor codes (R57). -/
inductive Divisor where
  | e16
  | e31
  | e32
deriving DecidableEq, Repr

/-- The formats BCDVALID tests (R54): PackedDecimal or UnsignedPackedDecimal. -/
inductive DecFormat where
  | packed
  | unsigned
deriving DecidableEq, Repr

/-- The operations (R52). A shift count, digit count, limb count or group count is the number the
command word's `IMM` or `SHP` field holds (R53, R54). -/
inductive Instr where
  -- limb primitives
  | addc
  | adde
  | subc
  | sube
  | cmpu (cond : Cond)
  | sli (n : Nat)
  | sri (n : Nat)
  | srai (n : Nat)
  | slv
  | srv
  | srav
  | mulw
  | mul10e
  -- wide integer composer
  | wadd (n : Nat)
  | wsub (n : Nat)
  | wmul (shape : MulShape)
  -- constant-divisor engine
  | divc (d : Divisor)
  | divdc (d : Divisor)
  -- BCD digit-string arithmetic
  | bcdadd
  | bcdsub
  | bcdaddc
  | bcdsubc
  | bcdadde
  | bcdsube
  | bcdaddec
  | bcdsubec
  | bcdcmp (cond : Cond)
  | bcdcpsgn
  | bcdsetsgn
  | bcdsl (n : Nat)
  | bcdsr (n : Nat)
  | bcdsrr (n : Nat)
  | bcdtrunc (k : Nat)
  | bcdutrunc (k : Nat)
  | bcdvalid (fmt : DecFormat)
  | wbcdadd (n : Nat)
  | wbcdsub (n : Nat)
  -- radix converter
  | cvb2d
  | cvd2b
  | cvz2d
  | cvd2z
  | lcvb2d (n : Nat) (fmt : Divisor)
  | lcvd2b (k : Nat) (fmt : Divisor)
  -- decimal multiply and divide
  | bcdmull
  | bcdmulh
  | bcdmulf
  | bcddiv
deriving DecidableEq, Repr

end Sys2Proof
end

