-- ==== Sys2Proof/WellFormed.lean ====
section
/-! DEFINITION. Which terms of `Instr` are operations: the ranges of `30_encoding.md` R53 (`IMM`) and
R54 (`SHP`). A term outside them has no command word. -/

namespace Sys2Proof

/-- `lo ≤ n ≤ hi`. -/
def inRange (lo hi n : Nat) : Bool := decide (lo ≤ n) && decide (n ≤ hi)

/-- The divisor codes that DIVDC, LCVB2D and LCVD2B accept: 10^31 and 10^32 (R53, R54, R57). -/
def Divisor.isGroup : Divisor → Bool
  | .e16 => false
  | .e31 => true
  | .e32 => true

/-- The operands of an operation are in the ranges of R53 and R54. -/
def Instr.wellFormed : Instr → Bool
  | .addc => true
  | .adde => true
  | .subc => true
  | .sube => true
  | .cmpu _ => true
  | .sli n => inRange 0 127 n
  | .sri n => inRange 0 127 n
  | .srai n => inRange 0 127 n
  | .slv => true
  | .srv => true
  | .srav => true
  | .mulw => true
  | .mul10e => true
  | .wadd n => inRange 1 32 n
  | .wsub n => inRange 1 32 n
  | .wmul _ => true
  | .divc _ => true
  | .divdc d => d.isGroup
  | .bcdadd => true
  | .bcdsub => true
  | .bcdaddc => true
  | .bcdsubc => true
  | .bcdadde => true
  | .bcdsube => true
  | .bcdaddec => true
  | .bcdsubec => true
  | .bcdcmp _ => true
  | .bcdcpsgn => true
  | .bcdsetsgn => true
  | .bcdsl n => inRange 0 31 n
  | .bcdsr n => inRange 0 31 n
  | .bcdsrr n => inRange 0 31 n
  | .bcdtrunc k => inRange 0 31 k
  | .bcdutrunc k => inRange 0 32 k
  | .bcdvalid _ => true
  | .wbcdadd n => inRange 1 32 n
  | .wbcdsub n => inRange 1 32 n
  | .cvb2d => true
  | .cvd2b => true
  | .cvz2d => true
  | .cvd2z => true
  | .lcvb2d n fmt => inRange 1 16 n && fmt.isGroup
  | .lcvd2b k fmt => inRange 1 32 k && fmt.isGroup
  | .bcdmull => true
  | .bcdmulh => true
  | .bcdmulf => true
  | .bcddiv => true

end Sys2Proof
end

