-- ==== Sys2Proof/Decode.lean ====
section
/-! DEFINITION. The command word, its decoder and its encoder (`30_encoding.md` R50 to R63). The decoder
is total: every word is an operation or is rejected by the name of the first check that fails. -/

namespace Sys2Proof

/-! ## The fields of a command word (R51) -/

/-- `OPC`, bits 7:0. -/
def cwOpc (cw : CmdWord) : Byte := cw.extractLsb' 0 8

/-- `IMM`, bits 15:8. -/
def cwImm (cw : CmdWord) : Byte := cw.extractLsb' 8 8

/-- `SHP`, bits 23:16. -/
def cwShp (cw : CmdWord) : Byte := cw.extractLsb' 16 8

/-- `RSV`, bits 31:24. -/
def cwRsv (cw : CmdWord) : Byte := cw.extractLsb' 24 8

/-- Why a command word is not legal, in the order of the checks (R58, R63, R201). -/
inductive DecodeError where
  /-- `OPC` is not one of the 47 codes. -/
  | illegalOpcode
  /-- `RSV` is not 0. -/
  | reservedNonzero
  /-- `SHP` is not a legal value for the opcode. -/
  | illegalShape
  /-- `IMM` is not a legal value for the opcode. -/
  | illegalImmediate
deriving DecidableEq, Repr

/-! ## The codes of the fields (R55, R56, R57, R54) -/

/-- The condition a code names (R55). -/
def condOfCode (c : Nat) : Option Cond :=
  match c with
  | 0 => some .eq
  | 1 => some .ne
  | 2 => some .lt
  | 3 => some .le
  | 4 => some .gt
  | 5 => some .ge
  | _ => none

/-- The code of a condition (R55). -/
def condCode : Cond → Nat
  | .eq => 0
  | .ne => 1
  | .lt => 2
  | .le => 3
  | .gt => 4
  | .ge => 5

/-- The multiply shape a code names (R56). -/
def mulShapeOfCode (c : Nat) : Option MulShape :=
  match c with
  | 0 => some .m128x128
  | 1 => some .m256x256
  | 2 => some .m512x128
  | 3 => some .m512x512
  | 4 => some .m1024x1024
  | 5 => some .m2048x2048
  | _ => none

/-- The code of a multiply shape (R56). -/
def mulShapeCode : MulShape → Nat
  | .m128x128 => 0
  | .m256x256 => 1
  | .m512x128 => 2
  | .m512x512 => 3
  | .m1024x1024 => 4
  | .m2048x2048 => 5

/-- The divisor a code names (R57). -/
def divisorOfCode (c : Nat) : Option Divisor :=
  match c with
  | 0 => some .e16
  | 1 => some .e31
  | 2 => some .e32
  | _ => none

/-- The code of a divisor (R57). -/
def divisorCode : Divisor → Nat
  | .e16 => 0
  | .e31 => 1
  | .e32 => 2

/-- The divisor a code names where code 0 is not accepted: DIVDC, LCVB2D, LCVD2B (R53, R54, R57). -/
def groupDivisorOfCode (c : Nat) : Option Divisor :=
  match c with
  | 1 => some .e31
  | 2 => some .e32
  | _ => none

/-- The format a BCDVALID shape names (R54). -/
def decFormatOfCode (c : Nat) : Option DecFormat :=
  match c with
  | 0 => some .packed
  | 1 => some .unsigned
  | _ => none

/-- The shape code of a BCDVALID format (R54). -/
def decFormatCode : DecFormat → Nat
  | .packed => 0
  | .unsigned => 1

/-- A field read as a number from `lo` to `hi`. -/
def countOfCode (lo hi c : Nat) : Option Nat := if inRange lo hi c then some c else none

/-! ## The opcode map (R52) -/

/-- How an opcode reads its `SHP` and `IMM` fields: one constructor per format of R51. -/
inductive OpForm where
  /-- Format Z: `OPC` only. -/
  | z (i : Instr)
  /-- Format I: `OPC` and `IMM`. -/
  | i (imm : Nat → Option Instr)
  /-- Format S: `OPC` and `SHP`. -/
  | s (shp : Nat → Option Instr)
  /-- Format SI: `OPC`, `SHP` and `IMM`. -/
  | si (shp : Nat → Option Nat) (imm : Nat → Option Divisor) (op : Nat → Divisor → Instr)

/-- The opcode map (R52) with the legal values of R53 and R54; `none` for an unassigned opcode. -/
def opForm (opc : Nat) : Option OpForm :=
  match opc with
  | 0x10 => some (.z .addc)
  | 0x11 => some (.z .adde)
  | 0x12 => some (.z .subc)
  | 0x13 => some (.z .sube)
  | 0x14 => some (.i fun m => (condOfCode m).map .cmpu)
  | 0x15 => some (.i fun m => (countOfCode 0 127 m).map .sli)
  | 0x16 => some (.i fun m => (countOfCode 0 127 m).map .sri)
  | 0x17 => some (.i fun m => (countOfCode 0 127 m).map .srai)
  | 0x18 => some (.z .slv)
  | 0x19 => some (.z .srv)
  | 0x1A => some (.z .srav)
  | 0x1B => some (.z .mulw)
  | 0x1C => some (.z .mul10e)
  | 0x20 => some (.s fun p => (countOfCode 1 32 p).map .wadd)
  | 0x21 => some (.s fun p => (countOfCode 1 32 p).map .wsub)
  | 0x22 => some (.s fun p => (mulShapeOfCode p).map .wmul)
  | 0x30 => some (.s fun p => (divisorOfCode p).map .divc)
  | 0x31 => some (.s fun p => (groupDivisorOfCode p).map .divdc)
  | 0x40 => some (.z .bcdadd)
  | 0x41 => some (.z .bcdsub)
  | 0x42 => some (.z .bcdaddc)
  | 0x43 => some (.z .bcdsubc)
  | 0x44 => some (.z .bcdadde)
  | 0x45 => some (.z .bcdsube)
  | 0x46 => some (.z .bcdaddec)
  | 0x47 => some (.z .bcdsubec)
  | 0x48 => some (.i fun m => (condOfCode m).map .bcdcmp)
  | 0x49 => some (.z .bcdcpsgn)
  | 0x4A => some (.z .bcdsetsgn)
  | 0x4B => some (.i fun m => (countOfCode 0 31 m).map .bcdsl)
  | 0x4C => some (.i fun m => (countOfCode 0 31 m).map .bcdsr)
  | 0x4D => some (.i fun m => (countOfCode 0 31 m).map .bcdsrr)
  | 0x4E => some (.i fun m => (countOfCode 0 31 m).map .bcdtrunc)
  | 0x4F => some (.i fun m => (countOfCode 0 32 m).map .bcdutrunc)
  | 0x50 => some (.s fun p => (decFormatOfCode p).map .bcdvalid)
  | 0x51 => some (.s fun p => (countOfCode 1 32 p).map .wbcdadd)
  | 0x52 => some (.s fun p => (countOfCode 1 32 p).map .wbcdsub)
  | 0x60 => some (.z .cvb2d)
  | 0x61 => some (.z .cvd2b)
  | 0x62 => some (.z .cvz2d)
  | 0x63 => some (.z .cvd2z)
  | 0x64 => some (.si (countOfCode 1 16) groupDivisorOfCode .lcvb2d)
  | 0x65 => some (.si (countOfCode 1 32) groupDivisorOfCode .lcvd2b)
  | 0x70 => some (.z .bcdmull)
  | 0x71 => some (.z .bcdmulh)
  | 0x72 => some (.z .bcdmulf)
  | 0x73 => some (.z .bcddiv)
  | _ => none

/-- The shape and immediate checks of R63, shape first; an unused field must be 0 (R51, R53, R54). -/
def readFields (f : OpForm) (shp imm : Nat) : Except DecodeError Instr :=
  match f with
  | .z i =>
    if shp ≠ 0 then .error .illegalShape
    else if imm ≠ 0 then .error .illegalImmediate
    else .ok i
  | .i ofImm =>
    if shp ≠ 0 then .error .illegalShape
    else match ofImm imm with
      | none => .error .illegalImmediate
      | some i => .ok i
  | .s ofShp =>
    match ofShp shp with
    | none => .error .illegalShape
    | some i => if imm ≠ 0 then .error .illegalImmediate else .ok i
  | .si ofShp ofImm op =>
    match ofShp shp with
    | none => .error .illegalShape
    | some n => match ofImm imm with
      | none => .error .illegalImmediate
      | some d => .ok (op n d)

/-- The decode procedure (R63), total on all 2^32 command words; the checks run in the order opcode,
reserved field, shape, immediate (R203). -/
def decode (cw : CmdWord) : Except DecodeError Instr :=
  match opForm (cwOpc cw).toNat with
  | none => .error .illegalOpcode
  | some f =>
    if (cwRsv cw).toNat ≠ 0 then .error .reservedNonzero
    else readFields f (cwShp cw).toNat (cwImm cw).toNat

/-- The instruction the decoder reads from a word numbered as the opcode table numbers it: the one
32-bit command word, bit 0 least significant (R51); the unit has no byte order (R41). A number with a
bit above bit 31 is no command word. -/
def decodeTableWord (nbits w : Nat) : Option Instr :=
  if nbits ≤ 32 ∧ w < 2 ^ 32 then
    match decode (BitVec.ofNat 32 w) with
    | .ok i => some i
    | .error _ => none
  else none

/-! ## The encoder -/

/-- The operation code (R52). -/
def Instr.opc : Instr → Nat
  | .addc => 0x10
  | .adde => 0x11
  | .subc => 0x12
  | .sube => 0x13
  | .cmpu _ => 0x14
  | .sli _ => 0x15
  | .sri _ => 0x16
  | .srai _ => 0x17
  | .slv => 0x18
  | .srv => 0x19
  | .srav => 0x1A
  | .mulw => 0x1B
  | .mul10e => 0x1C
  | .wadd _ => 0x20
  | .wsub _ => 0x21
  | .wmul _ => 0x22
  | .divc _ => 0x30
  | .divdc _ => 0x31
  | .bcdadd => 0x40
  | .bcdsub => 0x41
  | .bcdaddc => 0x42
  | .bcdsubc => 0x43
  | .bcdadde => 0x44
  | .bcdsube => 0x45
  | .bcdaddec => 0x46
  | .bcdsubec => 0x47
  | .bcdcmp _ => 0x48
  | .bcdcpsgn => 0x49
  | .bcdsetsgn => 0x4A
  | .bcdsl _ => 0x4B
  | .bcdsr _ => 0x4C
  | .bcdsrr _ => 0x4D
  | .bcdtrunc _ => 0x4E
  | .bcdutrunc _ => 0x4F
  | .bcdvalid _ => 0x50
  | .wbcdadd _ => 0x51
  | .wbcdsub _ => 0x52
  | .cvb2d => 0x60
  | .cvd2b => 0x61
  | .cvz2d => 0x62
  | .cvd2z => 0x63
  | .lcvb2d _ _ => 0x64
  | .lcvd2b _ _ => 0x65
  | .bcdmull => 0x70
  | .bcdmulh => 0x71
  | .bcdmulf => 0x72
  | .bcddiv => 0x73

/-- The value of the `IMM` field (R53); 0 where the operation has no immediate. -/
def Instr.imm : Instr → Nat
  | .cmpu c => condCode c
  | .sli n => n
  | .sri n => n
  | .srai n => n
  | .bcdcmp c => condCode c
  | .bcdsl n => n
  | .bcdsr n => n
  | .bcdsrr n => n
  | .bcdtrunc k => k
  | .bcdutrunc k => k
  | .lcvb2d _ fmt => divisorCode fmt
  | .lcvd2b _ fmt => divisorCode fmt
  | .addc | .adde | .subc | .sube | .slv | .srv | .srav | .mulw | .mul10e | .wadd _ | .wsub _
  | .wmul _ | .divc _ | .divdc _ | .bcdadd | .bcdsub | .bcdaddc | .bcdsubc | .bcdadde
  | .bcdsube | .bcdaddec | .bcdsubec | .bcdcpsgn | .bcdsetsgn | .bcdvalid _ | .wbcdadd _
  | .wbcdsub _ | .cvb2d | .cvd2b | .cvz2d | .cvd2z | .bcdmull | .bcdmulh | .bcdmulf | .bcddiv => 0

/-- The value of the `SHP` field (R54); 0 where the operation has no shape. -/
def Instr.shp : Instr → Nat
  | .wadd n => n
  | .wsub n => n
  | .wmul m => mulShapeCode m
  | .divc d => divisorCode d
  | .divdc d => divisorCode d
  | .bcdvalid f => decFormatCode f
  | .wbcdadd n => n
  | .wbcdsub n => n
  | .lcvb2d n _ => n
  | .lcvd2b k _ => k
  | .addc | .adde | .subc | .sube | .cmpu _ | .sli _ | .sri _ | .srai _ | .slv | .srv | .srav
  | .mulw | .mul10e | .bcdadd | .bcdsub | .bcdaddc | .bcdsubc | .bcdadde | .bcdsube | .bcdaddec
  | .bcdsubec | .bcdcmp _ | .bcdcpsgn | .bcdsetsgn | .bcdsl _ | .bcdsr _ | .bcdsrr _
  | .bcdtrunc _ | .bcdutrunc _ | .cvb2d | .cvd2b | .cvz2d | .cvd2z | .bcdmull | .bcdmulh
  | .bcdmulf | .bcddiv => 0

/-- The command word of an operation: `OPC | IMM << 8 | SHP << 16`, `RSV` 0 (R51, R61). -/
def encode (i : Instr) : CmdWord :=
  BitVec.ofNat 8 0 ++ BitVec.ofNat 8 i.shp ++ BitVec.ofNat 8 i.imm ++ BitVec.ofNat 8 i.opc

end Sys2Proof
end

