-- ==== Sys2Proof/Config.lean ====
section
/-! DEFINITION. What an implementation fixes, and the free values (`00_scope.md` R6, R7, R17;
`10_state.md` R38; `93_implementation_defined.md`). An `opaque` constant has no body: a claim about it
holds for every value it could have. -/

namespace Sys2Proof.Config

/-! ## Fixed parameters (R6, R7) -/

/-- `LIMB_BITS` (R6). -/
def limbBits : Nat := 128

/-- `LMAX`, the number of slots of an operand or result port (R7). -/
def lmax : Nat := 32

/-- `CW_BITS`, the width of the command word (R7). -/
def cwBits : Nat := 32

/-- Digits of a signed packed-decimal value, beside its sign nibble (R6). -/
def packedDigits : Nat := 31

/-- Digits of an unsigned packed-decimal value (R6). -/
def unsignedDigits : Nat := 32

/-- Digits of a zoned-decimal value (R6). -/
def zonedDigits : Nat := 16

/-- `P_FIELDOP_NORM` (R7, R120): whether the field operations also normalise the sign nibble and
negative zero. The spec's value is 0, they do not; the other reading is written out in
`Sys2Proof.Machine.fieldResult` (DESIGN CHOICE: the spec's own default, D21; unsafe, log 7). -/
def fieldOpNorm : Bool := false

/-! ## Byte order of host storage (R41): open, read by no rule of the unit (log 8) -/

/-- The two values of `BYTE_ORDER` (R41). -/
inductive ByteOrder where
  | big
  | little
deriving DecidableEq, Repr, Inhabited

/-- `BYTE_ORDER` (R7, R41): a property of the host; no operation of the unit reads it. -/
opaque byteOrder : ByteOrder

/-! ## Zone codes (R167): open, with the one constraint the spec puts on them (log 6)

`ZONE_IS_NEG(ZONE_NEG)` holds and `ZONE_IS_NEG(ZONE_POS)` does not. The constraint is built in: the
positive code is the negative one plus a free non-zero offset, and the predicate is free on every other
code. Every admissible instantiation of the four parameters is of this form and no other is. -/

/-- `ZONE_DIGIT`: the zone written in bytes 1 to 15 (R167). -/
opaque zoneDigit : Nibble

/-- `ZONE_NEG`: the sign zone written for a negative value (R167). -/
opaque zoneNeg : Nibble

/-- How far `ZONE_POS` stands above `ZONE_NEG`, less one. -/
opaque zonePosOffset : Fin 15

/-- `ZONE_IS_NEG` on the codes that are neither `ZONE_NEG` nor `ZONE_POS`. -/
opaque zoneOtherIsNeg : Nibble → Bool

/-- `ZONE_POS`: the sign zone written for a positive value (R167); never equal to `ZONE_NEG`. -/
def zonePos : Nibble := zoneNeg + BitVec.ofNat 4 (zonePosOffset.val + 1)

/-- `ZONE_IS_NEG` (R167): true when the zone code means negative. -/
def zoneIsNeg (z : Nibble) : Bool :=
  if z = zoneNeg then true else if z = zonePos then false else zoneOtherIsNeg z

/-! ## Unspecified results (R17): one total function of the operation's inputs per result field

`unspec<Op><Field>` is the spec's `UNSPEC_<op>.<field>`. Log 5 and, for the arguments of the
multi-slot ones, log 12. -/

/-- `UNSPEC_SLV.r0(a, n)` (R81). -/
opaque unspecSlvR0 : Limb → Limb → Limb
/-- `UNSPEC_SRV.r0(a, n)` (R82). -/
opaque unspecSrvR0 : Limb → Limb → Limb
/-- `UNSPEC_SRAV.r0(a, n)` (R83). -/
opaque unspecSravR0 : Limb → Limb → Limb
/-- `UNSPEC_MUL10E.r0(a, d)` (R85). -/
opaque unspecMul10eR0 : Limb → Limb → Limb
/-- `UNSPEC_MUL10E.s(a, d)` (R85). -/
opaque unspecMul10eS : Limb → Limb → Limb
/-- `UNSPEC_DIVDC.r0(hi, lo, C)` (R109); the third argument is the divisor. -/
opaque unspecDivdcR0 : Limb → Limb → Nat → Limb
/-- `UNSPEC_DIVDC.s(hi, lo, C)` (R109). -/
opaque unspecDivdcS : Limb → Limb → Nat → Limb
/-- `UNSPEC_BCDADD.r0(a, b)` (R122). -/
opaque unspecBcdaddR0 : Limb → Limb → Limb
/-- `UNSPEC_BCDSUB.r0(a, b)` (R123). -/
opaque unspecBcdsubR0 : Limb → Limb → Limb
/-- `UNSPEC_BCDADDC.r0(a, b)` (R126). -/
opaque unspecBcdaddcR0 : Limb → Limb → Limb
/-- `UNSPEC_BCDADDC.s(a, b)` (R126). -/
opaque unspecBcdaddcS : Limb → Limb → Limb
/-- `UNSPEC_BCDSUBC.r0(a, b)` (R127). -/
opaque unspecBcdsubcR0 : Limb → Limb → Limb
/-- `UNSPEC_BCDSUBC.s(a, b)` (R127). -/
opaque unspecBcdsubcS : Limb → Limb → Limb
/-- `UNSPEC_BCDADDE.r0(a, b, c)` (R124). -/
opaque unspecBcdaddeR0 : Limb → Limb → Limb → Limb
/-- `UNSPEC_BCDSUBE.r0(a, b, c)` (R125). -/
opaque unspecBcdsubeR0 : Limb → Limb → Limb → Limb
/-- `UNSPEC_BCDADDEC.r0(a, b, c)` (R129). -/
opaque unspecBcdaddecR0 : Limb → Limb → Limb → Limb
/-- `UNSPEC_BCDADDEC.s(a, b, c)` (R129). -/
opaque unspecBcdaddecS : Limb → Limb → Limb → Limb
/-- `UNSPEC_BCDSUBEC.r0(a, b, c)` (R130). -/
opaque unspecBcdsubecR0 : Limb → Limb → Limb → Limb
/-- `UNSPEC_BCDSUBEC.s(a, b, c)` (R130). -/
opaque unspecBcdsubecS : Limb → Limb → Limb → Limb
/-- `UNSPEC_BCDCMP.t(a, b, IMM)` (R133); the third argument is the `IMM` code. -/
opaque unspecBcdcmpT : Limb → Limb → Nat → Bool
/-- `UNSPEC_BCDSRR.r0(a, IMM)` (R138). -/
opaque unspecBcdsrrR0 : Limb → Nat → Limb
/-- `UNSPEC_WBCDADD` (R142): element j of the result, from the elements read of A and of B. -/
opaque unspecWbcdaddR : List Limb → List Limb → Nat → Limb
/-- `UNSPEC_WBCDADD` (R142): the decimal carry, from the elements read of A and of B. -/
opaque unspecWbcdaddS : List Limb → List Limb → Limb
/-- `UNSPEC_WBCDSUB` (R143): element j of the result, from the elements read of A and of B. -/
opaque unspecWbcdsubR : List Limb → List Limb → Nat → Limb
/-- `UNSPEC_WBCDSUB` (R143): the decimal carry, from the elements read of A and of B. -/
opaque unspecWbcdsubS : List Limb → List Limb → Limb
/-- `UNSPEC_CVB2D.r0(v)` (R162). -/
opaque unspecCvb2dR0 : Limb → Limb
/-- `UNSPEC_CVD2B.r0(d)` (R165). -/
opaque unspecCvd2bR0 : Limb → Limb
/-- `UNSPEC_CVD2Z.r0(a)` (R169). -/
opaque unspecCvd2zR0 : Limb → Limb
/-- `UNSPEC_LCVD2B` (R173): limb i of the result, from the group format's divisor and the groups read. -/
opaque unspecLcvd2bR : Nat → List Limb → Nat → Limb
/-- `UNSPEC_BCDMULL.r0(a, b)` (R188). -/
opaque unspecBcdmullR0 : Limb → Limb → Limb
/-- `UNSPEC_BCDMULH.r0(a, b)` (R189). -/
opaque unspecBcdmulhR0 : Limb → Limb → Limb
/-- `UNSPEC_BCDMULF.r0(a, b)` (R190). -/
opaque unspecBcdmulfR0 : Limb → Limb → Limb
/-- `UNSPEC_BCDMULF.s(a, b)` (R190). -/
opaque unspecBcdmulfS : Limb → Limb → Limb
/-- `UNSPEC_BCDDIV.r0(a, b)` (R192). -/
opaque unspecBcddivR0 : Limb → Limb → Limb

end Sys2Proof.Config
end

