-- ==== Sys2Proof/Machine/Operands.lean ====
section
/-! DEFINITION. How the pieces of a port value are read and written: slots and limb sequences
(`00_scope.md` R10, R16; `10_state.md` R27, R31, R32), packed decimal (R11 to R15, R28, R29), zoned
decimal (R30, R167) and the shape tables (`30_encoding.md` R56, R57; `44_radix_converter.md` R171,
R173). -/

namespace Sys2Proof.Machine

/-! ## Slots and limb sequences -/

/-- `slot(p, i)`: bits 128·i + 127 : 128·i of a port (R10, R24). -/
def slot (p : Port) (i : Nat) : Limb := p.extractLsb' (128 * i) 128

/-- Slots 0 to n − 1 of a port, slot 0 first. -/
def slots (p : Port) (n : Nat) : List Limb := (List.range n).map (slot p)

/-- The value of a sequence of limbs, lowest first: Σ limb[i] · 2^(128·i) (R16, R31). -/
def limbsVal : List Limb → Nat
  | [] => 0
  | l :: ls => l.toNat + 2 ^ 128 * limbsVal ls

/-- The n limbs of a number, lowest first: limb i is (v div 2^(128·i)) mod 2^128 (R16). -/
def limbsOf : Nat → Nat → List Limb
  | 0, _ => []
  | n + 1, v => BitVec.ofNat 128 v :: limbsOf n (v / 2 ^ 128)

/-- `wide(p, N)` (R16): the value of limbs 0 to N − 1 of a port. -/
def wide (p : Port) (n : Nat) : Nat := limbsVal (slots p n)

/-- The port value that holds the limbs in slots 0, 1, …, and 0 in every other slot (R25). -/
def portOf (ls : List Limb) : Port := BitVec.ofNat 4096 (limbsVal ls)

/-! ## Decimal digits -/

/-- The number whose n decimal digits are the n low nibbles of x, lowest first (R13, R15). -/
def digitsVal : Nat → Nat → Nat
  | 0, _ => 0
  | n + 1, x => x % 16 + 10 * digitsVal n (x / 16)

/-- The n low decimal digits of v, one a nibble, lowest first (R14, R15). -/
def digitsOf : Nat → Nat → Nat
  | 0, _ => 0
  | n + 1, v => v % 10 + 16 * digitsOf n (v / 10)

/-- Each of the n low nibbles of x is a decimal digit. -/
def digitsValid : Nat → Nat → Bool
  | 0, _ => true
  | n + 1, x => decide (x % 16 ≤ 9) && digitsValid n (x / 16)

/-- `nib(x, i)` (R11). -/
def nib (x : Limb) (i : Nat) : Nibble := x.extractLsb' (4 * i) 4

/-- `is_pos(s)` (R12): 0xA, 0xC, 0xE, 0xF. -/
def isPos (s : Nibble) : Bool := s == 0xA || s == 0xC || s == 0xE || s == 0xF

/-- `is_neg(s)` (R12): 0xB, 0xD. -/
def isNeg (s : Nibble) : Bool := s == 0xB || s == 0xD

/-- `is_sign(s)` (R12). -/
def isSign (s : Nibble) : Bool := isPos s || isNeg s

/-! ## Signed packed decimal (R13, R14, R28) -/

/-- The constant 10^31, written T in `43_bcd_arithmetic.md`: one more than the largest magnitude of a
PackedDecimal. -/
def decT : Nat := 10 ^ 31

/-- The 31 digit nibbles of a PackedDecimal, as a number of 124 bits: x[127:4]. -/
def magBits (x : Limb) : BitVec 124 := x.extractLsb' 4 124

/-- `sgn(x)` (R13). The spec leaves it undefined when the sign nibble is no sign code; every use stands
behind `pdValid` (DEDUCED, safe, log 9). -/
def sgn (x : Limb) : Int := if isNeg (nib x 0) then -1 else 1

/-- `mag(x)` (R13): Σ_{k=1..31} nib(x, k) · 10^(k−1). -/
def mag (x : Limb) : Nat := digitsVal 31 (magBits x).toNat

/-- `val(x)` (R13). -/
def val (x : Limb) : Int := sgn x * (mag x : Int)

/-- `pd_valid(x)` (R13). -/
def pdValid (x : Limb) : Bool := isSign (nib x 0) && digitsValid 31 (magBits x).toNat

/-- `sign(t)` (R9): +1 when t ≥ 0 and −1 when t < 0. -/
def signOf (t : Int) : Int := if 0 ≤ t then 1 else -1

/-- The preferred sign code of a value (R14): 0xC when it is ≥ 0, 0xD when it is negative. -/
def signCode (v : Int) : Nibble := if 0 ≤ v then 0xC else 0xD

/-- `enc(v)` (R14): the canonical PackedDecimal of an integer with |v| < 10^31. -/
def enc (v : Int) : Limb := BitVec.ofNat 124 (digitsOf 31 v.natAbs) ++ signCode v

/-! ## Unsigned packed decimal (R15, R29) -/

/-- `umag(x)` (R15): Σ_{k=0..31} nib(x, k) · 10^k. -/
def umag (x : Limb) : Nat := digitsVal 32 x.toNat

/-- `upd_valid(x)` (R15). -/
def updValid (x : Limb) : Bool := digitsValid 32 x.toNat

/-- `uenc(v)` (R15). -/
def uenc (v : Nat) : Limb := BitVec.ofNat 128 (digitsOf 32 v)

/-! ## Field operations (R120) -/

/-- `normsign(x)` (R120): the sign nibble made preferred, and +0 for a negative zero; x itself when the
sign nibble is no sign code. -/
def normSign (x : Limb) : Limb :=
  if isPos (nib x 0) then magBits x ++ (0xC : Nibble)
  else if isNeg (nib x 0) then
    (if magBits x = 0 then magBits x ++ (0xC : Nibble) else magBits x ++ (0xD : Nibble))
  else x

/-- The result of a field operation under the parameter `P_FIELDOP_NORM` (R7, R120). -/
def fieldResult (x : Limb) : Limb := if Config.fieldOpNorm then normSign x else x

/-! ## Zoned decimal (R30, R167) -/

/-- The low nibbles of the n low bytes of z, packed one a nibble, lowest first (R168). -/
def zonedDigits : Nat → Nat → Nat
  | 0, _ => 0
  | n + 1, z => z % 16 + 16 * zonedDigits n (z / 256)

/-- n bytes, lowest first, each the zone nibble `zone` over the next nibble of x (R169). -/
def zonedBytes (zone : Nat) : Nat → Nat → Nat
  | 0, _ => 0
  | n + 1, x => (x % 16 + 16 * zone) + 256 * zonedBytes zone n (x / 16)

/-- The zone code written over the lowest digit for a sign nibble (R169). -/
def signZone (s : Nibble) : Nibble := if isNeg s then Config.zoneNeg else Config.zonePos

/-! ## Shapes and divisors (R56, R57, R171, R173) -/

/-- (N, M) of a multiply shape: the limb counts of A and of B (R56). -/
def mulShapeLimbs : MulShape → Nat × Nat
  | .m128x128 => (1, 1)
  | .m256x256 => (2, 2)
  | .m512x128 => (4, 1)
  | .m512x512 => (4, 4)
  | .m1024x1024 => (8, 8)
  | .m2048x2048 => (16, 16)

/-- The divisor C (R57). -/
def divisorValue : Divisor → Nat
  | .e16 => 10 ^ 16
  | .e31 => 10 ^ 31
  | .e32 => 10 ^ 32

/-- The least k ≥ k₀ with `bound ≤ base^k`, `p` being base^k₀, looked for in `fuel` steps. -/
def leastPower (base bound : Nat) : (fuel : Nat) → (k₀ p : Nat) → Nat
  | 0, k₀, _ => k₀
  | fuel + 1, k₀, p => if bound ≤ p then k₀ else leastPower base bound fuel (k₀ + 1) (p * base)

/-- `K_OF(N, C)` (R171): the least K with C^K ≥ 2^(128·N); at most 32 groups fit a port. -/
def kOf (n c : Nat) : Nat := leastPower c (2 ^ (128 * n)) 32 0 1

/-- `N_OF(K, C)` (R173): the least N' with 2^(128·N') ≥ C^K; at most 32 limbs fit a port. -/
def nOf (k c : Nat) : Nat := leastPower (2 ^ 128) (c ^ k) 32 0 1

/-- One decimal group written in a group format (R170): a PackedDecimal with sign 0xC for 10^31, an
UnsignedPackedDecimal for 10^32. -/
def groupEnc (d : Divisor) (g : Nat) : Limb :=
  match d with
  | .e32 => uenc g
  | .e16 | .e31 => enc g

/-- A decimal group is in the domain of LCVD2B (R173). -/
def groupValid (d : Divisor) (x : Limb) : Bool :=
  match d with
  | .e32 => updValid x
  | .e16 | .e31 => pdValid x && isPos (nib x 0)

/-- The value of one decimal group (R173). -/
def groupVal (d : Divisor) (x : Limb) : Nat :=
  match d with
  | .e32 => umag x
  | .e16 | .e31 => mag x

/-- The value of a sequence of groups, highest-order first: Σ_j g(j) · C^(K−1−j) (R32, R170). -/
def groupsVal (c : Nat) (gs : List Nat) : Nat := gs.foldl (fun acc g => acc * c + g) 0

/-! ## Host storage (R41): no operation of the unit uses it -/

/-- The 16 bytes of a slot, lowest address first, under a byte order of the host (R41). -/
def storageBytes (order : Config.ByteOrder) (x : Limb) : List Byte :=
  let little := (List.range 16).map fun j => x.extractLsb' (8 * j) 8
  match order with
  | .little => little
  | .big => little.reverse

end Sys2Proof.Machine
end

