-- ==== Sys2Proof/Machine/Flags.lean ====
section
/-! DEFINITION. The single-bit and carry outputs (`10_state.md` R33, R34, R35): the adder's carry, the
predicates of the compares, and the decimal carry. -/

namespace Sys2Proof.Machine

/-! ## Binary carry (R33, R71 to R74) -/

/-- The one adder path: the 128-bit sum and the carry out of a + b + cin (R71, R72). -/
def adder (a b : Limb) (cin : Bool) : Limb × Bool :=
  let t := a.toNat + b.toNat + cin.toNat
  (BitVec.ofNat 128 t, decide (t / 2 ^ 128 ≠ 0))

/-- Subtraction on the adder path, a + ~b + cin: carry 1 means no borrow (R73, R74). -/
def subtractor (a b : Limb) (cin : Bool) : Limb × Bool := adder a (~~~b) cin

/-! ## Predicates (R35, R55) -/

/-- Whether a condition holds of x and y (R55). -/
def condHolds (c : Cond) (x y : Int) : Bool :=
  match c with
  | .eq => decide (x = y)
  | .ne => decide (x ≠ y)
  | .lt => decide (x < y)
  | .le => decide (x ≤ y)
  | .gt => decide (x > y)
  | .ge => decide (x ≥ y)

/-! ## Decimal carry (R34, R126) -/

/-- A decimal carry-in is a valid PackedDecimal of magnitude at most 1 (R121, R124). -/
def carryValid (c : Limb) : Bool := pdValid c && decide (mag c ≤ 1)

/-- The modulo result of a true sum t: the sign of t over the low 31 digits of |t| (R122). -/
def bcdModulo (t : Int) : Limb := enc (signOf t * ((t.natAbs % decT : Nat) : Int))

/-- `cdc` (R126): the element and the decimal carry of a true sum t whose first operand is a. -/
def cdc (a : Limb) (t : Int) : Limb × Limb :=
  if decT ≤ t.natAbs then
    (enc (signOf t * ((t.natAbs : Int) - decT)), enc (signOf t))
  else if t ≠ 0 ∧ signOf t ≠ sgn a then
    (enc (t + sgn a * decT), enc (-(sgn a)))
  else
    (enc t, enc 0)

end Sys2Proof.Machine
end

