-- ==== Sys2Proof/Machine/State.lean ====
section
/-! DEFINITION. The state of the unit and the values that cross its boundary (`10_state.md` R20 to R26,
R37, R39). The unit has no registers, no program counter and no memory (R21, R22, R23, R36, R40). -/

namespace Sys2Proof.Machine

/-- A request: the inputs of one transaction (R24). -/
structure Request where
  /-- The command word (R51). -/
  cw : CmdWord
  /-- Operand A: slots 0 to 31. -/
  a : Port
  /-- Operand B: slots 0 to 31. -/
  b : Port
  /-- Operand C: a binary carry-in in bit 0 (R33), or a decimal carry-in (R34). -/
  c : Limb
deriving DecidableEq, Repr

/-- A response: the outputs of one transaction (R25). -/
structure Response where
  /-- The main result: slots 0 to 31. -/
  r : Port
  /-- The second result: a high part, a remainder, or a decimal carry digit. -/
  s : Limb
  /-- The single-bit result: a binary carry-out (R33) or a predicate (R35). -/
  t : Bool
  /-- The error code (R201); 0 means that the operation was performed. -/
  err : BitVec 3
deriving DecidableEq, Repr

/-- Why the unit could stop with a fault: never. The spec has no fault, no stuck state and no operand
value that stops the unit (R200, R204; `93_implementation_defined.md`: `fault` and `stuck` are "not
used"), so the type has no constructor. Safe and unsafe do not arise. -/
inductive Fault where
deriving DecidableEq, Repr

/-- Why an instruction could be refused. -/
inductive Refusal where
  /-- The instruction of this mnemonic has no meaning in the model yet. Raised by no arm of
  `Sys2Proof.Machine.exec` (every operation has its meaning) and by no meaning. Safe: nothing can be
  proved of a next state that is not there. -/
  | notModelled (mnemonic : String)
deriving DecidableEq, Repr

/-- The state: the unit's one piece of state, `inflight` (R37), and three fields of the model's own that
stand for the outside world at the unit's ports (log 2, log 3). -/
structure State where
  /-- The level on the reset input (R220), driven by the host. -/
  resetLine : Bool
  /-- The transaction in flight (R37): the request presented whose response is not yet delivered. -/
  inflight : Option Request
  /-- The requests the host is going to present, in order (R45). -/
  hostQueue : List Request
  /-- The responses delivered to the host, newest first (R25, R26). No definition of the unit reads it:
  a response is an event and not a level (R39). -/
  delivered : List Response
deriving DecidableEq, Repr

/-- The machine right after reset (R39, R221, R222): no transaction in flight, reset released. The host
has presented nothing and received nothing (DESIGN CHOICE for the model's own fields, log 2, log 3). -/
def State.reset : State where
  resetLine := false
  inflight := none
  hostQueue := []
  delivered := []

end Sys2Proof.Machine
end

