-- ==== Sys2Proof/Machine/Ops.lean ====
section
/-! DEFINITION. The named operations on the state: what a transaction, a request's arrival, reset and an
error response do (`10_state.md` R25, R26, R37; `60_exceptions.md` R200 to R205; `70_reset_and_hazards.md`
R220 to R222), and the chains the families share. -/

namespace Sys2Proof.Machine

open Host (Outcome)

/-! ## Responses -/

/-- The response of an operation that was performed: the slots, second result and single bit it writes,
0 in all the rest (R25). -/
def Response.ok (r : List Limb) (s : Limb := 0) (t : Bool := false) : Response where
  r := portOf r
  s := s
  t := t
  err := 0

/-- `rsp.err` of an error (R201). -/
def errCode : DecodeError → BitVec 3
  | .illegalOpcode => 1
  | .reservedNonzero => 2
  | .illegalShape => 3
  | .illegalImmediate => 4

/-- The error response (R202): the code, and 0 in every data output. -/
def Response.error (e : DecodeError) : Response where
  r := 0
  s := 0
  t := false
  err := errCode e

/-! ## Transactions -/

/-- Deliver a response: the transaction is complete (R26, R37). -/
def State.deliver (s : State) (r : Response) : State :=
  { s with inflight := none, delivered := r :: s.delivered }

/-- Perform an operation on the request in flight: every operand is read from the request, and one
response is delivered (R26, R226). With no request in flight there is nothing to perform and nothing
changes (R213; DESIGN CHOICE, safe, log 4: `step` never asks for it). -/
def State.transact (s : State) (f : Request → Response) :
    Outcome State Fault Refusal :=
  match s.inflight with
  | none => .next s
  | some q => .next (s.deliver (f q))

/-- `raise` (R202): deliver the error response; no operation is performed and nothing else changes.
There is nothing to return from (R205). -/
def State.raise (s : State) (e : DecodeError) : State := s.deliver (Response.error e)

/-- The operation a request asks for (R50, R63). -/
def Request.operation (q : Request) : Except DecodeError Instr := decode q.cw

/-- Between transactions: the unit accepts the next request the host presents, and idles when there is
none (R26, R45, R213). -/
def State.accept (s : State) : State :=
  match s.hostQueue with
  | [] => s
  | q :: rest => { s with inflight := some q, hostQueue := rest }

/-- While reset is asserted: a transaction in flight is abandoned without a response, no request is
accepted, nothing else changes (R220, R221). -/
def State.underReset (s : State) : State := { s with inflight := none }

/-! ## The host's side of the ports -/

/-- The host adds a request to those it is going to present (R24). -/
def State.present (s : State) (q : Request) : State := { s with hostQueue := s.hostQueue ++ [q] }

/-- The host drives the reset input (R220). -/
def State.driveReset (s : State) (level : Bool) : State := { s with resetLine := level }

/-- The request in flight with its command word replaced; operands of 0 where none is in flight. -/
def State.requestWithWord (s : State) (cw : CmdWord) : Request :=
  match s.inflight with
  | some q => { q with cw := cw }
  | none => { cw := cw, a := 0, b := 0, c := 0 }

/-- A request with this command word is in flight and reset is released, so that the next step runs it
(log 2). -/
def State.placeWord (s : State) (cw : CmdWord) : State :=
  { s with resetLine := false, inflight := some (s.requestWithWord cw) }

/-! ## Chains -/

/-- A carry chain: `f` on each pair of elements in order, each taking the carry of the one before
(R91, R92, R142). -/
def chain {γ : Type} (f : Limb → Limb → γ → Limb × γ) : List Limb → List Limb → γ → List Limb × γ
  | a :: as, b :: bs, c =>
    let step := f a b c
    let rest := chain f as bs step.2
    (step.1 :: rest.1, rest.2)
  | [], _, c => ([], c)
  | _ :: _, [], c => ([], c)

/-- A decimal chain over elements in slot order, highest-order first: the chain runs from the last
element to the first, from carry +0 (R142, R143). -/
def decimalChain (f : Limb → Limb → Limb → Limb × Limb) (as bs : List Limb) : List Limb × Limb :=
  let low := chain f as.reverse bs.reverse (enc 0)
  (low.1.reverse, low.2)

/-! ## Guards of the arithmetic decimal operations (R121, R185) -/

/-- Two PackedDecimal operands in slots a0 and b0: `f` of them when both are valid, else `u`. -/
def withTwo (q : Request) (u f : Limb → Limb → Response) : Response :=
  if pdValid (slot q.a 0) && pdValid (slot q.b 0) then f (slot q.a 0) (slot q.b 0)
  else u (slot q.a 0) (slot q.b 0)

/-- Two PackedDecimal operands and a decimal carry-in: `f` of them when all are valid, else `u`. -/
def withThree (q : Request) (u f : Limb → Limb → Limb → Response) : Response :=
  if pdValid (slot q.a 0) && pdValid (slot q.b 0) && carryValid q.c then
    f (slot q.a 0) (slot q.b 0) q.c
  else u (slot q.a 0) (slot q.b 0) q.c

/-- Two sequences of n PackedDecimal elements: `f` of them when every element is valid, else `u`. -/
def withSequences (q : Request) (n : Nat) (u f : List Limb → List Limb → Response) : Response :=
  if (slots q.a n).all pdValid && (slots q.b n).all pdValid then f (slots q.a n) (slots q.b n)
  else u (slots q.a n) (slots q.b n)

/-- The element and carry of `cdc`, as a response (R126). -/
def cdcResponse (a : Limb) (t : Int) : Response := .ok [(cdc a t).1] (s := (cdc a t).2)

end Sys2Proof.Machine
end

