-- ==== Sys2Proof/Machine/Bcd.lean ====
section
/-! DEFINITION. BCD digit-string arithmetic (`43_bcd_arithmetic.md` R120 to R145). -/

namespace Sys2Proof.Machine

open Host (Outcome)

/-! ## Modulo add and subtract -/

/-- BCDADD (R122). -/
def execBcdadd (s : State) : Outcome State Fault Refusal :=
  s.transact fun q => withTwo q (fun a b => .ok [Config.unspecBcdaddR0 a b])
    fun a b => .ok [bcdModulo (val a + val b)]

/-- BCDSUB (R123). -/
def execBcdsub (s : State) : Outcome State Fault Refusal :=
  s.transact fun q => withTwo q (fun a b => .ok [Config.unspecBcdsubR0 a b])
    fun a b => .ok [bcdModulo (val a - val b)]

/-- BCDADDE (R124): the modulo result of one true three-term sum. -/
def execBcdadde (s : State) : Outcome State Fault Refusal :=
  s.transact fun q => withThree q (fun a b c => .ok [Config.unspecBcdaddeR0 a b c])
    fun a b c => .ok [bcdModulo (val a + val b + val c)]

/-- BCDSUBE (R125): the carry-in is added in the subtract form too. -/
def execBcdsube (s : State) : Outcome State Fault Refusal :=
  s.transact fun q => withThree q (fun a b c => .ok [Config.unspecBcdsubeR0 a b c])
    fun a b c => .ok [bcdModulo (val a - val b + val c)]

/-! ## Carry detection and correction -/

/-- BCDADDC (R126). -/
def execBcdaddc (s : State) : Outcome State Fault Refusal :=
  s.transact fun q =>
    withTwo q (fun a b => .ok [Config.unspecBcdaddcR0 a b] (s := Config.unspecBcdaddcS a b))
      fun a b => cdcResponse a (val a + val b)

/-- BCDSUBC (R127). -/
def execBcdsubc (s : State) : Outcome State Fault Refusal :=
  s.transact fun q =>
    withTwo q (fun a b => .ok [Config.unspecBcdsubcR0 a b] (s := Config.unspecBcdsubcS a b))
      fun a b => cdcResponse a (val a - val b)

/-- BCDADDEC (R129). -/
def execBcdaddec (s : State) : Outcome State Fault Refusal :=
  s.transact fun q =>
    withThree q (fun a b c => .ok [Config.unspecBcdaddecR0 a b c] (s := Config.unspecBcdaddecS a b c))
      fun a b c => cdcResponse a (val a + val b + val c)

/-- BCDSUBEC (R130). -/
def execBcdsubec (s : State) : Outcome State Fault Refusal :=
  s.transact fun q =>
    withThree q (fun a b c => .ok [Config.unspecBcdsubecR0 a b c] (s := Config.unspecBcdsubecS a b c))
      fun a b c => cdcResponse a (val a - val b + val c)

/-! ## Compare -/

/-- BCDCMP (R133): the condition on two values. -/
def execBcdcmp (cond : Cond) (s : State) : Outcome State Fault Refusal :=
  s.transact fun q => withTwo q (fun a b => .ok [] (t := Config.unspecBcdcmpT a b (condCode cond)))
    fun a b => .ok [] (t := condHolds cond (val a) (val b))

/-! ## Sign operations -/

/-- BCDCPSGN (R134): the digits of a, the sign nibble of b. -/
def execBcdcpsgn (s : State) : Outcome State Fault Refusal :=
  s.transact fun q => .ok [fieldResult (magBits (slot q.a 0) ++ nib (slot q.b 0) 0)]

/-- Set the preferred code of the sign nibble's class; a nibble that is no sign code is left (R135). -/
def setPreferredSign (a : Limb) : Limb :=
  if isPos (nib a 0) then magBits a ++ (0xC : Nibble)
  else if isNeg (nib a 0) then magBits a ++ (0xD : Nibble)
  else a

/-- BCDSETSGN (R135). -/
def execBcdsetsgn (s : State) : Outcome State Fault Refusal :=
  s.transact fun q => .ok [fieldResult (setPreferredSign (slot q.a 0))]

/-! ## Digit shifts -/

/-- BCDSL (R136): the 124 magnitude bits shifted left by n digits, the sign nibble kept. -/
def execBcdsl (n : Nat) (s : State) : Outcome State Fault Refusal :=
  s.transact fun q =>
    .ok [fieldResult ((magBits (slot q.a 0) <<< (4 * n)) ++ nib (slot q.a 0) 0)]

/-- BCDSR (R137): the 124 magnitude bits shifted right by n digits, the sign nibble kept. -/
def execBcdsr (n : Nat) (s : State) : Outcome State Fault Refusal :=
  s.transact fun q =>
    .ok [fieldResult ((magBits (slot q.a 0) >>> (4 * n)) ++ nib (slot q.a 0) 0)]

/-- The rounded digit shift of a valid operand (R138): the last digit shifted out, plus 5, rounds. -/
def shiftRound (a : Limb) (n : Nat) : Limb :=
  if n = 0 then enc (val a)
  else
    let rd := ((nib a n).toNat + 5) / 10
    enc (sgn a * ((mag a / 10 ^ n + rd : Nat) : Int))

/-- BCDSRR (R138). -/
def execBcdsrr (n : Nat) (s : State) : Outcome State Fault Refusal :=
  s.transact fun q =>
    if pdValid (slot q.a 0) then .ok [shiftRound (slot q.a 0) n]
    else .ok [Config.unspecBcdsrrR0 (slot q.a 0) n]

/-! ## Truncation -/

/-- The k low nibbles of a slot (R139, R140). -/
def lowNibbles (a : Limb) (k : Nat) : Limb := BitVec.ofNat 128 (a.toNat % 2 ^ (4 * k))

/-- BCDTRUNC (R139): the sign nibble and the k low digits. -/
def execBcdtrunc (k : Nat) (s : State) : Outcome State Fault Refusal :=
  s.transact fun q => .ok [fieldResult (lowNibbles (slot q.a 0) (k + 1))]

/-- BCDUTRUNC (R140): the k low digits; `P_FIELDOP_NORM` does not apply. -/
def execBcdutrunc (k : Nat) (s : State) : Outcome State Fault Refusal :=
  s.transact fun q => .ok [lowNibbles (slot q.a 0) k]

/-! ## Validating predicate -/

/-- The operand is acceptable in a format (R141). -/
def decimalValid (fmt : DecFormat) (a : Limb) : Bool :=
  match fmt with
  | .packed => pdValid a
  | .unsigned => updValid a

/-- BCDVALID (R141). -/
def execBcdvalid (fmt : DecFormat) (s : State) : Outcome State Fault Refusal :=
  s.transact fun q => .ok [] (t := decimalValid fmt (slot q.a 0))

/-! ## Multi-limb chains -/

/-- One step of the add chain (R129). -/
def addStep (a b c : Limb) : Limb × Limb := cdc a (val a + val b + val c)

/-- One step of the subtract chain (R130). -/
def subStep (a b c : Limb) : Limb × Limb := cdc a (val a - val b + val c)

/-- The response of a decimal chain (R142). -/
def decimalChainResponse (x : List Limb × Limb) : Response := .ok x.1 (s := x.2)

/-- WBCDADD (R142). -/
def execWbcdadd (n : Nat) (s : State) : Outcome State Fault Refusal :=
  s.transact fun q =>
    withSequences q n
      (fun as bs => .ok ((List.range n).map (Config.unspecWbcdaddR as bs)) (s := Config.unspecWbcdaddS as bs))
      fun as bs => decimalChainResponse (decimalChain addStep as bs)

/-- WBCDSUB (R143). -/
def execWbcdsub (n : Nat) (s : State) : Outcome State Fault Refusal :=
  s.transact fun q =>
    withSequences q n
      (fun as bs => .ok ((List.range n).map (Config.unspecWbcdsubR as bs)) (s := Config.unspecWbcdsubS as bs))
      fun as bs => decimalChainResponse (decimalChain subStep as bs)

end Sys2Proof.Machine
end

