-- ==== Sys2Proof/Machine/ConstDiv.lean ====
section
/-! DEFINITION. The constant-divisor engine (`42_const_divisor.md` R105 to R114). The multiply-and-shift
techniques the source describes are in `Machine/Techniques.lean`. -/

namespace Sys2Proof.Machine

open Host (Outcome)

/-- The exact quotient and remainder of a dividend (R106, R109). -/
def quotRem (x c : Nat) : Response :=
  .ok [BitVec.ofNat 128 (x / c)] (s := BitVec.ofNat 128 (x % c))

/-- DIVC (R106): one-limb dividend. -/
def execDivc (d : Divisor) (s : State) : Outcome State Fault Refusal :=
  s.transact fun q => quotRem (slot q.a 0).toNat (divisorValue d)

/-- DIVDC (R109): two-limb dividend, a0 the low limb and a1 the high limb; free values when the quotient
needs more than one limb. -/
def execDivdc (d : Divisor) (s : State) : Outcome State Fault Refusal :=
  s.transact fun q =>
    let lo := slot q.a 0
    let hi := slot q.a 1
    let c := divisorValue d
    if hi.toNat < c then quotRem (hi.toNat * 2 ^ 128 + lo.toNat) c
    else .ok [Config.unspecDivdcR0 hi lo c] (s := Config.unspecDivdcS hi lo c)

end Sys2Proof.Machine
end

