-- ==== Sys2Proof/Machine/DecMulDiv.lean ====
section
/-! DEFINITION. Decimal multiply and divide (`45_decimal_muldiv.md` R185 to R194). The chunk-splitting
technique is in `Machine/Techniques.lean`. -/

namespace Sys2Proof.Machine

open Host (Outcome)

/-- The low half of a product p: sign(p) · (|p| mod T) (R187, R188). -/
def productLow (p : Int) : Limb := enc (signOf p * ((p.natAbs % decT : Nat) : Int))

/-- The high half of a product p: sign(p) · (|p| div T) (R187, R189). -/
def productHigh (p : Int) : Limb := enc (signOf p * ((p.natAbs / decT : Nat) : Int))

/-- BCDMULL (R188). -/
def execBcdmull (s : State) : Outcome State Fault Refusal :=
  s.transact fun q => withTwo q (fun a b => .ok [Config.unspecBcdmullR0 a b])
    fun a b => .ok [productLow (val a * val b)]

/-- BCDMULH (R189). -/
def execBcdmulh (s : State) : Outcome State Fault Refusal :=
  s.transact fun q => withTwo q (fun a b => .ok [Config.unspecBcdmulhR0 a b])
    fun a b => .ok [productHigh (val a * val b)]

/-- BCDMULF (R190): the low half in slot 0, the high half as the second result. -/
def execBcdmulf (s : State) : Outcome State Fault Refusal :=
  s.transact fun q =>
    withTwo q (fun a b => .ok [Config.unspecBcdmulfR0 a b] (s := Config.unspecBcdmulfS a b))
      fun a b => .ok [productLow (val a * val b)] (s := productHigh (val a * val b))

/-- The quotient truncated toward zero, of a divisor that is not zero (R192). -/
def decimalQuotient (a b : Limb) : Limb := enc (sgn a * sgn b * ((mag a / mag b : Nat) : Int))

/-- BCDDIV (R192): the free value when an operand is invalid or the divisor is zero. -/
def execBcddiv (s : State) : Outcome State Fault Refusal :=
  s.transact fun q => withTwo q (fun a b => .ok [Config.unspecBcddivR0 a b])
    fun a b => if mag b = 0 then .ok [Config.unspecBcddivR0 a b] else .ok [decimalQuotient a b]

end Sys2Proof.Machine
end

