-- ==== Sys2Proof/Machine/Limb.lean ====
section
/-! DEFINITION. The limb primitives (`40_limb_primitives.md` R70 to R86). -/

namespace Sys2Proof.Machine

open Host (Outcome)

/-! ## Add and subtract -/

/-- The result of one adder step: the sum and the carry-out (R71 to R74). -/
def adderResponse (x : Limb × Bool) : Response := .ok [x.1] (t := x.2)

/-- ADDC (R71): a + b, with carry-out. -/
def execAddc (s : State) : Outcome State Fault Refusal :=
  s.transact fun q => adderResponse (adder (slot q.a 0) (slot q.b 0) false)

/-- ADDE (R72): a + b + cin, with carry-out; cin is bit 0 of operand C. -/
def execAdde (s : State) : Outcome State Fault Refusal :=
  s.transact fun q => adderResponse (adder (slot q.a 0) (slot q.b 0) (q.c.getLsbD 0))

/-- SUBC (R73): a + ~b + 1, with the adder's carry-out: 1 means no borrow. -/
def execSubc (s : State) : Outcome State Fault Refusal :=
  s.transact fun q => adderResponse (subtractor (slot q.a 0) (slot q.b 0) true)

/-- SUBE (R74): a + ~b + cin, with the adder's carry-out; cin 1 means that no borrow comes in. -/
def execSube (s : State) : Outcome State Fault Refusal :=
  s.transact fun q => adderResponse (subtractor (slot q.a 0) (slot q.b 0) (q.c.getLsbD 0))

/-! ## Comparison -/

/-- CMPU (R75): the condition on two limbs as unsigned integers. -/
def execCmpu (cond : Cond) (s : State) : Outcome State Fault Refusal :=
  s.transact fun q =>
    .ok [] (t := condHolds cond ((slot q.a 0).toNat : Int) ((slot q.b 0).toNat : Int))

/-! ## Shifts (R77) -/

/-- (a · 2^n) mod 2^128 (R78, R81). -/
def shiftLeft (a : Limb) (n : Nat) : Limb := BitVec.ofNat 128 (a.toNat * 2 ^ n)

/-- a div 2^n (R79, R82). -/
def shiftRight (a : Limb) (n : Nat) : Limb := BitVec.ofNat 128 (a.toNat / 2 ^ n)

/-- floor(signed(a) / 2^n) mod 2^128 (R80, R83). -/
def shiftRightSigned (a : Limb) (n : Nat) : Limb := BitVec.ofInt 128 (a.toInt / 2 ^ n)

/-- A shift by the count in b0: the free value when the count is above 127, neither reduced nor
saturated (R77). -/
def variableShift (f : Limb → Nat → Limb) (u : Limb → Limb → Limb) (a n : Limb) : Response :=
  if n.toNat ≤ 127 then .ok [f a n.toNat] else .ok [u a n]

/-- SLI (R78). -/
def execSli (n : Nat) (s : State) : Outcome State Fault Refusal :=
  s.transact fun q => .ok [shiftLeft (slot q.a 0) n]

/-- SRI (R79). -/
def execSri (n : Nat) (s : State) : Outcome State Fault Refusal :=
  s.transact fun q => .ok [shiftRight (slot q.a 0) n]

/-- SRAI (R80). -/
def execSrai (n : Nat) (s : State) : Outcome State Fault Refusal :=
  s.transact fun q => .ok [shiftRightSigned (slot q.a 0) n]

/-- SLV (R81). -/
def execSlv (s : State) : Outcome State Fault Refusal :=
  s.transact fun q => variableShift shiftLeft Config.unspecSlvR0 (slot q.a 0) (slot q.b 0)

/-- SRV (R82). -/
def execSrv (s : State) : Outcome State Fault Refusal :=
  s.transact fun q => variableShift shiftRight Config.unspecSrvR0 (slot q.a 0) (slot q.b 0)

/-- SRAV (R83). -/
def execSrav (s : State) : Outcome State Fault Refusal :=
  s.transact fun q => variableShift shiftRightSigned Config.unspecSravR0 (slot q.a 0) (slot q.b 0)

/-! ## Multiply -/

/-- The widening multiply: (low, high) of the exact 256-bit product (R84). -/
def wideningMul (a b : Limb) : Limb × Limb :=
  let p := a.toNat * b.toNat
  (BitVec.ofNat 128 p, BitVec.ofNat 128 (p / 2 ^ 128))

/-- MULW (R84). -/
def execMulw (s : State) : Outcome State Fault Refusal :=
  s.transact fun q =>
    let p := wideningMul (slot q.a 0) (slot q.b 0)
    .ok [p.1] (s := p.2)

/-- MUL10E (R85): 10·a + d, low and high part; free values when the digit is above 9. -/
def execMul10e (s : State) : Outcome State Fault Refusal :=
  s.transact fun q =>
    let a := slot q.a 0
    let d := slot q.b 0
    if d.toNat ≤ 9 then
      let t := 10 * a.toNat + d.toNat
      .ok [BitVec.ofNat 128 t] (s := BitVec.ofNat 128 (t / 2 ^ 128))
    else .ok [Config.unspecMul10eR0 a d] (s := Config.unspecMul10eS a d)

end Sys2Proof.Machine
end

