-- ==== Sys2Proof/Machine/Radix.lean ====
section
/-! DEFINITION. The BCD⇄binary radix converter (`44_radix_converter.md` R160 to R175). The five-stage
pipelines and the long-division and long-multiplication techniques are in `Machine/Techniques.lean`. -/

namespace Sys2Proof.Machine

open Host (Outcome)

/-! ## One limb -/

/-- CVB2D (R162): the 32 decimal digits of a limb below 10^32, else the free value. -/
def execCvb2d (s : State) : Outcome State Fault Refusal :=
  s.transact fun q =>
    let v := slot q.a 0
    if v.toNat < 10 ^ 32 then .ok [uenc v.toNat] else .ok [Config.unspecCvb2dR0 v]

/-- CVD2B (R165): the value of 32 valid decimal digits, else the free value. -/
def execCvd2b (s : State) : Outcome State Fault Refusal :=
  s.transact fun q =>
    let d := slot q.a 0
    if updValid d then .ok [BitVec.ofNat 128 (umag d)] else .ok [Config.unspecCvd2bR0 d]

/-! ## Zoned and packed -/

/-- The packed form of a zoned value (R168): the sixteen digit nibbles, unchecked, and the sign of the
zone of byte 0 alone. -/
def zonedToPacked (z : Limb) : Limb :=
  BitVec.ofNat 124 (zonedDigits 16 z.toNat)
    ++ (if Config.zoneIsNeg (nib z 1) then (0xD : Nibble) else (0xC : Nibble))

/-- CVZ2D (R168). -/
def execCvz2d (s : State) : Outcome State Fault Refusal :=
  s.transact fun q => .ok [fieldResult (zonedToPacked (slot q.a 0))]

/-- A PackedDecimal fits the zoned format: a sign code, and no digit above the sixteenth (R169). -/
def zonedFits (a : Limb) : Bool := isSign (nib a 0) && decide (a.extractLsb' 68 60 = 0)

/-- The zoned form of a packed value (R169): the sign zone over digit 0, `ZONE_DIGIT` over the others. -/
def packedToZoned (a : Limb) : Limb :=
  let digits := (magBits a).toNat
  BitVec.ofNat 128 ((digits % 16 + 16 * (signZone (nib a 0)).toNat)
    + 256 * zonedBytes Config.zoneDigit.toNat 15 (digits / 16))

/-- CVD2Z (R169). -/
def execCvd2z (s : State) : Outcome State Fault Refusal :=
  s.transact fun q =>
    let a := slot q.a 0
    if zonedFits a then .ok [packedToZoned a] else .ok [Config.unspecCvd2zR0 a]

/-! ## Multi-limb ("long") conversion -/

/-- The k groups of V in base C, highest-order first (R171): group j counted from the low end is
(V div C^j) mod C. -/
def groupsOf (k c v : Nat) : List Nat := (List.range k).reverse.map fun j => v / c ^ j % c

/-- LCVB2D (R171): K_OF(N, C) groups, whatever the value. -/
def execLcvb2d (n : Nat) (fmt : Divisor) (s : State) : Outcome State Fault Refusal :=
  s.transact fun q =>
    let c := divisorValue fmt
    .ok ((groupsOf (kOf n c) c (wide q.a n)).map (groupEnc fmt))

/-- LCVD2B (R173): N_OF(K, C) limbs; free values when a group is outside the domain. -/
def execLcvd2b (k : Nat) (fmt : Divisor) (s : State) : Outcome State Fault Refusal :=
  s.transact fun q =>
    let c := divisorValue fmt
    let groups := slots q.a k
    if groups.all (groupValid fmt) then
      .ok (limbsOf (nOf k c) (groupsVal c (groups.map (groupVal fmt))))
    else .ok ((List.range (nOf k c)).map (Config.unspecLcvd2bR c groups))

end Sys2Proof.Machine
end

