-- ==== Sys2Proof/Machine/Wide.lean ====
section
/-! DEFINITION. The wide integer composer (`41_wide_composer.md` R90 to R99). The block algorithm the
source describes is in `Machine/Techniques.lean`. -/

namespace Sys2Proof.Machine

open Host (Outcome)

/-- The result of a binary carry chain: N limbs and the carry out of the top one (R91, R92). -/
def chainResponse (x : List Limb × Bool) : Response := .ok x.1 (t := x.2)

/-- WADD (R91): the chain of extended adds, lowest limb first, from carry 0. -/
def execWadd (n : Nat) (s : State) : Outcome State Fault Refusal :=
  s.transact fun q => chainResponse (chain adder (slots q.a n) (slots q.b n) false)

/-- WSUB (R92): the chain of extended subtracts, lowest limb first, from carry 1. -/
def execWsub (n : Nat) (s : State) : Outcome State Fault Refusal :=
  s.transact fun q => chainResponse (chain subtractor (slots q.a n) (slots q.b n) true)

/-- WMUL (R94): the N + M limbs of the exact product. -/
def execWmul (shape : MulShape) (s : State) : Outcome State Fault Refusal :=
  s.transact fun q =>
    let n := (mulShapeLimbs shape).1
    let m := (mulShapeLimbs shape).2
    .ok (limbsOf (n + m) (wide q.a n * wide q.b m))

end Sys2Proof.Machine
end

