-- ==== Sys2Proof/Machine/Dispatch.lean ====
section
/-! DEFINITION. Which meaning each operation has (`30_encoding.md` R52): one arm per constructor. -/

namespace Sys2Proof.Machine

open Host (Outcome)

/-- The meaning of an operation. -/
def exec (i : Instr) (s : State) : Host.Outcome State Fault Refusal :=
  match i with
  -- limb primitives
  | .addc => Sys2Proof.Machine.execAddc s
  | .adde => Sys2Proof.Machine.execAdde s
  | .subc => Sys2Proof.Machine.execSubc s
  | .sube => Sys2Proof.Machine.execSube s
  | .cmpu cond => Sys2Proof.Machine.execCmpu cond s
  | .sli n => Sys2Proof.Machine.execSli n s
  | .sri n => Sys2Proof.Machine.execSri n s
  | .srai n => Sys2Proof.Machine.execSrai n s
  | .slv => Sys2Proof.Machine.execSlv s
  | .srv => Sys2Proof.Machine.execSrv s
  | .srav => Sys2Proof.Machine.execSrav s
  | .mulw => Sys2Proof.Machine.execMulw s
  | .mul10e => Sys2Proof.Machine.execMul10e s
  -- wide integer composer
  | .wadd n => Sys2Proof.Machine.execWadd n s
  | .wsub n => Sys2Proof.Machine.execWsub n s
  | .wmul shape => Sys2Proof.Machine.execWmul shape s
  -- constant-divisor engine
  | .divc d => Sys2Proof.Machine.execDivc d s
  | .divdc d => Sys2Proof.Machine.execDivdc d s
  -- BCD digit-string arithmetic
  | .bcdadd => Sys2Proof.Machine.execBcdadd s
  | .bcdsub => Sys2Proof.Machine.execBcdsub s
  | .bcdaddc => Sys2Proof.Machine.execBcdaddc s
  | .bcdsubc => Sys2Proof.Machine.execBcdsubc s
  | .bcdadde => Sys2Proof.Machine.execBcdadde s
  | .bcdsube => Sys2Proof.Machine.execBcdsube s
  | .bcdaddec => Sys2Proof.Machine.execBcdaddec s
  | .bcdsubec => Sys2Proof.Machine.execBcdsubec s
  | .bcdcmp cond => Sys2Proof.Machine.execBcdcmp cond s
  | .bcdcpsgn => Sys2Proof.Machine.execBcdcpsgn s
  | .bcdsetsgn => Sys2Proof.Machine.execBcdsetsgn s
  | .bcdsl n => Sys2Proof.Machine.execBcdsl n s
  | .bcdsr n => Sys2Proof.Machine.execBcdsr n s
  | .bcdsrr n => Sys2Proof.Machine.execBcdsrr n s
  | .bcdtrunc k => Sys2Proof.Machine.execBcdtrunc k s
  | .bcdutrunc k => Sys2Proof.Machine.execBcdutrunc k s
  | .bcdvalid fmt => Sys2Proof.Machine.execBcdvalid fmt s
  | .wbcdadd n => Sys2Proof.Machine.execWbcdadd n s
  | .wbcdsub n => Sys2Proof.Machine.execWbcdsub n s
  -- radix converter
  | .cvb2d => Sys2Proof.Machine.execCvb2d s
  | .cvd2b => Sys2Proof.Machine.execCvd2b s
  | .cvz2d => Sys2Proof.Machine.execCvz2d s
  | .cvd2z => Sys2Proof.Machine.execCvd2z s
  | .lcvb2d n fmt => Sys2Proof.Machine.execLcvb2d n fmt s
  | .lcvd2b k fmt => Sys2Proof.Machine.execLcvd2b k fmt s
  -- decimal multiply and divide
  | .bcdmull => Sys2Proof.Machine.execBcdmull s
  | .bcdmulh => Sys2Proof.Machine.execBcdmulh s
  | .bcdmulf => Sys2Proof.Machine.execBcdmulf s
  | .bcddiv => Sys2Proof.Machine.execBcddiv s

end Sys2Proof.Machine
end

