-- ==== Sys2Proof/Machine/Step.lean ====
section
/-! DEFINITION. One step of the unit (`10_state.md` R26, R37; `70_reset_and_hazards.md` R220, R221,
R230). -/

namespace Sys2Proof.Machine

open Host (Outcome)

/-- One step. While reset is asserted, a transaction in flight is abandoned (R221). Otherwise a request
in flight is answered: by its operation when its command word is legal, by the error response when it is
not (R200). Otherwise the next request is accepted (R45). Log 1 says how a transaction is cut into
steps. -/
def step (s : State) : Outcome State Fault Refusal :=
  if s.resetLine then .next s.underReset
  else
    match s.inflight with
    | none => .next s.accept
    | some q =>
      match q.operation with
      | .ok i => exec i s
      | .error e => .next (s.raise e)

/-- The state whose next step runs the operation of command word `w` (numbered as the opcode table
numbers it: the word itself, R51). The operands of a request in flight are kept (log 2). -/
def State.withFetchWord (s : State) (nbits w : Nat) : State :=
  s.placeWord (BitVec.ofNat 32 (w % 2 ^ nbits))

end Sys2Proof.Machine
end

