-- ==== Sys2Proof/Machine/Techniques.lean ====
section
/-! DEFINITION. The algorithms the spec describes beside its results and calls informative: no result of
any operation depends on them (`93_implementation_defined.md` U19), and statements say that they give
the results of the operation rules. Rules: `41_wide_composer.md` R95, R96, R97; `42_const_divisor.md`
R107, R108, R111, R112, R113; `43_bcd_arithmetic.md` R128; `44_radix_converter.md` R161, R163, R164,
R166, R172, R174; `45_decimal_muldiv.md` R191. -/

namespace Sys2Proof.Machine

/-! ## Block multiplication (R95, R96, R97) -/

/-- The row step (R95): `as` times one limb, low limb first, `k` carried into the first column; one limb
longer than `as`. -/
def rowMul : List Limb → Limb → Limb → List Limb
  | [], _, k => [k]
  | a :: as, b, k =>
    let p := wideningMul a b
    let lo := adder p.1 k false
    lo.1 :: rowMul as b (p.2 + BitVec.ofNat 128 lo.2.toNat)

/-- Add a row into the running sum, shifted by j limbs (R96). -/
def addRow (acc row : List Limb) (j : Nat) : List Limb :=
  acc.take j ++ (chain adder ((acc.drop j).take row.length) row false).1 ++ acc.drop (j + row.length)

/-- The column step (R96): the rows of the limbs of `bs`, low to high, from row j on. -/
def addRows (as : List Limb) : List Limb → Nat → List Limb → List Limb
  | [], _, acc => acc
  | b :: bs, j, acc => addRows as bs (j + 1) (addRow acc (rowMul as b 0) j)

/-- The block algorithm (R95, R96): the N + M limbs of the product. -/
def blockMul (as bs : List Limb) : List Limb :=
  addRows as bs 0 (List.replicate (as.length + bs.length) 0)

/-- Block u of 512 bits (R97). -/
def block512 (x u : Nat) : Nat := x / 2 ^ (512 * u) % 2 ^ 512

/-- The value of a sequence of 512-bit columns, lowest first; a column that is not yet reduced may hold
more than 512 bits (R97). -/
def blocksVal : List Nat → Nat
  | [] => 0
  | x :: xs => x + 2 ^ 512 * blocksVal xs

/-- Column k of n blocks of A and n blocks of B: the sum of the block products of equal u + v = k (R97). -/
def blockColumn (n a b k : Nat) : Nat :=
  ((List.range n).map fun u =>
    if u ≤ k ∧ k - u < n then block512 a u * block512 b (k - u) else 0).sum

/-- Column sums reduced to 512 bits each, lowest first, what stands above passed as the carry to the next
column; the second part is the carry out of the top column (R97). -/
def carryColumns : List Nat → Nat → List Nat × Nat
  | [], c => ([], c)
  | x :: xs, c =>
    let t := x + c
    let rest := carryColumns xs (t / 2 ^ 512)
    (t % 2 ^ 512 :: rest.1, rest.2)

/-- The four-block decomposition (R97): the block products of n blocks an operand, summed into 2·n columns
with the carry passed from column to column. -/
def blockProducts (n a b : Nat) : List Nat × Nat :=
  carryColumns ((List.range (2 * n)).map (blockColumn n a b)) 0

/-! ## Division by a constant (R107, R108, R111, R112, R113) -/

/-- The magic multiplier and shift of a divisor (R112). -/
def magic : Divisor → Limb × Nat
  | .e16 => (0x39A5652FB1137856D30BAF9A1E626A6D#128, 51)
  | .e31 => (0x039D66589687F9E901D59F290EE19DAF#128, 103)
  | .e32 => (0x9F623D5A8A732974CFBC31DB4B0295E5#128, 107)

/-- The plain multiply-and-shift (R107): the high limb of x · M, shifted right by s. -/
def plainQuotient (m : Limb) (s : Nat) (x : Limb) : Limb := (wideningMul x m).2 >>> s

/-- The corrective half-add (R108): ((x − q₀) >> 1 + q₀) >> (s − 1). -/
def correctiveQuotient (m : Limb) (s : Nat) (x : Limb) : Limb :=
  let q0 := (wideningMul x m).2
  (((x - q0) >>> 1) + q0) >>> (s - 1)

/-- The quotient of a limb by a constant, by the technique of R107 or R108. -/
def magicQuotient (d : Divisor) (x : Limb) : Limb :=
  match d with
  | .e16 => plainQuotient (magic .e16).1 (magic .e16).2 x
  | .e31 => correctiveQuotient (magic .e31).1 (magic .e31).2 x
  | .e32 => correctiveQuotient (magic .e32).1 (magic .e32).2 x

/-- The quotient with the short cut (R113), and the remainder obtained by multiplying back (R106). -/
def magicDivide (d : Divisor) (x : Limb) : Limb × Limb :=
  let c := BitVec.ofNat 128 (divisorValue d)
  if x.toNat < divisorValue d then (0, x)
  else
    let q := magicQuotient d x
    (q, x - q * c)

/-- Estimate and correct (R111): the two-limb quotient and remainder, the estimate lowered by one when
the difference shows that it was one too high. -/
def estimateDivide (d : Divisor) (hi lo : Limb) : Limb × Limb :=
  let m := (magic d).1.toNat
  let s := (magic d).2
  let c : Nat := divisorValue d
  let x : Nat := hi.toNat * 2 ^ 128 + lo.toNat
  let qe : Nat := x * (2 ^ 128 + m) / 2 ^ (128 + s)
  let diff := BitVec.ofInt 256 ((x : Int) - (qe : Int) * (c : Int))
  let dh := diff.extractLsb' 128 128
  let dl := diff.extractLsb' 0 128
  if dh ≠ 0 ∨ c ≤ dl.toNat then (BitVec.ofNat 128 (qe - 1), BitVec.ofNat 128 (dl.toNat + c))
  else (BitVec.ofNat 128 qe, dl)

/-! ## The ten's-complement correction (R128) -/

/-- The naive sum n plus (9999…9, sign a) plus (1, sign a). -/
def tensComplement (sa n : Int) : Int := n + sa * (decT - 1) + sa * 1

/-! ## The radix pipelines (R161, R163, R164, R166) -/

/-- The splitting step on a field of width 2b (R161). -/
def splitField (f r b : Nat) : Nat := f + f / r * (2 ^ b - r)

/-- The combining step on a field of width 2b (R164). -/
def joinField (f r b : Nat) : Nat := f - f / 2 ^ b * (2 ^ b - r)

/-- A step applied to n adjacent fields of width 2b, lowest first. -/
def onFields (step : Nat → Nat → Nat → Nat) (r b : Nat) : Nat → Nat → Nat
  | 0, _ => 0
  | n + 1, v => step (v % 2 ^ (2 * b)) r b + 2 ^ (2 * b) * onFields step r b n (v / 2 ^ (2 * b))

/-- The five stages of binary to decimal (R163). -/
def splitPipeline (v : Nat) : Nat :=
  let v1 := onFields splitField (10 ^ 16) 64 1 v
  let v2 := onFields splitField (10 ^ 8) 32 2 v1
  let v3 := onFields splitField (10 ^ 4) 16 4 v2
  let v4 := onFields splitField (10 ^ 2) 8 8 v3
  onFields splitField 10 4 16 v4

/-- The five stages of decimal to binary (R166). -/
def joinPipeline (v : Nat) : Nat :=
  let v1 := onFields joinField 10 4 16 v
  let v2 := onFields joinField (10 ^ 2) 8 8 v1
  let v3 := onFields joinField (10 ^ 4) 16 4 v2
  let v4 := onFields joinField (10 ^ 8) 32 2 v3
  onFields joinField (10 ^ 16) 64 1 v4

/-! ## Long conversion (R172, R174) -/

/-- One pass of the long division over the limbs of a quotient, highest first: the next quotient and the
remainder; each step is a double-limb division (R109, R172). -/
def longDividePass (c : Nat) : List Limb → Limb → List Limb × Limb
  | [], rem => ([], rem)
  | x :: xs, rem =>
    let d := rem.toNat * 2 ^ 128 + x.toNat
    let rest := longDividePass c xs (BitVec.ofNat 128 (d % c))
    (BitVec.ofNat 128 (d / c) :: rest.1, rest.2)

/-- k groups by repeated passes, lowest-order group first (R172). -/
def longDivide (c : Nat) : Nat → List Limb → List Limb
  | 0, _ => []
  | k + 1, xs =>
    let pass := longDividePass c xs 0
    pass.2 :: longDivide c k pass.1

/-- One step of the long multiplication (R174): acc · C + g, one limb longer when it overflows. -/
def longMultiplyStep (c : Nat) (acc : List Limb) (g : Limb) : List Limb :=
  let row := rowMul acc (BitVec.ofNat 128 c) 0
  let sum := (chain adder row (g :: List.replicate acc.length 0) false).1
  if sum.getLast? = some 0 then sum.dropLast else sum

/-- The long multiplication over binary group values, highest-order first (R174). -/
def longMultiply (c : Nat) : List Limb → List Limb
  | [] => []
  | g :: gs => gs.foldl (longMultiplyStep c) [g]

/-! ## Chunk splitting (R191) -/

/-- The product of two magnitudes from chunks of 16 digits: one chunk product when both high chunks are
zero, else four. -/
def chunkProduct (a b : Nat) : Nat :=
  let al := a % 10 ^ 16
  let ah := a / 10 ^ 16
  let bl := b % 10 ^ 16
  let bh := b / 10 ^ 16
  if ah = 0 ∧ bh = 0 then al * bl
  else al * bl + (al * bh + ah * bl) * 10 ^ 16 + ah * bh * 10 ^ 32

/-- The low half from three chunk products. -/
def chunkLowHalf (a b : Nat) : Nat :=
  let al := a % 10 ^ 16
  let ah := a / 10 ^ 16
  let bl := b % 10 ^ 16
  let bh := b / 10 ^ 16
  (al * bl + (al * bh + ah * bl) % 10 ^ 15 * 10 ^ 16) % decT

end Sys2Proof.Machine
end

