-- ==== Sys2Proof/Machine/Usage.lean ====
section
/-! DEFINITION. Which request fields each operation reads and which response fields it writes
(`30_encoding.md` R60), for the statements that nothing else is read and that the rest is 0
(`10_state.md` R24, R25). -/

namespace Sys2Proof.Machine

/-- How much of operand C an operation reads (R60). -/
inductive CarryUse where
  | unread
  | bit0
  | whole
deriving DecidableEq, Repr

/-- How many slots of operand A are read: slots 0 to n − 1 (R60). -/
def readsA : Instr → Nat
  | .wadd n | .wsub n | .wbcdadd n | .wbcdsub n => n
  | .wmul shape => (mulShapeLimbs shape).1
  | .divdc _ => 2
  | .lcvb2d n _ => n
  | .lcvd2b k _ => k
  | .addc | .adde | .subc | .sube | .cmpu _ | .sli _ | .sri _ | .srai _ | .slv | .srv | .srav
  | .mulw | .mul10e | .divc _ | .bcdadd | .bcdsub | .bcdaddc | .bcdsubc | .bcdadde | .bcdsube
  | .bcdaddec | .bcdsubec | .bcdcmp _ | .bcdcpsgn | .bcdsetsgn | .bcdsl _ | .bcdsr _ | .bcdsrr _
  | .bcdtrunc _ | .bcdutrunc _ | .bcdvalid _ | .cvb2d | .cvd2b | .cvz2d | .cvd2z | .bcdmull
  | .bcdmulh | .bcdmulf | .bcddiv => 1

/-- How many slots of operand B are read (R60). -/
def readsB : Instr → Nat
  | .wadd n | .wsub n | .wbcdadd n | .wbcdsub n => n
  | .wmul shape => (mulShapeLimbs shape).2
  | .addc | .adde | .subc | .sube | .cmpu _ | .slv | .srv | .srav | .mulw | .mul10e | .bcdadd
  | .bcdsub | .bcdaddc | .bcdsubc | .bcdadde | .bcdsube | .bcdaddec | .bcdsubec | .bcdcmp _
  | .bcdcpsgn | .bcdmull | .bcdmulh | .bcdmulf | .bcddiv => 1
  | .sli _ | .sri _ | .srai _ | .divc _ | .divdc _ | .bcdsetsgn | .bcdsl _ | .bcdsr _ | .bcdsrr _
  | .bcdtrunc _ | .bcdutrunc _ | .bcdvalid _ | .cvb2d | .cvd2b | .cvz2d | .cvd2z | .lcvb2d _ _
  | .lcvd2b _ _ => 0

/-- What is read of operand C (R33, R34, R60). -/
def readsC : Instr → CarryUse
  | .adde | .sube => .bit0
  | .bcdadde | .bcdsube | .bcdaddec | .bcdsubec => .whole
  | .addc | .subc | .cmpu _ | .sli _ | .sri _ | .srai _ | .slv | .srv | .srav | .mulw | .mul10e
  | .wadd _ | .wsub _ | .wmul _ | .divc _ | .divdc _ | .bcdadd | .bcdsub | .bcdaddc | .bcdsubc
  | .bcdcmp _ | .bcdcpsgn | .bcdsetsgn | .bcdsl _ | .bcdsr _ | .bcdsrr _ | .bcdtrunc _
  | .bcdutrunc _ | .bcdvalid _ | .wbcdadd _ | .wbcdsub _ | .cvb2d | .cvd2b | .cvz2d | .cvd2z
  | .lcvb2d _ _ | .lcvd2b _ _ | .bcdmull | .bcdmulh | .bcdmulf | .bcddiv => .unread

/-- How many slots of the main result are written: slots 0 to n − 1 (R60). -/
def writesR : Instr → Nat
  | .cmpu _ | .bcdcmp _ | .bcdvalid _ => 0
  | .wadd n | .wsub n | .wbcdadd n | .wbcdsub n => n
  | .wmul shape => (mulShapeLimbs shape).1 + (mulShapeLimbs shape).2
  | .lcvb2d n fmt => kOf n (divisorValue fmt)
  | .lcvd2b k fmt => nOf k (divisorValue fmt)
  | .addc | .adde | .subc | .sube | .sli _ | .sri _ | .srai _ | .slv | .srv | .srav | .mulw
  | .mul10e | .divc _ | .divdc _ | .bcdadd | .bcdsub | .bcdaddc | .bcdsubc | .bcdadde | .bcdsube
  | .bcdaddec | .bcdsubec | .bcdcpsgn | .bcdsetsgn | .bcdsl _ | .bcdsr _ | .bcdsrr _ | .bcdtrunc _
  | .bcdutrunc _ | .cvb2d | .cvd2b | .cvz2d | .cvd2z | .bcdmull | .bcdmulh | .bcdmulf | .bcddiv => 1

/-- The second result is written (R60). -/
def writesS : Instr → Bool
  | .mulw | .mul10e | .divc _ | .divdc _ | .bcdaddc | .bcdsubc | .bcdaddec | .bcdsubec | .wbcdadd _
  | .wbcdsub _ | .bcdmulf => true
  | .addc | .adde | .subc | .sube | .cmpu _ | .sli _ | .sri _ | .srai _ | .slv | .srv | .srav
  | .wadd _ | .wsub _ | .wmul _ | .bcdadd | .bcdsub | .bcdadde | .bcdsube | .bcdcmp _ | .bcdcpsgn
  | .bcdsetsgn | .bcdsl _ | .bcdsr _ | .bcdsrr _ | .bcdtrunc _ | .bcdutrunc _ | .bcdvalid _
  | .cvb2d | .cvd2b | .cvz2d | .cvd2z | .lcvb2d _ _ | .lcvd2b _ _ | .bcdmull | .bcdmulh
  | .bcddiv => false

/-- The single-bit result is written (R60). -/
def writesT : Instr → Bool
  | .addc | .adde | .subc | .sube | .cmpu _ | .wadd _ | .wsub _ | .bcdcmp _ | .bcdvalid _ => true
  | .sli _ | .sri _ | .srai _ | .slv | .srv | .srav | .mulw | .mul10e | .wmul _ | .divc _ | .divdc _
  | .bcdadd | .bcdsub | .bcdaddc | .bcdsubc | .bcdadde | .bcdsube | .bcdaddec | .bcdsubec
  | .bcdcpsgn | .bcdsetsgn | .bcdsl _ | .bcdsr _ | .bcdsrr _ | .bcdtrunc _ | .bcdutrunc _
  | .wbcdadd _ | .wbcdsub _ | .cvb2d | .cvd2b | .cvz2d | .cvd2z | .lcvb2d _ _ | .lcvd2b _ _
  | .bcdmull | .bcdmulh | .bcdmulf | .bcddiv => false

end Sys2Proof.Machine
end

