-- ==== Sys2Proof/Safety.lean ====
section
/-! DEFINITION. The terms the statements use: what it is that an operation answers a request, which
responses the unit may produce, and when two requests differ only in what an operation does not read. -/

namespace Sys2Proof.Machine

open Host (Outcome)

/-- Operation `i` answers request `q` with response `r`: in EVERY state in which `q` is in flight, `exec`
completes with a next state, and that state is the old one with no transaction in flight and `r`
delivered; the reset input, the host's queue and the earlier responses are as they were (R20, R26). -/
def Answers (i : Instr) (q : Request) (r : Response) : Prop :=
  ∀ s : State, s.inflight = some q →
    exec i s = .next { s with inflight := none, delivered := r :: s.delivered }

/-- The response of an operation that was performed, given the main result as ONE number over the whole
port (so that every slot is stated, the unwritten ones as 0), the second result and the single bit
(R24, R25). -/
def performed (v : Nat) (s : Limb := 0) (t : Bool := false) : Response where
  r := BitVec.ofNat 4096 v
  s := s
  t := t
  err := 0

/-- Operation `i` answers `q` by the three branches of `cdc` (R126) for the true sum `t`, `a` being the
first operand; and in every case the decimal carry times 10^31 plus the element is `t`. -/
def CarryDetectAnswers (i : Instr) (q : Request) (a : Limb) (t : Int) : Prop :=
  (10 ^ 31 ≤ t.natAbs →
      Answers i q (performed (enc (signOf t * ((t.natAbs : Int) - 10 ^ 31))).toNat (s := enc (signOf t))))
    ∧ (t.natAbs < 10 ^ 31 → t ≠ 0 → signOf t ≠ sgn a →
      Answers i q (performed (enc (t + sgn a * 10 ^ 31)).toNat (s := enc (-(sgn a)))))
    ∧ (t.natAbs < 10 ^ 31 → (t = 0 ∨ signOf t = sgn a) →
      Answers i q (performed (enc t).toNat (s := enc 0)))
    ∧ ∃ r : Response, Answers i q r ∧ val r.s * 10 ^ 31 + val (slot r.r 0) = t

/-- A PackedDecimal in the one form an arithmetic operation writes: valid, with a preferred sign code, and
no negative zero (R14, R120). -/
def Canonical (x : Limb) : Prop := pdValid x = true ∧ enc (val x) = x

/-- Operation `i` answers `q` with a canonical PackedDecimal in every slot of the main result that it
writes, and in the second result where it writes that (R60, R120). -/
def AnswersCanonically (i : Instr) (q : Request) : Prop :=
  ∃ r : Response, Answers i q r ∧ (∀ j, j < writesR i → Canonical (slot r.r j))
    ∧ (writesS i = true → Canonical r.s)

/-- A response the unit may produce (R201, R202): a code from 0 to 4, and with a code other than 0 every
data output 0. -/
def Response.wellFormed (x : Response) : Bool :=
  decide (x.err.toNat ≤ 4)
    && (decide (x.err = 0) || (decide (x.r = 0) && decide (x.s = 0) && !x.t))

/-- Every response delivered so far is one the unit may produce. -/
def State.inv (s : State) : Bool := s.delivered.all Response.wellFormed

/-- Two values of operand C agree in what an operation reads of it (R33, R60). -/
def carryAgrees (u : CarryUse) (c c' : Limb) : Prop :=
  match u with
  | .unread => True
  | .bit0 => c.getLsbD 0 = c'.getLsbD 0
  | .whole => c = c'

/-- Two requests agree in every field and slot that an operation reads (R24, R60). -/
def agreeOnReads (i : Instr) (q q' : Request) : Prop :=
  (∀ j, j < readsA i → slot q.a j = slot q'.a j)
    ∧ (∀ j, j < readsB i → slot q.b j = slot q'.b j)
    ∧ carryAgrees (readsC i) q.c q'.c

/-- A response holds 0 in every slot and field that an operation does not write (R25, R60). -/
def restIsZero (i : Instr) (r : Response) : Prop :=
  (∀ j, writesR i ≤ j → j < Config.lmax → slot r.r j = 0)
    ∧ (writesS i = false → r.s = 0)
    ∧ (writesT i = false → r.t = false)

end Sys2Proof.Machine
end

