-- ==== Sys2Proof/Certificates/Slice0/Obligations.lean ====
section
/-! DEFINITION. The statements. In them `slot q.a 0` is operand a0 of request q; `Answers i q r`
(`Sys2Proof/Safety.lean`) says that in EVERY state in which q is in flight `exec i` completes with the
next state that has r delivered and nothing else changed; `performed v s t` is the response with `rsp.err`
0 whose main result, read over all 32 slots as one number, is v. -/

open Sys2Proof Sys2Proof.Machine

/-! ## The decoder and the encoder -/

/-- Decoding the command word of a well-formed operation gives the operation back, for all 47 rows and
every operand value (`30_encoding.md` R51 to R57, R63). -/
def Obligations.DecodeOfEncodeIsTheOperation : Prop :=
  ∀ i : Instr, i.wellFormed = true → decode (encode i) = .ok i

/-- A word that decodes is the command word of the well-formed operation it decodes to: no two words
decode to one operation, and no bit of a word is dropped (R58, R63). -/
def Obligations.DecodedWordIsItsEncoding : Prop :=
  ∀ (cw : CmdWord) (i : Instr), decode cw = .ok i → i.wellFormed = true ∧ encode i = cw

/-- R63, R203: the decoder reports the first failing check, in the order opcode, reserved field, shape,
immediate. The legal values are those of the well-formed operations (R53, R54), and the assigned opcodes
are the 47 of R52. -/
def Obligations.DecoderReportsFirstFailingCheck : Prop :=
  (∀ c : Nat, (∃ i : Instr, i.wellFormed = true ∧ i.opc = c) ↔
    (0x10 ≤ c ∧ c ≤ 0x1C) ∨ (0x20 ≤ c ∧ c ≤ 0x22) ∨ (0x30 ≤ c ∧ c ≤ 0x31) ∨ (0x40 ≤ c ∧ c ≤ 0x52)
      ∨ (0x60 ≤ c ∧ c ≤ 0x65) ∨ (0x70 ≤ c ∧ c ≤ 0x73))
  ∧ ∀ cw : CmdWord,
    (decode cw = .error .illegalOpcode ↔
      ¬ ∃ i : Instr, i.wellFormed = true ∧ i.opc = (cwOpc cw).toNat)
    ∧ (decode cw = .error .reservedNonzero ↔
      (∃ i : Instr, i.wellFormed = true ∧ i.opc = (cwOpc cw).toNat) ∧ cwRsv cw ≠ 0)
    ∧ (decode cw = .error .illegalShape ↔
      (∃ i : Instr, i.wellFormed = true ∧ i.opc = (cwOpc cw).toNat) ∧ cwRsv cw = 0
        ∧ ¬ ∃ i : Instr, i.wellFormed = true ∧ i.opc = (cwOpc cw).toNat ∧ i.shp = (cwShp cw).toNat)
    ∧ (decode cw = .error .illegalImmediate ↔
      cwRsv cw = 0
        ∧ (∃ i : Instr, i.wellFormed = true ∧ i.opc = (cwOpc cw).toNat ∧ i.shp = (cwShp cw).toNat)
        ∧ ¬ ∃ i : Instr, i.wellFormed = true ∧ i.opc = (cwOpc cw).toNat ∧ i.shp = (cwShp cw).toNat
          ∧ i.imm = (cwImm cw).toNat)
    ∧ ((∃ i : Instr, decode cw = .ok i) ↔
      cwRsv cw = 0 ∧ ∃ i : Instr, i.wellFormed = true ∧ i.opc = (cwOpc cw).toNat
        ∧ i.shp = (cwShp cw).toNat ∧ i.imm = (cwImm cw).toNat)

/-- Words written out from R51 to R57 decode to the operations they stand for, one of each format and
family, and words of `60_exceptions.md` R203 are rejected by the right name. -/
def Obligations.SampleWordsDecode : Prop :=
  decode 0x00000010#32 = .ok .addc
    ∧ decode 0x00001115#32 = .ok (.sli 17)
    ∧ decode 0x00000214#32 = .ok (.cmpu .lt)
    ∧ decode 0x00030022#32 = .ok (.wmul .m512x512)
    ∧ decode 0x00010030#32 = .ok (.divc .e31)
    ∧ decode 0x00000042#32 = .ok .bcdaddc
    ∧ decode 0x00020164#32 = .ok (.lcvb2d 2 .e31)
    ∧ decode 0x00000073#32 = .ok .bcddiv
    ∧ decode 0xFFFFFFFF#32 = .error .illegalOpcode
    ∧ decode 0x01000010#32 = .error .reservedNonzero
    ∧ decode 0x00210020#32 = .error .illegalShape
    ∧ decode 0x00008015#32 = .error .illegalImmediate
    ∧ decode 0x00FF8015#32 = .error .illegalShape

/-! ## Steps, transactions and reset -/

/-- A step runs the decoded operation: with a request in flight whose command word decodes to i, and
reset released, step is exec of i at that state, with nothing around it (R26, R50). -/
def Obligations.StepRunsTheDecodedOperation : Prop :=
  ∀ (s : State) (q : Request) (i : Instr), s.resetLine = false → s.inflight = some q →
    decode q.cw = .ok i → step s = exec i s

/-- R202: what the unit does on an error. An illegal word gets its code and 0 in every data output, and
nothing else changes; only the decoder raises, since an operation that is performed has `rsp.err` 0; the
next request is then accepted as after a normal response. That accepting is a step of its own, from a queue
of the host's requests, is the model's choice (log 1, log 2); and the second clause ranges over every term
of `Instr`, those outside R53 and R54 by the model's choice (log 13). -/
def Obligations.IllegalWordGetsTheErrorResponse : Prop :=
  (∀ (s : State) (q : Request) (e : DecodeError), s.resetLine = false → s.inflight = some q →
    decode q.cw = .error e →
    ∃ code : BitVec 3,
      (e = .illegalOpcode → code = 1) ∧ (e = .reservedNonzero → code = 2)
      ∧ (e = .illegalShape → code = 3) ∧ (e = .illegalImmediate → code = 4)
      ∧ step s = .next { s with
          inflight := none
          delivered := { r := 0, s := 0, t := false, err := code } :: s.delivered })
  ∧ (∀ (i : Instr) (q : Request) (r : Response), Answers i q r → r.err = 0)
  ∧ (∀ (s t : State) (q next : Request) (rest : List Request), s.resetLine = false →
      s.inflight = some q → s.hostQueue = next :: rest → step s = .next t →
      step t = .next { t with inflight := some next, hostQueue := rest })

/-- R200: a transaction ends in exactly one response, normal or error, and which of the two depends on
the command word alone: with a word that decodes it carries what the decoded operation answers, and an
error response carries nothing. -/
def Obligations.EveryRequestGetsOneResponse : Prop :=
  ∀ (s : State) (q : Request), s.resetLine = false → s.inflight = some q →
    ∃ r : Response, step s = .next { s with inflight := none, delivered := r :: s.delivered }
      ∧ r.err.toNat ≤ 4
      ∧ (r.err = 0 ↔ ∃ i : Instr, decode q.cw = .ok i)
      ∧ (∀ i : Instr, decode q.cw = .ok i → Answers i q r)
      ∧ (r.err ≠ 0 → r.r = 0 ∧ r.s = 0 ∧ r.t = false)

/-- Every operation completes whenever a request is in flight: exec answers the next state that has one
response with `rsp.err` 0 delivered and every other field as it was (R26, R204, R230). It ranges over every
term of `Instr`; that a term outside R53 and R54, which no word decodes to, completes too is the model's
choice (log 13). -/
def Obligations.EveryOperationCompletes : Prop :=
  ∀ (i : Instr) (q : Request), ∃ r : Response, r.err = 0 ∧ Answers i q r

/-- Steps outside a transaction, and that no step stops: every step, in every state, has a next state
(R200, R230); while reset is asserted, a transaction in flight is abandoned without a response, no request
is accepted, and nothing else changes (R220, R221); an idle unit with reset released accepts the next
request the host presents and otherwise stays as it is (R45, R213). That accepting is a step of its own is
the model's choice (log 1). -/
def Obligations.StepsOutsideATransaction : Prop :=
  (∀ s : State, ∃ t : State, step s = .next t)
  ∧ (∀ s : State, s.resetLine = true → step s = .next { s with inflight := none })
  ∧ ∀ s : State, s.resetLine = false → s.inflight = none →
    (s.hostQueue = [] → step s = .next s)
    ∧ ∀ (q : Request) (rest : List Request), s.hostQueue = q :: rest →
      step s = .next { s with inflight := some q, hostQueue := rest }

/-- Right after reset no transaction is in flight, and the first request presented is accepted and
answered as any other (R39, R222): the answer is the one every state with that request in flight gives.
That reset is released and nothing has been presented is the model's choice (log 2, log 3), and so is the
count of two steps from the request presented to its answer (log 1). -/
def Obligations.FirstRequestAfterResetIsAnsweredAsAnyOther : Prop :=
  State.reset.inflight = none
    ∧ ∀ q : Request, ∃ r : Response,
      Host.Core.run Sys2Proof.core 2 (State.reset.present q)
          = .next { State.reset with delivered := [r] }
      ∧ ∀ s : State, s.resetLine = false → s.inflight = some q →
        step s = .next { s with inflight := none, delivered := r :: s.delivered }

/-- Every step keeps the invariant that the responses delivered have a code from 0 to 4, and 0 in every
data output when the code is not 0 (R201, R202), from every state that has it. -/
def Obligations.StepKeepsDeliveredResponsesWellFormed : Prop :=
  ∀ s t : State, s.inv = true → step s = .next t → t.inv = true

/-- The invariant holds at reset. It does so because no response stands delivered in `State.reset`, which is
the model's choice (log 2): the spec says nothing of delivered responses at reset. -/
def Obligations.ResetHasTheResponseInvariant : Prop := State.reset.inv = true

/-- R20, R45: the response to a request is a function of that request's fields alone. One function of a
request gives every response of every run: for any sequence of requests, whatever was delivered before,
response k is its value at request k, in the order presented. The count of two steps a request is the
model's choice (log 1), and so is the queue the requests stand in (log 2). -/
def Obligations.ResponsesDependOnTheirRequestAlone : Prop :=
  ∃ f : Request → Response, ∀ s : State, s.resetLine = false → s.inflight = none →
    Host.Core.run Sys2Proof.core (2 * s.hostQueue.length) s
      = .next { s with
          hostQueue := []
          delivered := (s.hostQueue.map f).reverse ++ s.delivered }

/-- R24, R33, R60: a field or a slot that an operation does not read has no effect on the response, inside
and outside the defined domains. It ranges over every term of `Instr`; what it says of a term outside R53 and
R54, which no word decodes to, is the model's choice (log 13). -/
def Obligations.UnreadFieldsHaveNoEffect : Prop :=
  ∀ (i : Instr) (q q' : Request), agreeOnReads i q q' →
    ∃ r : Response, Answers i q r ∧ Answers i q' r

/-- R25, R60: every slot of the main result, and the second result and single bit, that an operation does
not write are 0. -/
def Obligations.UnwrittenFieldsAreZero : Prop :=
  ∀ (i : Instr) (q : Request), i.wellFormed = true →
    ∃ r : Response, Answers i q r ∧ restIsZero i r

/-! ## Number formats -/

/-- R16: `wide(p, N)` is the sum of the limbs by weight, and `towide(v, N)` holds limb i of v in slot i and
0 above. -/
def Obligations.WideValueIsTheLimbSum : Prop :=
  (∀ (p : Port) (n : Nat),
    wide p n = ∑ i ∈ Finset.range n, (slot p i).toNat * 2 ^ (128 * i))
  ∧ ∀ n v i : Nat, n ≤ 32 → v < 2 ^ (128 * n) → i < 32 →
    slot (portOf (limbsOf n v)) i
      = if i < n then BitVec.ofNat 128 (v / 2 ^ (128 * i) % 2 ^ 128) else 0

/-- R13: sign, magnitude, value and validity of a PackedDecimal, by its nibbles. The value of a word
whose sign nibble is no sign code is left open by the spec and not stated here. -/
def Obligations.PackedDecimalValueByNibbles : Prop :=
  ∀ x : Limb,
    mag x = ∑ k ∈ Finset.range 31, (nib x (k + 1)).toNat * 10 ^ k
    ∧ (nib x 0 ∈ [0xA#4, 0xC#4, 0xE#4, 0xF#4] → sgn x = 1)
    ∧ (nib x 0 ∈ [0xB#4, 0xD#4] → sgn x = -1)
    ∧ (isSign (nib x 0) = true → val x = sgn x * mag x)
    ∧ (pdValid x = true ↔
      0xA ≤ (nib x 0).toNat ∧ ∀ k, 1 ≤ k → k ≤ 31 → (nib x k).toNat ≤ 9)

/-- R14: every nibble of the canonical encoding of v with |v| < 10^31. -/
def Obligations.CanonicalEncodingByNibbles : Prop :=
  ∀ v : Int, v.natAbs < 10 ^ 31 →
    (∀ k, 1 ≤ k → k ≤ 31 → (nib (enc v) k).toNat = v.natAbs / 10 ^ (k - 1) % 10)
    ∧ nib (enc v) 0 = if 0 ≤ v then 0xC else 0xD

/-- The canonical encoding is valid, has the value it encodes, and is the only valid preferred encoding of
it (R13, R14): a valid word with a preferred sign that is no negative zero is the encoding of its value. -/
def Obligations.CanonicalEncodingIsInverseToValue : Prop :=
  (∀ v : Int, v.natAbs < 10 ^ 31 → pdValid (enc v) = true ∧ val (enc v) = v)
  ∧ ∀ x : Limb, pdValid x = true → (nib x 0 = 0xC ∨ (nib x 0 = 0xD ∧ mag x ≠ 0)) → enc (val x) = x

/-- R15: magnitude, validity and encoding of an UnsignedPackedDecimal, by its nibbles. -/
def Obligations.UnsignedDecimalByNibbles : Prop :=
  (∀ x : Limb,
    umag x = ∑ k ∈ Finset.range 32, (nib x k).toNat * 10 ^ k
    ∧ (updValid x = true ↔ ∀ k, k ≤ 31 → (nib x k).toNat ≤ 9))
  ∧ ∀ v : Nat, v < 10 ^ 32 → ∀ k, k ≤ 31 → (nib (uenc v) k).toNat = v / 10 ^ k % 10

/-! ## Limb primitives -/

/-- R71, R72: ADDC and ADDE, the sum modulo 2^128 and its carry. -/
def Obligations.AddLimbsGivesSumAndCarry : Prop :=
  encode .addc = 0x00000010#32 ∧ encode .adde = 0x00000011#32
  ∧ ∀ q : Request,
    Answers .addc q (performed (((slot q.a 0).toNat + (slot q.b 0).toNat) % 2 ^ 128)
      (t := decide (((slot q.a 0).toNat + (slot q.b 0).toNat) / 2 ^ 128 = 1)))
    ∧ Answers .adde q
      (performed (((slot q.a 0).toNat + (slot q.b 0).toNat + q.c.toNat % 2) % 2 ^ 128)
        (t := decide (((slot q.a 0).toNat + (slot q.b 0).toNat + q.c.toNat % 2) / 2 ^ 128 = 1)))

/-- R73, R74: SUBC and SUBE, the difference modulo 2^128 on the path a + ~b + cin; the carry is 1 exactly
when there is no borrow. -/
def Obligations.SubtractLimbsGivesDifferenceAndNoBorrow : Prop :=
  encode .subc = 0x00000012#32 ∧ encode .sube = 0x00000013#32
  ∧ ∀ q : Request,
    Answers .subc q
      (performed (((slot q.a 0).toNat + (2 ^ 128 - 1 - (slot q.b 0).toNat) + 1) % 2 ^ 128)
        (t := decide ((slot q.b 0).toNat ≤ (slot q.a 0).toNat)))
    ∧ Answers .sube q
      (performed (((slot q.a 0).toNat + (2 ^ 128 - 1 - (slot q.b 0).toNat) + q.c.toNat % 2) % 2 ^ 128)
        (t := decide ((slot q.b 0).toNat + (1 - q.c.toNat % 2) ≤ (slot q.a 0).toNat)))

/-- R75: CMPU, the six conditions of unsigned limbs; a condition code above 5 is an illegal immediate. -/
def Obligations.CompareLimbsIsUnsigned : Prop :=
  (∀ q : Request,
    Answers (.cmpu .eq) q (performed 0 (t := decide ((slot q.a 0).toNat = (slot q.b 0).toNat)))
    ∧ Answers (.cmpu .ne) q (performed 0 (t := decide ((slot q.a 0).toNat ≠ (slot q.b 0).toNat)))
    ∧ Answers (.cmpu .lt) q (performed 0 (t := decide ((slot q.a 0).toNat < (slot q.b 0).toNat)))
    ∧ Answers (.cmpu .le) q (performed 0 (t := decide ((slot q.a 0).toNat ≤ (slot q.b 0).toNat)))
    ∧ Answers (.cmpu .gt) q (performed 0 (t := decide ((slot q.b 0).toNat < (slot q.a 0).toNat)))
    ∧ Answers (.cmpu .ge) q (performed 0 (t := decide ((slot q.b 0).toNat ≤ (slot q.a 0).toNat))))
  ∧ [Cond.eq, .ne, .lt, .le, .gt, .ge].map (fun c => encode (.cmpu c))
      = [0x014#32, 0x114#32, 0x214#32, 0x314#32, 0x414#32, 0x514#32]
  ∧ ∀ n : Nat, 5 < n → n < 256 →
    decode (BitVec.ofNat 32 (0x14 + 2 ^ 8 * n)) = .error .illegalImmediate

/-- R78, R79, R80: SLI, SRI and SRAI by 0 to 127 bits; a count above 127 is an illegal immediate. -/
def Obligations.ShiftLimbByConstant : Prop :=
  (∀ (q : Request) (n : Nat), n ≤ 127 →
    Answers (.sli n) q (performed ((slot q.a 0).toNat * 2 ^ n % 2 ^ 128))
    ∧ Answers (.sri n) q (performed ((slot q.a 0).toNat / 2 ^ n))
    ∧ Answers (.srai n) q (performed
      (((if (slot q.a 0).toNat < 2 ^ 127 then ((slot q.a 0).toNat : Int)
          else (slot q.a 0).toNat - 2 ^ 128) / 2 ^ n % 2 ^ 128).toNat))
    ∧ encode (.sli n) = BitVec.ofNat 32 (0x15 + 2 ^ 8 * n)
    ∧ encode (.sri n) = BitVec.ofNat 32 (0x16 + 2 ^ 8 * n)
    ∧ encode (.srai n) = BitVec.ofNat 32 (0x17 + 2 ^ 8 * n))
  ∧ ∀ n : Nat, 127 < n → n < 256 →
    decode (BitVec.ofNat 32 (0x15 + 2 ^ 8 * n)) = .error .illegalImmediate
    ∧ decode (BitVec.ofNat 32 (0x16 + 2 ^ 8 * n)) = .error .illegalImmediate
    ∧ decode (BitVec.ofNat 32 (0x17 + 2 ^ 8 * n)) = .error .illegalImmediate

/-- R77, R81, R82, R83: SLV, SRV and SRAV by the whole of operand b. Up to 127 they answer as the shifts
by that constant; above it they complete with an open value that depends on a and the count alone. -/
def Obligations.ShiftLimbByVariable : Prop :=
  encode .slv = 0x00000018#32 ∧ encode .srv = 0x00000019#32 ∧ encode .srav = 0x0000001A#32
  ∧ (∀ q : Request, (slot q.b 0).toNat ≤ 127 →
    Answers .slv q (performed ((slot q.a 0).toNat * 2 ^ (slot q.b 0).toNat % 2 ^ 128))
    ∧ Answers .srv q (performed ((slot q.a 0).toNat / 2 ^ (slot q.b 0).toNat))
    ∧ Answers .srav q (performed
      (((if (slot q.a 0).toNat < 2 ^ 127 then ((slot q.a 0).toNat : Int)
          else (slot q.a 0).toNat - 2 ^ 128) / 2 ^ (slot q.b 0).toNat % 2 ^ 128).toNat)))
  ∧ ∃ f g h : Limb → Limb → Limb, ∀ q : Request, 127 < (slot q.b 0).toNat →
    Answers .slv q (performed (f (slot q.a 0) (slot q.b 0)).toNat)
    ∧ Answers .srv q (performed (g (slot q.a 0) (slot q.b 0)).toNat)
    ∧ Answers .srav q (performed (h (slot q.a 0) (slot q.b 0)).toNat)

/-- R84, R85: MULW, the exact product in two limbs, and MUL10E, 10·a + d in two limbs for a digit d of at
most 9; above 9 MUL10E completes with open values that depend on a and d alone. -/
def Obligations.MultiplyLimbsIsExact : Prop :=
  encode .mulw = 0x0000001B#32 ∧ encode .mul10e = 0x0000001C#32
  ∧ (∀ q : Request,
    Answers .mulw q (performed ((slot q.a 0).toNat * (slot q.b 0).toNat % 2 ^ 128)
      (s := BitVec.ofNat 128 ((slot q.a 0).toNat * (slot q.b 0).toNat / 2 ^ 128))))
  ∧ (∀ q : Request, (slot q.b 0).toNat ≤ 9 →
    Answers .mul10e q (performed ((10 * (slot q.a 0).toNat + (slot q.b 0).toNat) % 2 ^ 128)
      (s := BitVec.ofNat 128 ((10 * (slot q.a 0).toNat + (slot q.b 0).toNat) / 2 ^ 128))))
  ∧ ∃ f g : Limb → Limb → Limb, ∀ q : Request, 9 < (slot q.b 0).toNat →
    Answers .mul10e q (performed (f (slot q.a 0) (slot q.b 0)).toNat
      (s := g (slot q.a 0) (slot q.b 0)))

/-! ## Wide integer composer -/

/-- R91: WADD.N is the exact sum of two N-limb values: its low N limbs, and the carry out of the top one;
a limb count of 0 or above 32 is an illegal shape. -/
def Obligations.WideAddIsTheExactSum : Prop :=
  (∀ (q : Request) (n : Nat), 1 ≤ n → n ≤ 32 →
    Answers (.wadd n) q (performed ((wide q.a n + wide q.b n) % 2 ^ (128 * n))
      (t := decide ((wide q.a n + wide q.b n) / 2 ^ (128 * n) = 1)))
    ∧ encode (.wadd n) = BitVec.ofNat 32 (0x20 + 2 ^ 16 * n))
  ∧ ∀ n : Nat, n < 256 → (n = 0 ∨ 32 < n) →
    decode (BitVec.ofNat 32 (0x20 + 2 ^ 16 * n)) = .error .illegalShape

/-- R92: WSUB.N is the difference of two N-limb values modulo 2^(128·N); the carry is 1 exactly when
there is no borrow out. -/
def Obligations.WideSubtractIsTheExactDifference : Prop :=
  (∀ (q : Request) (n : Nat), 1 ≤ n → n ≤ 32 →
    Answers (.wsub n) q
      (performed ((((wide q.a n : Int) - wide q.b n) % 2 ^ (128 * n)).toNat)
        (t := decide (wide q.b n ≤ wide q.a n)))
    ∧ encode (.wsub n) = BitVec.ofNat 32 (0x21 + 2 ^ 16 * n))
  ∧ ∀ n : Nat, n < 256 → (n = 0 ∨ 32 < n) →
    decode (BitVec.ofNat 32 (0x21 + 2 ^ 16 * n)) = .error .illegalShape

/-- R93 (c): subtracting what was added gives the first operand back on slots 0 to N − 1, for every N and
all values, carried from one transaction to the next by the host. -/
def Obligations.WideSubtractUndoesWideAdd : Prop :=
  ∀ (n : Nat) (q : Request), 1 ≤ n → n ≤ 32 →
    ∃ r : Response, Answers (.wadd n) q r
      ∧ ∀ q' : Request, (∀ i, i < n → slot q'.a i = slot r.r i) →
        (∀ i, i < n → slot q'.b i = slot q.b i) →
        ∃ r' : Response, Answers (.wsub n) q' r' ∧ ∀ i, i < n → slot r'.r i = slot q.a i

/-- R94: WMUL is the exact product of N and M limbs, in N + M limbs, for the six shapes; no carry, no
second result; a shape code above 5 is an illegal shape. -/
def Obligations.WideMultiplyIsTheExactProduct : Prop :=
  (∀ q : Request,
    Answers (.wmul .m128x128) q (performed (wide q.a 1 * wide q.b 1))
    ∧ Answers (.wmul .m256x256) q (performed (wide q.a 2 * wide q.b 2))
    ∧ Answers (.wmul .m512x128) q (performed (wide q.a 4 * wide q.b 1))
    ∧ Answers (.wmul .m512x512) q (performed (wide q.a 4 * wide q.b 4))
    ∧ Answers (.wmul .m1024x1024) q (performed (wide q.a 8 * wide q.b 8))
    ∧ Answers (.wmul .m2048x2048) q (performed (wide q.a 16 * wide q.b 16)))
  ∧ [MulShape.m128x128, .m256x256, .m512x128, .m512x512, .m1024x1024, .m2048x2048].map
        (fun m => encode (.wmul m))
      = [0x00022#32, 0x10022#32, 0x20022#32, 0x30022#32, 0x40022#32, 0x50022#32]
  ∧ (∀ q : Request, wide q.a 16 * wide q.b 16 < 2 ^ 4096)
  ∧ ∀ n : Nat, 5 < n → n < 256 →
    decode (BitVec.ofNat 32 (0x22 + 2 ^ 16 * n)) = .error .illegalShape

/-- R95, R96, R97: the row and column steps of the block algorithm, for limb sequences of any lengths, give
the N + M limbs of the exact product: a row is A times one limb, and no carry is lost; and the products of
512-bit blocks, summed by column with the carry passed to the next column, give the 512-bit columns of the
exact product and no carry out, with four blocks an operand for 2048 bits and two for 1024 bits. -/
def Obligations.BlockAlgorithmGivesTheProduct : Prop :=
  (∀ (as : List Limb) (b : Limb),
    (rowMul as b 0).length = as.length + 1
    ∧ limbsVal (rowMul as b 0) = limbsVal as * b.toNat)
  ∧ (∀ as bs : List Limb,
    (blockMul as bs).length = as.length + bs.length
    ∧ limbsVal (blockMul as bs) = limbsVal as * limbsVal bs)
  ∧ (∀ a b : Nat, a < 2 ^ 2048 → b < 2 ^ 2048 →
    (blockProducts 4 a b).1.length = 8 ∧ (∀ x ∈ (blockProducts 4 a b).1, x < 2 ^ 512)
    ∧ blocksVal (blockProducts 4 a b).1 = a * b ∧ (blockProducts 4 a b).2 = 0)
  ∧ ∀ a b : Nat, a < 2 ^ 1024 → b < 2 ^ 1024 →
    (blockProducts 2 a b).1.length = 4 ∧ (∀ x ∈ (blockProducts 2 a b).1, x < 2 ^ 512)
    ∧ blocksVal (blockProducts 2 a b).1 = a * b ∧ (blockProducts 2 a b).2 = 0

/-! ## Constant-divisor engine -/

/-- R106: DIVC, the exact quotient and remainder of a limb by 10^16, 10^31 or 10^32; a divisor code above
2 is an illegal shape. -/
def Obligations.DivideLimbByConstant : Prop :=
  (∀ q : Request,
    Answers (.divc .e16) q (performed ((slot q.a 0).toNat / 10 ^ 16)
      (s := BitVec.ofNat 128 ((slot q.a 0).toNat % 10 ^ 16)))
    ∧ Answers (.divc .e31) q (performed ((slot q.a 0).toNat / 10 ^ 31)
      (s := BitVec.ofNat 128 ((slot q.a 0).toNat % 10 ^ 31)))
    ∧ Answers (.divc .e32) q (performed ((slot q.a 0).toNat / 10 ^ 32)
      (s := BitVec.ofNat 128 ((slot q.a 0).toNat % 10 ^ 32))))
  ∧ [Divisor.e16, .e31, .e32].map (fun d => encode (.divc d)) = [0x00030#32, 0x10030#32, 0x20030#32]
  ∧ ∀ n : Nat, 2 < n → n < 256 →
    decode (BitVec.ofNat 32 (0x30 + 2 ^ 16 * n)) = .error .illegalShape

/-- R109: DIVDC, the exact quotient and remainder of a two-limb dividend whose high limb is below the
divisor; otherwise open values that depend on hi, lo and the divisor alone. Divisor code 0 and codes
above 2 are illegal shapes. -/
def Obligations.DivideTwoLimbsByConstant : Prop :=
  (∀ q : Request, (slot q.a 1).toNat < 10 ^ 31 →
    Answers (.divdc .e31) q
      (performed (((slot q.a 1).toNat * 2 ^ 128 + (slot q.a 0).toNat) / 10 ^ 31)
        (s := BitVec.ofNat 128 (((slot q.a 1).toNat * 2 ^ 128 + (slot q.a 0).toNat) % 10 ^ 31))))
  ∧ (∀ q : Request, (slot q.a 1).toNat < 10 ^ 32 →
    Answers (.divdc .e32) q
      (performed (((slot q.a 1).toNat * 2 ^ 128 + (slot q.a 0).toNat) / 10 ^ 32)
        (s := BitVec.ofNat 128 (((slot q.a 1).toNat * 2 ^ 128 + (slot q.a 0).toNat) % 10 ^ 32))))
  ∧ (∃ f g : Limb → Limb → Divisor → Limb,
    (∀ q : Request, 10 ^ 31 ≤ (slot q.a 1).toNat →
      Answers (.divdc .e31) q (performed (f (slot q.a 1) (slot q.a 0) .e31).toNat
        (s := g (slot q.a 1) (slot q.a 0) .e31)))
    ∧ ∀ q : Request, 10 ^ 32 ≤ (slot q.a 1).toNat →
      Answers (.divdc .e32) q (performed (f (slot q.a 1) (slot q.a 0) .e32).toNat
        (s := g (slot q.a 1) (slot q.a 0) .e32)))
  ∧ encode (.divdc .e31) = 0x00010031#32 ∧ encode (.divdc .e32) = 0x00020031#32
  ∧ ∀ n : Nat, n < 256 → (n = 0 ∨ 2 < n) →
    decode (BitVec.ofNat 32 (0x31 + 2 ^ 16 * n)) = .error .illegalShape

/-- R107, R108, R112, R113: multiplication by the magic constants, with the corrective half-add for 10^31
and 10^32, and the remainder multiplied back, gives the exact quotient and remainder of every limb. -/
def Obligations.MagicNumberDivisionIsExact : Prop :=
  (magic .e16).1.toNat = (2 ^ 179 + 10 ^ 16 - 1) / 10 ^ 16
  ∧ 2 ^ 128 + (magic .e31).1.toNat = (2 ^ 231 + 10 ^ 31 - 1) / 10 ^ 31
  ∧ 2 ^ 128 + (magic .e32).1.toNat = (2 ^ 235 + 10 ^ 32 - 1) / 10 ^ 32
  ∧ ∀ (d : Divisor) (x : Limb),
    (magicQuotient d x).toNat = x.toNat / divisorValue d
    ∧ (magicDivide d x).1.toNat = x.toNat / divisorValue d
    ∧ (magicDivide d x).2.toNat = x.toNat % divisorValue d

/-- R111: for a high limb below the divisor, the estimate of the two-limb quotient, lowered by one exactly
when the difference shows it, with the divisor added back, gives the exact quotient and remainder. -/
def Obligations.EstimateAndCorrectDivisionIsExact : Prop :=
  ∀ (d : Divisor) (hi lo : Limb), d ≠ .e16 → hi.toNat < divisorValue d →
    (estimateDivide d hi lo).1.toNat = (hi.toNat * 2 ^ 128 + lo.toNat) / divisorValue d
    ∧ (estimateDivide d hi lo).2.toNat = (hi.toNat * 2 ^ 128 + lo.toNat) % divisorValue d

/-! ## BCD digit-string arithmetic -/

/-- R122 to R125: BCDADD, BCDSUB, BCDADDE and BCDSUBE of valid operands give the sign of the true sum over
the low 31 digits of its magnitude, +0 when those are all zero; the carry-in is added in both
three-operand forms. With an invalid operand, or a carry-in outside −1, 0, +1, they complete with an open
value of their operands alone. -/
def Obligations.DecimalAddSubtractModulo : Prop :=
  encode .bcdadd = 0x40#32 ∧ encode .bcdsub = 0x41#32 ∧ encode .bcdadde = 0x44#32
  ∧ encode .bcdsube = 0x45#32
  ∧ (∀ (q : Request) (a b : Limb), a = slot q.a 0 → b = slot q.b 0 →
    pdValid a = true → pdValid b = true →
    Answers .bcdadd q (performed
      (enc (signOf (val a + val b) * ((val a + val b).natAbs % 10 ^ 31))).toNat)
    ∧ Answers .bcdsub q (performed
      (enc (signOf (val a - val b) * ((val a - val b).natAbs % 10 ^ 31))).toNat)
    ∧ (pdValid q.c = true → mag q.c ≤ 1 →
      Answers .bcdadde q (performed
        (enc (signOf (val a + val b + val q.c) * ((val a + val b + val q.c).natAbs % 10 ^ 31))).toNat)
      ∧ Answers .bcdsube q (performed
        (enc (signOf (val a - val b + val q.c) * ((val a - val b + val q.c).natAbs % 10 ^ 31))).toNat)))
  ∧ ∃ (f g : Limb → Limb → Limb) (f' g' : Limb → Limb → Limb → Limb), ∀ q : Request,
    ((pdValid (slot q.a 0) && pdValid (slot q.b 0)) = false →
      Answers .bcdadd q (performed (f (slot q.a 0) (slot q.b 0)).toNat)
      ∧ Answers .bcdsub q (performed (g (slot q.a 0) (slot q.b 0)).toNat))
    ∧ ((pdValid (slot q.a 0) && pdValid (slot q.b 0) && pdValid q.c && decide (mag q.c ≤ 1)) = false →
      Answers .bcdadde q (performed (f' (slot q.a 0) (slot q.b 0) q.c).toNat)
      ∧ Answers .bcdsube q (performed (g' (slot q.a 0) (slot q.b 0) q.c).toNat))

/-- R126, R127, R129, R130: BCDADDC, BCDSUBC, BCDADDEC and BCDSUBEC of valid operands give the element and
the decimal carry of the three branches of `cdc` for their true sums, the carry times 10^31 plus the element
being the sum in every case. With an invalid operand, or a carry-in outside −1, 0, +1, they complete with
open values of their operands alone. -/
def Obligations.DecimalCarryDetectByBranches : Prop :=
  encode .bcdaddc = 0x42#32 ∧ encode .bcdsubc = 0x43#32 ∧ encode .bcdaddec = 0x46#32
  ∧ encode .bcdsubec = 0x47#32
  ∧ (∀ (q : Request) (a b : Limb), a = slot q.a 0 → b = slot q.b 0 →
    pdValid a = true → pdValid b = true →
    CarryDetectAnswers .bcdaddc q a (val a + val b)
    ∧ CarryDetectAnswers .bcdsubc q a (val a - val b)
    ∧ (pdValid q.c = true → mag q.c ≤ 1 →
      CarryDetectAnswers .bcdaddec q a (val a + val b + val q.c)
      ∧ CarryDetectAnswers .bcdsubec q a (val a - val b + val q.c)))
  ∧ ∃ (f g : Instr → Limb → Limb → Limb → Limb), ∀ q : Request,
    ((pdValid (slot q.a 0) && pdValid (slot q.b 0)) = false → ∀ i ∈ [Instr.bcdaddc, .bcdsubc],
      Answers i q (performed (f i (slot q.a 0) (slot q.b 0) 0).toNat
        (s := g i (slot q.a 0) (slot q.b 0) 0)))
    ∧ ((pdValid (slot q.a 0) && pdValid (slot q.b 0) && pdValid q.c && decide (mag q.c ≤ 1)) = false →
      ∀ i ∈ [Instr.bcdaddec, .bcdsubec],
      Answers i q (performed (f i (slot q.a 0) (slot q.b 0) q.c).toNat
        (s := g i (slot q.a 0) (slot q.b 0) q.c)))

/-- R131 (a), (b), (c) of the carry-detect operations: carry times 10^31 plus element is the true sum; the
carry is +1, +0 or −1 and the element is canonical; the element is zero or has the sign of the first
operand's sign nibble, or, when the sum overflowed, the sign of the sum. -/
def Obligations.DecimalCarryDetectKeepsTheValue : Prop :=
  ∀ q : Request, pdValid (slot q.a 0) = true → pdValid (slot q.b 0) = true →
    pdValid q.c = true → mag q.c ≤ 1 →
    ∀ (i : Instr) (t : Int),
      (i, t) ∈ [(Instr.bcdaddc, val (slot q.a 0) + val (slot q.b 0)),
        (.bcdsubc, val (slot q.a 0) - val (slot q.b 0)),
        (.bcdaddec, val (slot q.a 0) + val (slot q.b 0) + val q.c),
        (.bcdsubec, val (slot q.a 0) - val (slot q.b 0) + val q.c)] →
      ∃ r : Response, Answers i q r
        ∧ val r.s * 10 ^ 31 + val (slot r.r 0) = t
        ∧ r.s ∈ [enc 1, enc 0, enc (-1)]
        ∧ pdValid (slot r.r 0) = true ∧ enc (val (slot r.r 0)) = slot r.r 0
        ∧ (t.natAbs < 10 ^ 31 → val (slot r.r 0) = 0 ∨ signOf (val (slot r.r 0)) = sgn (slot q.a 0))
        ∧ (10 ^ 31 ≤ t.natAbs → val (slot r.r 0) = 0 ∨ signOf (val (slot r.r 0)) = signOf t)

/-- Every arithmetic decimal operation that returns a PackedDecimal returns canonical words for valid operands:
a preferred sign code and no negative zero, in every slot of the main result it writes and in the second
result where it has one (R120, R145 (b), R185, R194 (e)). The hypotheses are on what the operation reads.
BCDCMP, the one arithmetic operation left, returns a bit and no decimal. -/
def Obligations.ArithmeticDecimalResultsAreCanonical : Prop :=
  ∀ q : Request,
    (pdValid (slot q.a 0) = true → pdValid (slot q.b 0) = true →
      ∀ i ∈ [Instr.bcdadd, .bcdsub, .bcdaddc, .bcdsubc, .bcdmull, .bcdmulh, .bcdmulf],
        AnswersCanonically i q)
    ∧ (pdValid (slot q.a 0) = true → pdValid (slot q.b 0) = true → pdValid q.c = true → mag q.c ≤ 1 →
      ∀ i ∈ [Instr.bcdadde, .bcdsube, .bcdaddec, .bcdsubec], AnswersCanonically i q)
    ∧ (pdValid (slot q.a 0) = true → pdValid (slot q.b 0) = true → mag (slot q.b 0) ≠ 0 →
      AnswersCanonically .bcddiv q)
    ∧ (∀ n, n ≤ 31 → pdValid (slot q.a 0) = true → AnswersCanonically (.bcdsrr n) q)
    ∧ ∀ n, 1 ≤ n → n ≤ 32 →
      (∀ j, j < n → pdValid (slot q.a j) = true ∧ pdValid (slot q.b j) = true) →
      AnswersCanonically (.wbcdadd n) q ∧ AnswersCanonically (.wbcdsub n) q

/-- R133: BCDCMP compares values, so that +0 and −0 are equal and the sign code does not matter; a
condition code above 5 is an illegal immediate; an invalid operand gives an open bit that depends on the
operands and the condition alone. -/
def Obligations.DecimalCompareIsOfValues : Prop :=
  (∀ (q : Request) (x y : Int), x = val (slot q.a 0) → y = val (slot q.b 0) →
    pdValid (slot q.a 0) = true → pdValid (slot q.b 0) = true →
    Answers (.bcdcmp .eq) q (performed 0 (t := decide (x = y)))
    ∧ Answers (.bcdcmp .ne) q (performed 0 (t := decide (x ≠ y)))
    ∧ Answers (.bcdcmp .lt) q (performed 0 (t := decide (x < y)))
    ∧ Answers (.bcdcmp .le) q (performed 0 (t := decide (x ≤ y)))
    ∧ Answers (.bcdcmp .gt) q (performed 0 (t := decide (y < x)))
    ∧ Answers (.bcdcmp .ge) q (performed 0 (t := decide (y ≤ x))))
  ∧ [Cond.eq, .ne, .lt, .le, .gt, .ge].map (fun c => encode (.bcdcmp c))
      = [0x048#32, 0x148#32, 0x248#32, 0x348#32, 0x448#32, 0x548#32]
  ∧ (∃ f : Cond → Limb → Limb → Bool, ∀ (c : Cond) (q : Request),
    (pdValid (slot q.a 0) && pdValid (slot q.b 0)) = false →
    Answers (.bcdcmp c) q (performed 0 (t := f c (slot q.a 0) (slot q.b 0))))
  ∧ ∀ n : Nat, 5 < n → n < 256 →
    decode (BitVec.ofNat 32 (0x48 + 2 ^ 8 * n)) = .error .illegalImmediate

/-- BCDCPSGN and BCDSETSGN (R134, R135), total on all bit patterns, with `P_FIELDOP_NORM` at 0, the
spec's default, which the model takes (log 7): the digits of a under the sign nibble of b; and the digits
of a under the preferred code of its sign class, a nibble that is no sign code left as it is. -/
def Obligations.SignOperationsChangeTheSignNibbleOnly : Prop :=
  encode .bcdcpsgn = 0x49#32 ∧ encode .bcdsetsgn = 0x4A#32
  ∧ ∀ q : Request,
    Answers .bcdcpsgn q
      (performed ((slot q.a 0).toNat / 16 * 16 + (slot q.b 0).toNat % 16))
    ∧ Answers .bcdsetsgn q
      (performed ((slot q.a 0).toNat / 16 * 16 +
        (if (slot q.a 0).toNat % 16 ∈ [0xA, 0xC, 0xE, 0xF] then 0xC
         else if (slot q.a 0).toNat % 16 ∈ [0xB, 0xD] then 0xD
         else (slot q.a 0).toNat % 16)))

/-- BCDSL, BCDSR and BCDTRUNC (R136, R137, R139), total on all bit patterns, with `P_FIELDOP_NORM` at 0,
the spec's default, which the model takes (log 7): the 124 magnitude bits shifted by n digits under the
same sign nibble, and the sign nibble with the K low digits. A count above 31 is an illegal immediate. -/
def Obligations.DigitShiftsKeepTheSignNibble : Prop :=
  (∀ (q : Request) (n : Nat), n ≤ 31 →
    Answers (.bcdsl n) q
      (performed ((slot q.a 0).toNat / 16 * 2 ^ (4 * n) % 2 ^ 124 * 16 + (slot q.a 0).toNat % 16))
    ∧ Answers (.bcdsr n) q
      (performed ((slot q.a 0).toNat / 16 / 2 ^ (4 * n) * 16 + (slot q.a 0).toNat % 16))
    ∧ Answers (.bcdtrunc n) q (performed ((slot q.a 0).toNat % 2 ^ (4 * (n + 1))))
    ∧ encode (.bcdsl n) = BitVec.ofNat 32 (0x4B + 2 ^ 8 * n)
    ∧ encode (.bcdsr n) = BitVec.ofNat 32 (0x4C + 2 ^ 8 * n)
    ∧ encode (.bcdtrunc n) = BitVec.ofNat 32 (0x4E + 2 ^ 8 * n))
  ∧ ∀ n : Nat, 31 < n → n < 256 →
    decode (BitVec.ofNat 32 (0x4B + 2 ^ 8 * n)) = .error .illegalImmediate
    ∧ decode (BitVec.ofNat 32 (0x4C + 2 ^ 8 * n)) = .error .illegalImmediate
    ∧ decode (BitVec.ofNat 32 (0x4E + 2 ^ 8 * n)) = .error .illegalImmediate

/-- R138: BCDSRR of a valid operand divides the magnitude by 10^n and adds one when the last digit shifted
out is at least 5, under the operand's sign, canonically encoded; count 0 normalises; an invalid operand
gives an open value; a count above 31 is an illegal immediate. -/
def Obligations.RoundedDigitShift : Prop :=
  (∀ (q : Request) (n : Nat) (a : Limb), a = slot q.a 0 → n ≤ 31 → pdValid a = true →
    (n = 0 → Answers (.bcdsrr n) q (performed (enc (val a)).toNat))
    ∧ (1 ≤ n → Answers (.bcdsrr n) q
      (performed (enc (sgn a * ((mag a / 10 ^ n + ((nib a n).toNat + 5) / 10 : Nat) : Int))).toNat))
    ∧ encode (.bcdsrr n) = BitVec.ofNat 32 (0x4D + 2 ^ 8 * n))
  ∧ (∃ f : Limb → Nat → Limb, ∀ (q : Request) (n : Nat), n ≤ 31 →
    pdValid (slot q.a 0) = false → Answers (.bcdsrr n) q (performed (f (slot q.a 0) n).toNat))
  ∧ ∀ n : Nat, 31 < n → n < 256 →
    decode (BitVec.ofNat 32 (0x4D + 2 ^ 8 * n)) = .error .illegalImmediate

/-- R140, R141: BCDUTRUNC keeps the K low nibbles; BCDVALID tests the nibbles of the format. -/
def Obligations.UnsignedTruncateAndValidity : Prop :=
  (∀ (q : Request) (k : Nat), k ≤ 32 →
    Answers (.bcdutrunc k) q (performed ((slot q.a 0).toNat % 2 ^ (4 * k)))
    ∧ (updValid (slot q.a 0) = true →
      umag (BitVec.ofNat 128 ((slot q.a 0).toNat % 2 ^ (4 * k))) = umag (slot q.a 0) % 10 ^ k)
    ∧ encode (.bcdutrunc k) = BitVec.ofNat 32 (0x4F + 2 ^ 8 * k))
  ∧ (∀ k : Nat, 32 < k → k < 256 →
    decode (BitVec.ofNat 32 (0x4F + 2 ^ 8 * k)) = .error .illegalImmediate)
  ∧ (∀ q : Request,
    Answers (.bcdvalid .packed) q (performed 0 (t := decide (0xA ≤ (slot q.a 0).toNat % 16
      ∧ ∀ k ∈ List.range 31, (slot q.a 0).toNat / 16 ^ (k + 1) % 16 ≤ 9)))
    ∧ Answers (.bcdvalid .unsigned) q (performed 0 (t := decide
      (∀ k ∈ List.range 32, (slot q.a 0).toNat / 16 ^ k % 16 ≤ 9))))
  ∧ encode (.bcdvalid .packed) = 0x00000050#32 ∧ encode (.bcdvalid .unsigned) = 0x00010050#32
  ∧ ∀ n : Nat, 1 < n → n < 256 →
    decode (BitVec.ofNat 32 (0x50 + 2 ^ 16 * n)) = .error .illegalShape

/-- R142, R143: WBCDADD.N and WBCDSUB.N are N steps of BCDADDEC and BCDSUBEC, lowest-order element (the
highest slot) first, from carry +0, each step taking the carry of the one below; an invalid element gives
open values of the elements alone (R17, R24; that the arguments the spec writes as dots are the elements read
is log 12, DEDUCED); an element count of 0 or above 32 is an illegal shape. -/
def Obligations.DecimalChainIsElementSteps : Prop :=
  (∀ (w e : Instr) (n : Nat) (q : Request), 1 ≤ n → n ≤ 32 →
    (w, e) ∈ [(Instr.wbcdadd n, Instr.bcdaddec), (.wbcdsub n, .bcdsubec)] →
    (∀ j, j < n → pdValid (slot q.a j) = true ∧ pdValid (slot q.b j) = true) →
    ∃ (r : Response) (carry : Nat → Limb), Answers w q r
      ∧ carry n = enc 0 ∧ r.s = carry 0 ∧ r.t = false
      ∧ (∀ j, n ≤ j → j < 32 → slot r.r j = 0)
      ∧ ∀ j, j < n → ∀ q' : Request,
        slot q'.a 0 = slot q.a j → slot q'.b 0 = slot q.b j → q'.c = carry (j + 1) →
        Answers e q' (performed (slot r.r j).toNat (s := carry j)))
  ∧ (∃ f : Instr → List Limb → List Limb → List Limb × Limb, ∀ (n : Nat) (q : Request), n ≤ 32 →
    (∃ j, j < n ∧ (pdValid (slot q.a j) && pdValid (slot q.b j)) = false) →
    ∀ w ∈ [Instr.wbcdadd n, .wbcdsub n],
      (f w (slots q.a n) (slots q.b n)).1.length = n
      ∧ Answers w q (performed (limbsVal (f w (slots q.a n) (slots q.b n)).1)
        (s := (f w (slots q.a n) (slots q.b n)).2)))
  ∧ (∀ n : Nat, 1 ≤ n → n ≤ 32 →
    encode (.wbcdadd n) = BitVec.ofNat 32 (0x51 + 2 ^ 16 * n)
    ∧ encode (.wbcdsub n) = BitVec.ofNat 32 (0x52 + 2 ^ 16 * n))
  ∧ ∀ n : Nat, n < 256 → (n = 0 ∨ 32 < n) →
    decode (BitVec.ofNat 32 (0x51 + 2 ^ 16 * n)) = .error .illegalShape
    ∧ decode (BitVec.ofNat 32 (0x52 + 2 ^ 16 * n)) = .error .illegalShape

/-- R144 (a), (b), (c) of the multi-limb decimal chains, with W the true sum or difference: the carry
times 10^(31·N) plus the value of the result is W; every result element is canonical and the carry is a
unit carry; and when every element of A has one sign class σ, every result element is zero or of that
sign, the carry is 0 or σ when σ·W ≥ 0, 0 when moreover |W| < 10^(31·N), and −σ when σ·W < 0. -/
def Obligations.DecimalChainKeepsTheValue : Prop :=
  ∀ (w : Instr) (op : Int) (n : Nat) (q : Request) (W : Int), 1 ≤ n → n ≤ 32 →
    (w, op) ∈ [(Instr.wbcdadd n, 1), (.wbcdsub n, -1)] →
    (∀ j, j < n → pdValid (slot q.a j) = true ∧ pdValid (slot q.b j) = true) →
    W = ∑ j ∈ Finset.range n, val (slot q.a j) * 10 ^ (31 * (n - 1 - j))
        + op * ∑ j ∈ Finset.range n, val (slot q.b j) * 10 ^ (31 * (n - 1 - j)) →
    ∃ r : Response, Answers w q r
      ∧ val r.s * 10 ^ (31 * n)
          + ∑ j ∈ Finset.range n, val (slot r.r j) * 10 ^ (31 * (n - 1 - j)) = W
      ∧ r.s ∈ [enc 1, enc 0, enc (-1)]
      ∧ (∀ j, j < n → pdValid (slot r.r j) = true ∧ enc (val (slot r.r j)) = slot r.r j)
      ∧ ∀ σ : Int, (∀ j, j < n → sgn (slot q.a j) = σ) →
        (∀ j, j < n → val (slot r.r j) = 0 ∨ signOf (val (slot r.r j)) = σ)
        ∧ (0 ≤ σ * W → val r.s = 0 ∨ val r.s = σ)
        ∧ (0 ≤ σ * W → W.natAbs < 10 ^ (31 * n) → val r.s = 0)
        ∧ (σ * W < 0 → val r.s = -σ)

/-! ## Radix converter -/

/-- R162, R165: CVB2D gives the 32 decimal digits of a limb below 10^32, CVD2B the value of 32 decimal
digits; outside, both complete with an open value of the operand alone. -/
def Obligations.OneLimbConversions : Prop :=
  encode .cvb2d = 0x00000060#32 ∧ encode .cvd2b = 0x00000061#32
  ∧ (∀ q : Request, (slot q.a 0).toNat < 10 ^ 32 →
    ∃ x : Limb, Answers .cvb2d q (performed x.toNat)
      ∧ ∀ k, k ≤ 31 → (nib x k).toNat = (slot q.a 0).toNat / 10 ^ k % 10)
  ∧ (∃ f : Limb → Limb, ∀ q : Request, 10 ^ 32 ≤ (slot q.a 0).toNat →
    Answers .cvb2d q (performed (f (slot q.a 0)).toNat))
  ∧ (∀ q : Request, (∀ k, k ≤ 31 → (nib (slot q.a 0) k).toNat ≤ 9) →
    Answers .cvd2b q (performed (∑ k ∈ Finset.range 32, (nib (slot q.a 0) k).toNat * 10 ^ k)))
  ∧ ∃ f : Limb → Limb, ∀ q : Request, ¬ (∀ k, k ≤ 31 → (nib (slot q.a 0) k).toNat ≤ 9) →
    Answers .cvd2b q (performed (f (slot q.a 0)).toNat)

/-- R175 (a), (b): the one-limb conversions undo each other on their domains, carried from one
transaction to the next by the host. -/
def Obligations.OneLimbConversionsAreInverse : Prop :=
  (∀ q : Request, (slot q.a 0).toNat < 10 ^ 32 →
    ∃ r : Response, Answers .cvb2d q r
      ∧ ∀ q' : Request, slot q'.a 0 = slot r.r 0 →
        Answers .cvd2b q' (performed (slot q.a 0).toNat))
  ∧ ∀ q : Request, updValid (slot q.a 0) = true →
    ∃ r : Response, Answers .cvd2b q r
      ∧ ∀ q' : Request, slot q'.a 0 = slot r.r 0 →
        Answers .cvb2d q' (performed (slot q.a 0).toNat)

/-- R161, R163, R164, R166: the five stages of splitting give the 32 digits of a number below 10^32, and
the five stages of combining give back the number of 32 digits. -/
def Obligations.RadixPipelinesGiveTheConversions : Prop :=
  (∀ v : Nat, v < 10 ^ 32 → splitPipeline v = (uenc v).toNat)
  ∧ (∀ x : Limb, updValid x = true → joinPipeline x.toNat = umag x)
  ∧ (∀ f r b : Nat, r ≤ 2 ^ b → f < r ^ 2 → splitField f r b = f / r * 2 ^ b + f % r)
  ∧ ∀ h l r b : Nat, h < r → l < r → r ≤ 2 ^ b → joinField (h * 2 ^ b + l) r b = h * r + l

/-- CVZ2D (R168), with `P_FIELDOP_NORM` at 0, the spec's default, which the model takes (log 7): the digit
nibble of byte i is digit i, unchecked, nibbles 17 to 31 are 0, and the sign is that of the zone of byte 0
alone, whatever the zone parameters are. -/
def Obligations.ZonedToPackedByNibbles : Prop :=
  encode .cvz2d = 0x00000062#32
  ∧ ∀ q : Request, ∃ x : Limb, Answers .cvz2d q (performed x.toNat)
    ∧ (∀ i, i ≤ 15 → nib x (i + 1) = (slot q.a 0).extractLsb' (8 * i) 4)
    ∧ (∀ k, 17 ≤ k → k ≤ 31 → nib x k = 0)
    ∧ nib x 0 = if Config.zoneIsNeg ((slot q.a 0).extractLsb' 4 4) then 0xD else 0xC

/-- R169: CVD2Z copies sixteen digits under `ZONE_DIGIT`, with the sign zone of the sign nibble's class in
byte 0; a value with a digit above the sixteenth, or without a sign code, gives an open value of the
operand alone. -/
def Obligations.PackedToZonedByNibbles : Prop :=
  encode .cvd2z = 0x00000063#32
  ∧ (∀ q : Request, 0xA ≤ (nib (slot q.a 0) 0).toNat → (slot q.a 0).toNat / 2 ^ 68 = 0 →
    ∃ z : Limb, Answers .cvd2z q (performed z.toNat)
      ∧ (∀ i, i ≤ 15 → z.extractLsb' (8 * i) 4 = nib (slot q.a 0) (i + 1))
      ∧ (∀ i, 1 ≤ i → i ≤ 15 → z.extractLsb' (8 * i + 4) 4 = Config.zoneDigit)
      ∧ z.extractLsb' 4 4
        = if nib (slot q.a 0) 0 ∈ [0xB#4, 0xD#4] then Config.zoneNeg else Config.zonePos)
  ∧ ∃ f : Limb → Limb, ∀ q : Request,
    ((nib (slot q.a 0) 0).toNat < 0xA ∨ (slot q.a 0).toNat / 2 ^ 68 ≠ 0) →
    Answers .cvd2z q (performed (f (slot q.a 0)).toNat)

/-- R167, R169: the zone codes keep the one constraint put on them, so a packed value of at most sixteen
digits comes back from its zoned form with its digits and its sign class, the sign code made preferred
(with `P_FIELDOP_NORM` at the spec's default 0, log 7; the constraint is built into the model's zone
parameters, log 6). -/
def Obligations.ZonedFormComesBack : Prop :=
  Config.zoneIsNeg Config.zoneNeg = true ∧ Config.zoneIsNeg Config.zonePos = false
  ∧ ∀ q : Request, 0xA ≤ (nib (slot q.a 0) 0).toNat → (slot q.a 0).toNat / 2 ^ 68 = 0 →
    ∃ r : Response, Answers .cvd2z q r
      ∧ ∀ q' : Request, slot q'.a 0 = slot r.r 0 →
        Answers .cvz2d q' (performed ((slot q.a 0).toNat / 16 * 16
          + (if nib (slot q.a 0) 0 ∈ [0xB#4, 0xD#4] then 0xD else 0xC)))

/-- R171: LCVB2D.N gives the K_OF(N, C) groups of the base-C expansion, highest-order group in slot 0, each
in its group format, the count a function of the shape alone: the least K with C^K ≥ 2^(128·N), by the
table of the rule. A limb count of 0 or above 16 is an illegal shape, a group format other than 1 and 2 an
illegal immediate. -/
def Obligations.LongBinaryToDecimalExpansion : Prop :=
  (List.range 16).map (fun i => kOf (i + 1) (10 ^ 31))
      = [2, 3, 4, 5, 7, 8, 9, 10, 12, 13, 14, 15, 17, 18, 19, 20]
  ∧ (List.range 16).map (fun i => kOf (i + 1) (10 ^ 32))
      = [2, 3, 4, 5, 7, 8, 9, 10, 11, 13, 14, 15, 16, 17, 19, 20]
  ∧ (∀ (n : Nat) (fmt : Divisor) (q : Request), 1 ≤ n → n ≤ 16 → fmt ≠ .e16 →
    2 ^ (128 * n) ≤ divisorValue fmt ^ kOf n (divisorValue fmt)
    ∧ (∀ k, k < kOf n (divisorValue fmt) → divisorValue fmt ^ k < 2 ^ (128 * n))
    ∧ (∃ r : Response, Answers (.lcvb2d n fmt) q r ∧ r.s = 0 ∧ r.t = false
      ∧ (∀ j, j < kOf n (divisorValue fmt) →
        slot r.r (kOf n (divisorValue fmt) - 1 - j)
          = if fmt = .e31 then enc ((wide q.a n / 10 ^ (31 * j) % 10 ^ 31 : Nat) : Int)
            else uenc (wide q.a n / 10 ^ (32 * j) % 10 ^ 32))
      ∧ ∀ j, kOf n (divisorValue fmt) ≤ j → j < 32 → slot r.r j = 0)
    ∧ encode (.lcvb2d n fmt)
      = BitVec.ofNat 32 (0x64 + 2 ^ 8 * (if fmt = .e31 then 1 else 2) + 2 ^ 16 * n))
  ∧ (∀ n m : Nat, n < 256 → (n = 0 ∨ 16 < n) → m < 256 →
    decode (BitVec.ofNat 32 (0x64 + 2 ^ 8 * m + 2 ^ 16 * n)) = .error .illegalShape)
  ∧ ∀ n m : Nat, 1 ≤ n → n ≤ 16 → m < 256 → (m = 0 ∨ 2 < m) →
    decode (BitVec.ofNat 32 (0x64 + 2 ^ 8 * m + 2 ^ 16 * n)) = .error .illegalImmediate

/-- R173: LCVD2B.K gives the value of K valid groups in N_OF(K, C) limbs, the least count that holds every
K-group value, by the table of the rule; a group outside the domain gives open values of the groups alone
(R17, R24; that the arguments the spec writes as dots are the groups read is log 12, DEDUCED). A group count of 0 or above 32 is an illegal shape, a group format other than 1 and 2 an illegal
immediate. -/
def Obligations.LongDecimalToBinaryValue : Prop :=
  (List.range 32).map (fun i => nOf (i + 1) (10 ^ 31))
      = [1, 2, 3, 4, 5, 5, 6, 7, 8, 9, 9, 10, 11, 12, 13, 13, 14, 15, 16, 17, 17, 18, 19, 20, 21, 21,
        22, 23, 24, 25, 25, 26]
  ∧ (List.range 32).map (fun i => nOf (i + 1) (10 ^ 32))
      = [1, 2, 3, 4, 5, 5, 6, 7, 8, 9, 10, 10, 11, 12, 13, 14, 15, 15, 16, 17, 18, 19, 20, 20, 21, 22,
        23, 24, 25, 25, 26, 27]
  ∧ (∀ (k : Nat) (q : Request), 1 ≤ k → k ≤ 32 →
    (∀ j, j < k → pdValid (slot q.a j) = true ∧ sgn (slot q.a j) = 1) →
    Answers (.lcvd2b k .e31) q
      (performed (∑ j ∈ Finset.range k, mag (slot q.a j) * 10 ^ (31 * (k - 1 - j)))))
  ∧ (∀ (k : Nat) (q : Request), 1 ≤ k → k ≤ 32 → (∀ j, j < k → updValid (slot q.a j) = true) →
    Answers (.lcvd2b k .e32) q
      (performed (∑ j ∈ Finset.range k, umag (slot q.a j) * 10 ^ (32 * (k - 1 - j)))))
  ∧ (∀ (k : Nat) (fmt : Divisor), 1 ≤ k → k ≤ 32 → fmt ≠ .e16 →
    divisorValue fmt ^ k ≤ 2 ^ (128 * nOf k (divisorValue fmt))
    ∧ (∀ n, n < nOf k (divisorValue fmt) → 2 ^ (128 * n) < divisorValue fmt ^ k)
    ∧ encode (.lcvd2b k fmt)
      = BitVec.ofNat 32 (0x65 + 2 ^ 8 * (if fmt = .e31 then 1 else 2) + 2 ^ 16 * k))
  ∧ (∃ f : Divisor → List Limb → Nat, ∀ (k : Nat) (q : Request), 1 ≤ k → k ≤ 32 →
    ((∃ j, j < k ∧ (pdValid (slot q.a j) && decide (sgn (slot q.a j) = 1)) = false) →
      f .e31 (slots q.a k) < 2 ^ (128 * nOf k (10 ^ 31))
      ∧ Answers (.lcvd2b k .e31) q (performed (f .e31 (slots q.a k))))
    ∧ ((∃ j, j < k ∧ updValid (slot q.a j) = false) →
      f .e32 (slots q.a k) < 2 ^ (128 * nOf k (10 ^ 32))
      ∧ Answers (.lcvd2b k .e32) q (performed (f .e32 (slots q.a k)))))
  ∧ (∀ n m : Nat, n < 256 → (n = 0 ∨ 32 < n) → m < 256 →
    decode (BitVec.ofNat 32 (0x65 + 2 ^ 8 * m + 2 ^ 16 * n)) = .error .illegalShape)
  ∧ ∀ n m : Nat, 1 ≤ n → n ≤ 32 → m < 256 → (m = 0 ∨ 2 < m) →
    decode (BitVec.ofNat 32 (0x65 + 2 ^ 8 * m + 2 ^ 16 * n)) = .error .illegalImmediate

/-- R175 (c), (d): LCVD2B with K = K_OF(N, C) of the groups that LCVB2D returns gives the N-limb operand
back, for every N, every value and both group formats. -/
def Obligations.LongConversionsAreInverse : Prop :=
  ∀ (n : Nat) (fmt : Divisor) (q : Request), 1 ≤ n → n ≤ 16 → fmt ≠ .e16 →
    ∃ r : Response, Answers (.lcvb2d n fmt) q r
      ∧ ∀ q' : Request, (∀ j, j < kOf n (divisorValue fmt) → slot q'.a j = slot r.r j) →
        Answers (.lcvd2b (kOf n (divisorValue fmt)) fmt) q' (performed (wide q.a n))

/-- R172, R174: repeated passes of the double-limb division give the low groups of the base-C expansion,
lowest-order first, each DIVDC step of a pass having a high limb below the divisor; and Horner's rule over
limbs gives the value of the groups. -/
def Obligations.LongConversionTechniquesAreExact : Prop :=
  (∀ (c k : Nat) (xs : List Limb), (c = 10 ^ 31 ∨ c = 10 ^ 32) →
    (longDivide c k xs).map BitVec.toNat
      = (List.range k).map (fun j => limbsVal xs.reverse / c ^ j % c))
  ∧ (∀ (c : Nat) (xs : List Limb) (rem : Limb), (c = 10 ^ 31 ∨ c = 10 ^ 32) → rem.toNat < c →
    (longDividePass c xs rem).2.toNat < c
    ∧ limbsVal (longDividePass c xs rem).1.reverse * c + (longDividePass c xs rem).2.toNat
      = rem.toNat * 2 ^ (128 * xs.length) + limbsVal xs.reverse)
  ∧ ∀ (c : Nat) (gs : List Limb), (c = 10 ^ 31 ∨ c = 10 ^ 32) →
    limbsVal (longMultiply c gs) = groupsVal c (gs.map BitVec.toNat)

/-! ## Decimal multiply and divide -/

/-- R188, R189, R190: BCDMULL, BCDMULH and BCDMULF of valid operands: the low and the high 31 digits of the
magnitude of the exact product under its sign, a zero half as +0; the two halves together have the value of
the product. With an invalid operand they complete with open values of the operands alone. -/
def Obligations.DecimalProductHalves : Prop :=
  encode .bcdmull = 0x70#32 ∧ encode .bcdmulh = 0x71#32 ∧ encode .bcdmulf = 0x72#32
  ∧ (∀ (q : Request) (p : Int), p = val (slot q.a 0) * val (slot q.b 0) →
    pdValid (slot q.a 0) = true → pdValid (slot q.b 0) = true →
    ∃ low high : Limb,
      low = enc (signOf p * (p.natAbs % 10 ^ 31 : Nat))
      ∧ high = enc (signOf p * (p.natAbs / 10 ^ 31 : Nat))
      ∧ Answers .bcdmull q (performed low.toNat)
      ∧ Answers .bcdmulh q (performed high.toNat)
      ∧ Answers .bcdmulf q (performed low.toNat (s := high))
      ∧ val high * 10 ^ 31 + val low = p)
  ∧ ∃ f g h k : Limb → Limb → Limb, ∀ q : Request,
    (pdValid (slot q.a 0) && pdValid (slot q.b 0)) = false →
    Answers .bcdmull q (performed (f (slot q.a 0) (slot q.b 0)).toNat)
    ∧ Answers .bcdmulh q (performed (g (slot q.a 0) (slot q.b 0)).toNat)
    ∧ Answers .bcdmulf q (performed (h (slot q.a 0) (slot q.b 0)).toNat
      (s := k (slot q.a 0) (slot q.b 0)))

/-- R191: the chunk products, one when both high chunks are zero and else four, give the exact product of
two 31-digit magnitudes, and three of them give its low half. -/
def Obligations.ChunkSplittingGivesTheProduct : Prop :=
  ∀ a b : Nat, a < 10 ^ 31 → b < 10 ^ 31 →
    chunkProduct a b = a * b ∧ chunkLowHalf a b = a * b % 10 ^ 31

/-- R192: BCDDIV of valid operands with a divisor that is not zero gives the quotient truncated toward zero
in all four sign combinations, a zero quotient as +0; a zero divisor or an invalid operand gives an open
value of the operands and no fault. -/
def Obligations.DecimalQuotientTruncates : Prop :=
  encode .bcddiv = 0x00000073#32
  ∧ (∀ q : Request, pdValid (slot q.a 0) = true → pdValid (slot q.b 0) = true → mag (slot q.b 0) ≠ 0 →
    Answers .bcddiv q (performed
      (enc (sgn (slot q.a 0) * sgn (slot q.b 0)
        * ((mag (slot q.a 0) / mag (slot q.b 0) : Nat) : Int))).toNat)
    ∧ val (enc (sgn (slot q.a 0) * sgn (slot q.b 0)
        * ((mag (slot q.a 0) / mag (slot q.b 0) : Nat) : Int)))
      = (val (slot q.a 0)).tdiv (val (slot q.b 0)))
  ∧ ∃ f : Limb → Limb → Limb, ∀ q : Request,
    (pdValid (slot q.a 0) && pdValid (slot q.b 0) && decide (mag (slot q.b 0) ≠ 0)) = false →
    Answers .bcddiv q (performed (f (slot q.a 0) (slot q.b 0)).toNat)

/-- R194 (d), carried by the host as in program P5 of `95_test_vectors.md`: dividing, multiplying back
(low half) and subtracting leaves a remainder smaller in magnitude than the divisor, zero or of the sign
of the dividend. -/
def Obligations.DecimalRemainderByThreeTransactions : Prop :=
  ∀ q : Request, pdValid (slot q.a 0) = true → pdValid (slot q.b 0) = true → mag (slot q.b 0) ≠ 0 →
    ∃ r₁ : Response, Answers .bcddiv q r₁
      ∧ ∀ q₂ : Request, slot q₂.a 0 = slot r₁.r 0 → slot q₂.b 0 = slot q.b 0 →
        ∃ r₂ : Response, Answers .bcdmull q₂ r₂
          ∧ ∀ q₃ : Request, slot q₃.a 0 = slot q.a 0 → slot q₃.b 0 = slot r₂.r 0 →
            ∃ r₃ : Response, Answers .bcdsub q₃ r₃
              ∧ val (slot r₃.r 0) = (val (slot q.a 0)).tmod (val (slot q.b 0))
              ∧ (val (slot r₃.r 0)).natAbs < mag (slot q.b 0)
end

