-- ==== Sys2Proof/Laws/Ports.lean ====
section
/-! SUPPORT. The laws of slots, limb sequences and digit strings: what the readers of `Machine/Operands.lean`
give, said once (R10, R13 to R16, R25). -/

namespace Sys2Proof.Machine

/-! ## Limb sequences (R16) -/

@[simp] theorem limbsVal_nil : limbsVal [] = 0 := rfl
@[simp] theorem limbsVal_cons (l : Limb) (ls : List Limb) :
    limbsVal (l :: ls) = l.toNat + 2 ^ 128 * limbsVal ls := rfl

theorem limbsVal_lt (ls : List Limb) : limbsVal ls < 2 ^ (128 * ls.length) := by
  induction ls with
  | nil => simp
  | cons l ls ih =>
    have hl := l.isLt
    simp only [limbsVal_cons, List.length_cons, Nat.mul_add, Nat.mul_one, Nat.pow_add]
    nlinarith

theorem limbsVal_append (xs ys : List Limb) :
    limbsVal (xs ++ ys) = limbsVal xs + 2 ^ (128 * xs.length) * limbsVal ys := by
  induction xs with
  | nil => simp
  | cons x xs ih =>
    simp only [List.cons_append, limbsVal_cons, ih, List.length_cons, Nat.mul_add, Nat.mul_one,
      Nat.pow_add]
    ring

@[simp] theorem limbsOf_length (n v : Nat) : (limbsOf n v).length = n := by
  induction n generalizing v with
  | zero => rfl
  | succ n ih => simp [limbsOf, ih]

/-- The limbs of a number hold it modulo 2^(128·n). -/
theorem limbsVal_limbsOf (n v : Nat) : limbsVal (limbsOf n v) = v % 2 ^ (128 * n) := by
  induction n generalizing v with
  | zero => simp [limbsOf, Nat.mod_one]
  | succ n ih =>
    have e : (2 : Nat) ^ (128 * (n + 1)) = 2 ^ 128 * 2 ^ (128 * n) := by
      rw [← Nat.pow_add]; congr 1; omega
    simp only [limbsOf, limbsVal_cons, ih, BitVec.toNat_ofNat, e, Nat.mod_mul]

/-- Limb sequences of one length with one value are equal. -/
theorem limbsVal_injective {xs ys : List Limb} (h : xs.length = ys.length)
    (hv : limbsVal xs = limbsVal ys) : xs = ys := by
  induction xs generalizing ys with
  | nil => cases ys with
    | nil => rfl
    | cons y ys => simp at h
  | cons x xs ih => cases ys with
    | nil => simp at h
    | cons y ys =>
      have hx := x.isLt
      have hy := y.isLt
      simp only [limbsVal_cons] at hv
      have h1 : x.toNat = y.toNat := by omega
      have h2 : limbsVal xs = limbsVal ys := by omega
      rw [BitVec.eq_of_toNat_eq h1, ih (by simpa using h) h2]

/-! ## Slots (R10) -/

theorem slot_toNat (p : Port) (i : Nat) : (slot p i).toNat = p.toNat / 2 ^ (128 * i) % 2 ^ 128 := by
  simp [slot, BitVec.extractLsb'_toNat, Nat.shiftRight_eq_div_pow]

@[simp] theorem slots_length (p : Port) (n : Nat) : (slots p n).length = n := by simp [slots]

theorem slots_succ (p : Port) (n : Nat) : slots p (n + 1) = slots p n ++ [slot p n] := by
  simp [slots, List.range_succ]

theorem slots_getElem? (p : Port) (n i : Nat) :
    (slots p n)[i]? = if i < n then some (slot p i) else none := by
  unfold slots; split <;> rename_i h <;> simp [h]

/-- Two ports that agree in their first n slots have the same sequence of them. -/
theorem slots_congr {p p' : Port} {n : Nat} (h : ∀ i, i < n → slot p i = slot p' i) :
    slots p n = slots p' n :=
  List.map_congr_left fun i hi => h i (List.mem_range.mp hi)

/-- The value of the first n slots is the port modulo 2^(128·n). -/
theorem wide_eq_mod (p : Port) (n : Nat) : wide p n = p.toNat % 2 ^ (128 * n) := by
  induction n with
  | zero => simp [wide, slots, Nat.mod_one]
  | succ n ih =>
    have e : (2 : Nat) ^ (128 * (n + 1)) = 2 ^ (128 * n) * 2 ^ 128 := by
      rw [← Nat.pow_add]; congr 1
    unfold wide at ih ⊢
    rw [slots_succ, limbsVal_append, ih, slots_length, limbsVal_cons, limbsVal_nil, slot_toNat, e,
      Nat.mod_mul]
    simp

theorem wide_lt (p : Port) (n : Nat) : wide p n < 2 ^ (128 * n) := by
  have h := limbsVal_lt (slots p n)
  rwa [slots_length] at h

theorem limbsOf_wide (p : Port) (n : Nat) : limbsOf n (wide p n) = slots p n := by
  apply limbsVal_injective (by simp)
  rw [limbsVal_limbsOf, Nat.mod_eq_of_lt (wide_lt p n), wide]

/-! ## A port built from limbs (R25) -/

theorem portOf_toNat {ls : List Limb} (h : ls.length ≤ 32) : (portOf ls).toNat = limbsVal ls := by
  have h1 := limbsVal_lt ls
  have h2 : (2 : Nat) ^ (128 * ls.length) ≤ 2 ^ 4096 := Nat.pow_le_pow_right (by decide) (by omega)
  rw [portOf, BitVec.toNat_ofNat]
  exact Nat.mod_eq_of_lt (Nat.lt_of_lt_of_le h1 h2)

/-- The slots a port was built from. -/
theorem slots_portOf {ls : List Limb} (h : ls.length ≤ 32) : slots (portOf ls) ls.length = ls := by
  apply limbsVal_injective (by simp)
  have : limbsVal (slots (portOf ls) ls.length) = wide (portOf ls) ls.length := rfl
  rw [this, wide_eq_mod, portOf_toNat h, Nat.mod_eq_of_lt (limbsVal_lt ls)]

theorem slot_portOf {ls : List Limb} (h : ls.length ≤ 32) {i : Nat} (hi : i < ls.length) :
    slot (portOf ls) i = ls[i] := by
  have h1 : (slots (portOf ls) ls.length)[i]? = ls[i]? := by rw [slots_portOf h]
  rw [slots_getElem?, if_pos hi, List.getElem?_eq_getElem hi] at h1
  exact Option.some.inj h1

/-- The slots above those a port was built from are 0. -/
theorem slot_portOf_above {ls : List Limb} {i : Nat} (h : ls.length ≤ 32) (hi : ls.length ≤ i) :
    slot (portOf ls) i = 0 := by
  apply BitVec.eq_of_toNat_eq
  have h1 := limbsVal_lt ls
  have h2 : (2 : Nat) ^ (128 * ls.length) ≤ 2 ^ (128 * i) :=
    Nat.pow_le_pow_right (by decide) (by omega)
  rw [slot_toNat, portOf_toNat h, Nat.div_eq_of_lt (by omega)]
  simp

@[simp] theorem portOf_nil : portOf [] = 0 := rfl

/-! ## Nibbles and digit strings (R11, R13, R14, R15) -/

theorem nib_toNat (x : Limb) (i : Nat) : (nib x i).toNat = x.toNat / 16 ^ i % 16 := by
  have e : (16 : Nat) ^ i = 2 ^ (4 * i) := by rw [Nat.pow_mul]
  simp [nib, BitVec.extractLsb'_toNat, Nat.shiftRight_eq_div_pow, e]

theorem magBits_toNat (x : Limb) : (magBits x).toNat = x.toNat / 16 := by
  have h := x.isLt
  simp only [magBits, BitVec.extractLsb'_toNat, Nat.shiftRight_eq_div_pow]
  omega

theorem digitsOf_lt (n v : Nat) : digitsOf n v < 16 ^ n := by
  induction n generalizing v with
  | zero => simp [digitsOf]
  | succ n ih =>
    have := ih (v / 10)
    simp only [digitsOf, Nat.pow_succ]; omega

theorem digitsValid_digitsOf (n v : Nat) : digitsValid n (digitsOf n v) = true := by
  induction n generalizing v with
  | zero => rfl
  | succ n ih =>
    have h1 : digitsOf (n + 1) v % 16 = v % 10 := by simp only [digitsOf]; omega
    have h2 : digitsOf (n + 1) v / 16 = digitsOf n (v / 10) := by simp only [digitsOf]; omega
    have h3 : v % 10 ≤ 9 := by omega
    simp [digitsValid, h1, h2, ih, h3]

theorem digitsVal_digitsOf (n v : Nat) : digitsVal n (digitsOf n v) = v % 10 ^ n := by
  induction n generalizing v with
  | zero => simp [digitsVal, Nat.mod_one]
  | succ n ih =>
    have h1 : digitsOf (n + 1) v % 16 = v % 10 := by simp only [digitsOf]; omega
    have h2 : digitsOf (n + 1) v / 16 = digitsOf n (v / 10) := by simp only [digitsOf]; omega
    rw [digitsVal, h1, h2, ih, Nat.pow_succ, Nat.mul_comm (10 ^ n) 10, Nat.mod_mul]

theorem digitsVal_lt {n x : Nat} (h : digitsValid n x = true) : digitsVal n x < 10 ^ n := by
  induction n generalizing x with
  | zero => simp [digitsVal]
  | succ n ih =>
    simp only [digitsValid, Bool.and_eq_true, decide_eq_true_eq] at h
    have := ih h.2
    simp only [digitsVal, Nat.pow_succ]; omega

theorem digitsOf_digitsVal {n x : Nat} (h : digitsValid n x = true) :
    digitsOf n (digitsVal n x) = x % 16 ^ n := by
  induction n generalizing x with
  | zero => simp [digitsOf, Nat.mod_one]
  | succ n ih =>
    simp only [digitsValid, Bool.and_eq_true, decide_eq_true_eq] at h
    have h1 : digitsVal (n + 1) x % 10 = x % 16 := by simp only [digitsVal]; omega
    have h2 : digitsVal (n + 1) x / 10 = digitsVal n (x / 16) := by simp only [digitsVal]; omega
    rw [digitsOf, h1, h2, ih h.2, Nat.pow_succ, Nat.mul_comm (16 ^ n) 16, Nat.mod_mul]

/-! ## Packed decimal (R13, R14) -/

theorem mag_lt {x : Limb} (h : pdValid x = true) : mag x < 10 ^ 31 := by
  simp only [pdValid, Bool.and_eq_true] at h
  exact digitsVal_lt h.2

theorem umag_lt {x : Limb} (h : updValid x = true) : umag x < 10 ^ 32 := digitsVal_lt h

/-- A signed value is its sign times its magnitude, and the sign is one of two. -/
theorem sgn_cases (x : Limb) : sgn x = 1 ∨ sgn x = -1 := by
  unfold sgn; split <;> simp

theorem val_natAbs (x : Limb) : (val x).natAbs = mag x := by
  rw [val, Int.natAbs_mul, Int.natAbs_natCast]
  rcases sgn_cases x with h | h <;> rw [h] <;> exact Nat.one_mul _

/-- A word put together from magnitude bits and a sign nibble holds both. -/
theorem append_toNat (m : BitVec 124) (n : Nibble) :
    (m ++ n).toNat = m.toNat * 16 + n.toNat := by
  have h := n.isLt
  rw [BitVec.toNat_append, Nat.shiftLeft_eq, Nat.mul_comm, ← Nat.two_pow_add_eq_or_of_lt h]

theorem nib_append_zero (m : BitVec 124) (n : Nibble) : nib (m ++ n) 0 = n := by
  apply BitVec.eq_of_toNat_eq
  have h := n.isLt
  have h1 := append_toNat m n
  rw [nib_toNat, h1]
  omega

theorem magBits_append (m : BitVec 124) (n : Nibble) : magBits (m ++ n) = m := by
  apply BitVec.eq_of_toNat_eq
  have h := n.isLt
  have h1 := append_toNat m n
  rw [magBits_toNat, h1]
  omega

theorem nib_enc_zero (v : Int) : nib (enc v) 0 = signCode v := nib_append_zero _ _

theorem magBits_enc (v : Int) : magBits (enc v) = BitVec.ofNat 124 (digitsOf 31 v.natAbs) :=
  magBits_append _ _

theorem isSign_signCode (v : Int) : isSign (signCode v) = true := by
  unfold signCode; split <;> rfl

/-- What the canonical encoding holds, for any integer: the low 31 digits of its magnitude. -/
theorem mag_enc (v : Int) : mag (enc v) = v.natAbs % 10 ^ 31 := by
  have h := digitsOf_lt 31 v.natAbs
  have e : (16 : Nat) ^ 31 = 2 ^ 124 := by norm_num
  rw [mag, magBits_enc, BitVec.toNat_ofNat, Nat.mod_eq_of_lt (by omega), digitsVal_digitsOf]

theorem pdValid_enc (v : Int) : pdValid (enc v) = true := by
  have h := digitsOf_lt 31 v.natAbs
  have e : (16 : Nat) ^ 31 = 2 ^ 124 := by norm_num
  rw [pdValid, nib_enc_zero, isSign_signCode, magBits_enc, BitVec.toNat_ofNat,
    Nat.mod_eq_of_lt (by omega), digitsValid_digitsOf]; rfl

theorem sgn_enc (v : Int) : sgn (enc v) = if 0 ≤ v then 1 else -1 := by
  unfold sgn; rw [nib_enc_zero]; unfold signCode; split <;> rfl

/-! ## Unsigned packed decimal (R15) -/

theorem uenc_toNat (v : Nat) : (uenc v).toNat = digitsOf 32 v := by
  have h := digitsOf_lt 32 v
  have e : (16 : Nat) ^ 32 = 2 ^ 128 := by norm_num
  rw [uenc, BitVec.toNat_ofNat, Nat.mod_eq_of_lt (by omega)]

/-! ## The adder (R33, R71 to R74) -/

/-- The sum and the carry of the adder path are the exact sum. -/
theorem adder_exact (a b : Limb) (c : Bool) :
    (adder a b c).1.toNat + 2 ^ 128 * (adder a b c).2.toNat = a.toNat + b.toNat + c.toNat := by
  have ha := a.isLt
  have hb := b.isLt
  have hc : c.toNat ≤ 1 := Bool.toNat_le c
  simp only [adder, BitVec.toNat_ofNat]
  by_cases h : (a.toNat + b.toNat + c.toNat) / 2 ^ 128 = 0
  · simp only [h, ne_eq, not_true_eq_false, decide_false, Bool.toNat_false]; omega
  · simp only [ne_eq, h, not_false_eq_true, decide_true, Bool.toNat_true]; omega

/-- On the subtract path the carry is one less the borrow. -/
theorem subtractor_exact (a b : Limb) (c : Bool) :
    (subtractor a b c).1.toNat + 2 ^ 128 * (subtractor a b c).2.toNat + b.toNat + 1
      = a.toNat + 2 ^ 128 + c.toNat := by
  have hb := b.isLt
  have h := adder_exact a (~~~b) c
  rw [BitVec.toNat_not] at h
  unfold subtractor
  omega

/-! ## The three branches of `cdc` (R126) -/

theorem cdc_overflow {a : Limb} {t : Int} (h : decT ≤ t.natAbs) :
    cdc a t = (enc (signOf t * ((t.natAbs : Int) - decT)), enc (signOf t)) := by
  simp [cdc, h]

theorem cdc_correct {a : Limb} {t : Int} (h : t.natAbs < decT) (h0 : t ≠ 0)
    (hs : signOf t ≠ sgn a) :
    cdc a t = (enc (t + sgn a * decT), enc (-(sgn a))) := by
  simp [cdc, Nat.not_le.mpr h, h0, hs]

theorem cdc_plain {a : Limb} {t : Int} (h : t.natAbs < decT) (hs : t = 0 ∨ signOf t = sgn a) :
    cdc a t = (enc t, enc 0) := by
  rcases hs with rfl | hs
  · simp [cdc, decT]
  · simp [cdc, Nat.not_le.mpr h, hs]

/-! ## Conditions and the decimal carry-in (R55, R121) -/

@[simp] theorem condHolds_eq (x y : Int) : condHolds .eq x y = decide (x = y) := rfl
@[simp] theorem condHolds_ne (x y : Int) : condHolds .ne x y = decide (x ≠ y) := rfl
@[simp] theorem condHolds_lt (x y : Int) : condHolds .lt x y = decide (x < y) := rfl
@[simp] theorem condHolds_le (x y : Int) : condHolds .le x y = decide (x ≤ y) := rfl
@[simp] theorem condHolds_gt (x y : Int) : condHolds .gt x y = decide (y < x) := rfl
@[simp] theorem condHolds_ge (x y : Int) : condHolds .ge x y = decide (y ≤ x) := rfl

theorem carryValid_iff (c : Limb) : carryValid c = true ↔ pdValid c = true ∧ mag c ≤ 1 := by
  simp [carryValid]

/-! ## The shape tables (R171, R173) -/

/-- The search for a least power finds it when one is in reach. -/
theorem leastPower_spec {base bound fuel k₀ p : Nat} (hp : p = base ^ k₀)
    (h : ∃ k, k₀ ≤ k ∧ k ≤ k₀ + fuel ∧ bound ≤ base ^ k) :
    bound ≤ base ^ leastPower base bound fuel k₀ p
      ∧ ∀ j, k₀ ≤ j → j < leastPower base bound fuel k₀ p → base ^ j < bound := by
  induction fuel generalizing k₀ p with
  | zero =>
    obtain ⟨k, h1, h2, h3⟩ := h
    obtain rfl : k = k₀ := by omega
    exact ⟨h3, fun j h4 h5 => absurd (show j < k from h5) (by omega)⟩
  | succ fuel ih =>
    by_cases hb : bound ≤ p
    · have e : leastPower base bound (fuel + 1) k₀ p = k₀ := if_pos hb
      rw [e]
      exact ⟨hp ▸ hb, fun j h4 h5 => absurd h5 (by omega)⟩
    · have e : leastPower base bound (fuel + 1) k₀ p = leastPower base bound fuel (k₀ + 1) (p * base) :=
        if_neg hb
      obtain ⟨k, h1, h2, h3⟩ := h
      have hk : k₀ ≠ k := fun hk => hb (by rw [hp, hk]; exact h3)
      have h4 := ih (k₀ := k₀ + 1) (p := p * base) (by rw [hp, Nat.pow_succ])
        ⟨k, by omega, by omega, h3⟩
      rw [e]
      refine ⟨h4.1, fun j hj hj' => ?_⟩
      by_cases hj0 : j = k₀
      · rw [hj0, ← hp]; omega
      · exact h4.2 j (by omega) hj'

end Sys2Proof.Machine
end

