-- ==== Sys2Proof/Laws/State.lean ====
section
/-! SUPPORT. One lemma for each field of the state and each update of it, so that no proof unfolds a record
update; and the fields of the responses. -/

namespace Sys2Proof.Machine

/-! ## A response delivered (R26) -/

@[simp] theorem State.deliver_resetLine (s : State) (r : Response) :
    (s.deliver r).resetLine = s.resetLine := rfl
@[simp] theorem State.deliver_inflight (s : State) (r : Response) :
    (s.deliver r).inflight = none := rfl
@[simp] theorem State.deliver_hostQueue (s : State) (r : Response) :
    (s.deliver r).hostQueue = s.hostQueue := rfl
@[simp] theorem State.deliver_delivered (s : State) (r : Response) :
    (s.deliver r).delivered = r :: s.delivered := rfl

/-! ## An error response (R202) -/

@[simp] theorem State.raise_resetLine (s : State) (e : DecodeError) :
    (s.raise e).resetLine = s.resetLine := rfl
@[simp] theorem State.raise_inflight (s : State) (e : DecodeError) : (s.raise e).inflight = none := rfl
@[simp] theorem State.raise_hostQueue (s : State) (e : DecodeError) :
    (s.raise e).hostQueue = s.hostQueue := rfl
@[simp] theorem State.raise_delivered (s : State) (e : DecodeError) :
    (s.raise e).delivered = Response.error e :: s.delivered := rfl

/-! ## Reset asserted (R221) -/

@[simp] theorem State.underReset_resetLine (s : State) : s.underReset.resetLine = s.resetLine := rfl
@[simp] theorem State.underReset_inflight (s : State) : s.underReset.inflight = none := rfl
@[simp] theorem State.underReset_hostQueue (s : State) : s.underReset.hostQueue = s.hostQueue := rfl
@[simp] theorem State.underReset_delivered (s : State) : s.underReset.delivered = s.delivered := rfl

/-! ## The next request accepted (R45) -/

@[simp] theorem State.accept_resetLine (s : State) : s.accept.resetLine = s.resetLine := by
  unfold State.accept; split <;> rfl
@[simp] theorem State.accept_delivered (s : State) : s.accept.delivered = s.delivered := by
  unfold State.accept; split <;> rfl
theorem State.accept_nil {s : State} (h : s.hostQueue = []) : s.accept = s := by
  unfold State.accept; rw [h]
theorem State.accept_cons {s : State} {q : Request} {rest : List Request}
    (h : s.hostQueue = q :: rest) :
    s.accept = { s with inflight := some q, hostQueue := rest } := by
  unfold State.accept; rw [h]

/-! ## The host's side (R24, R220) -/

@[simp] theorem State.present_resetLine (s : State) (q : Request) :
    (s.present q).resetLine = s.resetLine := rfl
@[simp] theorem State.present_inflight (s : State) (q : Request) :
    (s.present q).inflight = s.inflight := rfl
@[simp] theorem State.present_hostQueue (s : State) (q : Request) :
    (s.present q).hostQueue = s.hostQueue ++ [q] := rfl
@[simp] theorem State.present_delivered (s : State) (q : Request) :
    (s.present q).delivered = s.delivered := rfl
@[simp] theorem State.driveReset_resetLine (s : State) (l : Bool) :
    (s.driveReset l).resetLine = l := rfl
@[simp] theorem State.driveReset_inflight (s : State) (l : Bool) :
    (s.driveReset l).inflight = s.inflight := rfl
@[simp] theorem State.driveReset_hostQueue (s : State) (l : Bool) :
    (s.driveReset l).hostQueue = s.hostQueue := rfl
@[simp] theorem State.driveReset_delivered (s : State) (l : Bool) :
    (s.driveReset l).delivered = s.delivered := rfl
@[simp] theorem State.placeWord_resetLine (s : State) (cw : CmdWord) :
    (s.placeWord cw).resetLine = false := rfl
@[simp] theorem State.placeWord_inflight (s : State) (cw : CmdWord) :
    (s.placeWord cw).inflight = some (s.requestWithWord cw) := rfl
@[simp] theorem State.placeWord_hostQueue (s : State) (cw : CmdWord) :
    (s.placeWord cw).hostQueue = s.hostQueue := rfl
@[simp] theorem State.placeWord_delivered (s : State) (cw : CmdWord) :
    (s.placeWord cw).delivered = s.delivered := rfl
@[simp] theorem State.requestWithWord_cw (s : State) (cw : CmdWord) :
    (s.requestWithWord cw).cw = cw := by
  unfold State.requestWithWord; split <;> rfl

/-! ## The state right after reset (R39) -/

@[simp] theorem State.reset_resetLine : State.reset.resetLine = false := rfl
@[simp] theorem State.reset_inflight : State.reset.inflight = none := rfl
@[simp] theorem State.reset_hostQueue : State.reset.hostQueue = [] := rfl
@[simp] theorem State.reset_delivered : State.reset.delivered = [] := rfl

/-! ## Responses (R25, R202) -/

@[simp] theorem Response.ok_r (r : List Limb) (s : Limb) (t : Bool) :
    (Response.ok r s t).r = portOf r := rfl
@[simp] theorem Response.ok_s (r : List Limb) (s : Limb) (t : Bool) : (Response.ok r s t).s = s := rfl
@[simp] theorem Response.ok_t (r : List Limb) (s : Limb) (t : Bool) : (Response.ok r s t).t = t := rfl
@[simp] theorem Response.ok_err (r : List Limb) (s : Limb) (t : Bool) :
    (Response.ok r s t).err = 0 := rfl
@[simp] theorem Response.error_r (e : DecodeError) : (Response.error e).r = 0 := rfl
@[simp] theorem Response.error_s (e : DecodeError) : (Response.error e).s = 0 := rfl
@[simp] theorem Response.error_t (e : DecodeError) : (Response.error e).t = false := rfl
@[simp] theorem Response.error_err (e : DecodeError) : (Response.error e).err = errCode e := rfl

end Sys2Proof.Machine
end

