-- ==== Sys2Proof/Laws/Ops.lean ====
section
/-! SUPPORT. Once for each shared operation, all that it can do; proofs cite these and do not unfold the
operation. -/

namespace Sys2Proof.Machine

open Host (Outcome)

/-! ## Transactions and steps (R26, R200, R221) -/

theorem State.transact_of_inflight {s : State} {q : Request} (h : s.inflight = some q)
    (f : Request → Response) : s.transact f = .next (s.deliver (f q)) := by
  unfold State.transact; rw [h]

theorem State.transact_idle {s : State} (h : s.inflight = none) (f : Request → Response) :
    s.transact f = .next s := by
  unfold State.transact; rw [h]

/-- A transaction that gives a next state delivered one response to the request in flight, or had no
request to answer and changed nothing. -/
theorem State.transact_cases {s t : State} {f : Request → Response} (h : s.transact f = .next t) :
    (∃ q, s.inflight = some q ∧ t = s.deliver (f q)) ∨ (s.inflight = none ∧ t = s) := by
  cases hq : s.inflight with
  | none => rw [State.transact_idle hq] at h; exact .inr ⟨rfl, (Outcome.next.inj h).symm⟩
  | some q =>
    rw [State.transact_of_inflight hq] at h; exact .inl ⟨q, rfl, (Outcome.next.inj h).symm⟩

/-- Accepting either takes the head of the host's queue or changes nothing. -/
theorem State.accept_cases (s : State) :
    (s.hostQueue = [] ∧ s.accept = s)
      ∨ ∃ q rest, s.hostQueue = q :: rest
        ∧ s.accept = { s with inflight := some q, hostQueue := rest } := by
  cases h : s.hostQueue with
  | nil => exact .inl ⟨rfl, State.accept_nil h⟩
  | cons q rest => exact .inr ⟨q, rest, rfl, State.accept_cons h⟩

/-- Every branch of a step. -/
theorem step_cases (s : State) :
    (s.resetLine = true ∧ step s = .next s.underReset)
      ∨ (s.resetLine = false ∧ s.inflight = none ∧ step s = .next s.accept)
      ∨ (∃ q i, s.resetLine = false ∧ s.inflight = some q ∧ decode q.cw = .ok i
          ∧ step s = exec i s)
      ∨ ∃ q e, s.resetLine = false ∧ s.inflight = some q ∧ decode q.cw = .error e
          ∧ step s = .next (s.raise e) := by
  cases hr : s.resetLine with
  | true => exact .inl ⟨rfl, by simp [step, hr]⟩
  | false =>
    cases hq : s.inflight with
    | none => exact .inr (.inl ⟨rfl, rfl, by simp [step, hr, hq]⟩)
    | some q =>
      cases hd : decode q.cw with
      | ok i =>
        exact .inr (.inr (.inl ⟨q, i, rfl, rfl, hd, by simp [step, hr, hq, Request.operation, hd]⟩))
      | error e =>
        exact .inr (.inr (.inr ⟨q, e, rfl, rfl, hd, by simp [step, hr, hq, Request.operation, hd]⟩))

/-! ## Guards (R121, R185) -/

/-- Both branches of a two-operand guard. -/
theorem withTwo_cases (q : Request) (u f : Limb → Limb → Response) :
    ((pdValid (slot q.a 0) && pdValid (slot q.b 0)) = true
        ∧ withTwo q u f = f (slot q.a 0) (slot q.b 0))
      ∨ ((pdValid (slot q.a 0) && pdValid (slot q.b 0)) = false
        ∧ withTwo q u f = u (slot q.a 0) (slot q.b 0)) := by
  unfold withTwo
  cases h : pdValid (slot q.a 0) && pdValid (slot q.b 0) <;> simp

/-- Both branches of a guard with a decimal carry-in. -/
theorem withThree_cases (q : Request) (u f : Limb → Limb → Limb → Response) :
    ((pdValid (slot q.a 0) && pdValid (slot q.b 0) && carryValid q.c) = true
        ∧ withThree q u f = f (slot q.a 0) (slot q.b 0) q.c)
      ∨ ((pdValid (slot q.a 0) && pdValid (slot q.b 0) && carryValid q.c) = false
        ∧ withThree q u f = u (slot q.a 0) (slot q.b 0) q.c) := by
  unfold withThree
  cases h : pdValid (slot q.a 0) && pdValid (slot q.b 0) && carryValid q.c <;> simp

/-- Both branches of a guard over two sequences. -/
theorem withSequences_cases (q : Request) (n : Nat) (u f : List Limb → List Limb → Response) :
    (((slots q.a n).all pdValid && (slots q.b n).all pdValid) = true
        ∧ withSequences q n u f = f (slots q.a n) (slots q.b n))
      ∨ (((slots q.a n).all pdValid && (slots q.b n).all pdValid) = false
        ∧ withSequences q n u f = u (slots q.a n) (slots q.b n)) := by
  unfold withSequences
  cases h : (slots q.a n).all pdValid && (slots q.b n).all pdValid <;> simp

/-! ## Chains (R91, R92, R142) -/

theorem chain_length {γ : Type} (f : Limb → Limb → γ → Limb × γ) {as bs : List Limb}
    (h : as.length = bs.length) (c : γ) : (chain f as bs c).1.length = as.length := by
  induction as generalizing bs c with
  | nil => simp [chain]
  | cons a as ih =>
    cases bs with
    | nil => simp at h
    | cons b bs => simp [chain, ih (by simpa using h)]

/-- Every step of a chain: the carries between the steps exist, the first is the carry in and the last the
carry out, and each element and carry is one application. -/
theorem chain_spec {γ : Type} (f : Limb → Limb → γ → Limb × γ) {as bs : List Limb}
    (h : as.length = bs.length) (c : γ) :
    ∃ carry : Nat → γ, carry 0 = c ∧ carry as.length = (chain f as bs c).2
      ∧ ∀ i a b, as[i]? = some a → bs[i]? = some b →
        (chain f as bs c).1[i]? = some (f a b (carry i)).1 ∧ carry (i + 1) = (f a b (carry i)).2 := by
  induction as generalizing bs c with
  | nil => exact ⟨fun _ => c, rfl, by simp [chain], by simp⟩
  | cons a as ih =>
    cases bs with
    | nil => simp at h
    | cons b bs =>
      obtain ⟨k, k0, kl, ks⟩ := ih (bs := bs) (by simpa using h) (f a b c).2
      refine ⟨fun i => match i with | 0 => c | i + 1 => k i, rfl, by simpa [chain] using kl, ?_⟩
      intro i x y hx hy
      cases i with
      | zero => simp at hx hy; subst hx hy; simp [chain, k0]
      | succ i => simpa [chain] using ks i x y (by simpa using hx) (by simpa using hy)

theorem decimalChain_length (f : Limb → Limb → Limb → Limb × Limb) {as bs : List Limb}
    (h : as.length = bs.length) : (decimalChain f as bs).1.length = as.length := by
  simp [decimalChain, chain_length f (as := as.reverse) (bs := bs.reverse) (by simpa using h)]

/-- Every step of a decimal chain, in slot order: the carry into element j comes from element j + 1, the lowest
step starts from +0, and the carry of element 0 is the carry out. -/
theorem decimalChain_spec (f : Limb → Limb → Limb → Limb × Limb) {as bs : List Limb}
    (h : as.length = bs.length) :
    ∃ carry : Nat → Limb, carry as.length = enc 0 ∧ carry 0 = (decimalChain f as bs).2
      ∧ ∀ j a b, as[j]? = some a → bs[j]? = some b →
        (decimalChain f as bs).1[j]? = some (f a b (carry (j + 1))).1
          ∧ carry j = (f a b (carry (j + 1))).2 := by
  have hr : as.reverse.length = bs.reverse.length := by simpa using h
  obtain ⟨k, k0, kl, ks⟩ := chain_spec f hr (enc 0)
  have hl := chain_length f hr (enc 0)
  rw [List.length_reverse] at kl hl
  refine ⟨fun j => k (as.length - j), by simpa using k0, by show k (as.length - 0) = _; rw [Nat.sub_zero]; exact kl, ?_⟩
  intro j a b ha hb
  have hj : j < as.length := (List.getElem?_eq_some_iff.mp ha).1
  have h1 := ks (as.length - 1 - j) a b
    (by rw [List.getElem?_reverse (by omega)]; rwa [show as.length - 1 - (as.length - 1 - j) = j by omega])
    (by rw [List.getElem?_reverse (by omega)]; rwa [show bs.length - 1 - (as.length - 1 - j) = j by omega])
  have e1 : as.length - 1 - j = as.length - (j + 1) := by omega
  have e2 : as.length - 1 - j + 1 = as.length - j := by omega
  rw [e2, e1] at h1
  refine ⟨?_, h1.2⟩
  show ((chain f as.reverse bs.reverse (enc 0)).1.reverse)[j]? = _
  rw [List.getElem?_reverse (by omega), hl, e1]
  exact h1.1

/-- A binary carry chain on the adder path gives the exact sum of the two sequences. -/
theorem chain_adder_exact {as bs : List Limb} (h : as.length = bs.length) (c : Bool) :
    limbsVal (chain adder as bs c).1 + 2 ^ (128 * as.length) * (chain adder as bs c).2.toNat
      = limbsVal as + limbsVal bs + c.toNat := by
  induction as generalizing bs c with
  | nil => cases bs with
    | nil => simp [chain]
    | cons b bs => simp at h
  | cons a as ih => cases bs with
    | nil => simp at h
    | cons b bs =>
      have hi := ih (bs := bs) (by simpa using h) (adder a b c).2
      have ha := adder_exact a b c
      have e : (2 : Nat) ^ (128 * (as.length + 1)) = 2 ^ 128 * 2 ^ (128 * as.length) := by
        rw [← Nat.pow_add]; congr 1; omega
      simp only [chain, limbsVal_cons, List.length_cons, e]
      linear_combination ha + (2 : Nat) ^ 128 * hi

/-- A binary carry chain on the subtract path: the carry out is one less the borrow. -/
theorem chain_subtractor_exact {as bs : List Limb} (h : as.length = bs.length) (c : Bool) :
    limbsVal (chain subtractor as bs c).1
        + 2 ^ (128 * as.length) * (chain subtractor as bs c).2.toNat + limbsVal bs + 1
      = limbsVal as + 2 ^ (128 * as.length) + c.toNat := by
  induction as generalizing bs c with
  | nil => cases bs with
    | nil => simp [chain]; omega
    | cons b bs => simp at h
  | cons a as ih => cases bs with
    | nil => simp at h
    | cons b bs =>
      have hi := ih (bs := bs) (by simpa using h) (subtractor a b c).2
      have ha := subtractor_exact a b c
      have e : (2 : Nat) ^ (128 * (as.length + 1)) = 2 ^ 128 * 2 ^ (128 * as.length) := by
        rw [← Nat.pow_add]; congr 1; omega
      simp only [chain, limbsVal_cons, List.length_cons, e]
      linear_combination ha + (2 : Nat) ^ 128 * hi

end Sys2Proof.Machine
end

