-- ==== Sys2Proof/Laws/Answers.lean ====
section
/-! SUPPORT. How a meaning answers a request: the step from `transact` to `Answers`, and from a list of slots
to one number (R25, R26). -/

namespace Sys2Proof.Machine

open Host (Outcome)

/-- A meaning that is one transaction of `f` answers every request with `f` of it. -/
theorem answers_of_transact {i : Instr} {f : Request → Response} (h : ∀ s, exec i s = s.transact f)
    (q : Request) : Answers i q (f q) := fun s hs => by
  rw [h, State.transact_of_inflight hs]; rfl

/-- One request has one answer. -/
theorem answers_unique {i : Instr} {q : Request} {r r' : Response} (h : Answers i q r)
    (h' : Answers i q r') : r = r' := by
  have h1 := h { State.reset with inflight := some q } rfl
  rw [h' { State.reset with inflight := some q } rfl] at h1
  simpa using congrArg State.delivered (Outcome.next.inj h1).symm

theorem ok_eq_performed (ls : List Limb) (s : Limb) (t : Bool) :
    Response.ok ls s t = performed (limbsVal ls) s t := rfl

/-- A result of one slot, as a number. -/
theorem ok_one (x : Limb) (s : Limb) (t : Bool) : Response.ok [x] s t = performed x.toNat s t := by
  simp [ok_eq_performed]

/-- A result of no slot, as a number. -/
theorem ok_none (s : Limb) (t : Bool) : Response.ok [] s t = performed 0 s t := rfl

/-- A result of n slots made from a number below 2^(128·n). -/
theorem ok_limbsOf {n v : Nat} (h : v < 2 ^ (128 * n)) (s : Limb) (t : Bool) :
    Response.ok (limbsOf n v) s t = performed v s t := by
  rw [ok_eq_performed, limbsVal_limbsOf, Nat.mod_eq_of_lt h]

@[simp] theorem performed_r (v : Nat) (s : Limb) (t : Bool) :
    (performed v s t).r = BitVec.ofNat 4096 v := rfl
@[simp] theorem performed_s (v : Nat) (s : Limb) (t : Bool) : (performed v s t).s = s := rfl
@[simp] theorem performed_t (v : Nat) (s : Limb) (t : Bool) : (performed v s t).t = t := rfl
@[simp] theorem performed_err (v : Nat) (s : Limb) (t : Bool) : (performed v s t).err = 0 := rfl

end Sys2Proof.Machine
end

