-- ==== Sys2Proof/Laws/Decode.lean ====
section
/-! SUPPORT. The fields of an encoded operation, the checks of the decoder one by one, and the codes
(R51, R53 to R57, R63). -/

namespace Sys2Proof

/-! ## The fields of an encoded operation (R51) -/

theorem append8_toNat {n : Nat} (x : BitVec n) (y : Byte) : (x ++ y).toNat = x.toNat * 256 + y.toNat := by
  rw [BitVec.toNat_append, Nat.shiftLeft_eq, Nat.mul_comm, ← Nat.two_pow_add_eq_or_of_lt y.isLt]

/-- An encoded operation as a number (R61). -/
theorem encode_toNat (i : Instr) :
    (encode i).toNat = i.shp % 256 * 65536 + i.imm % 256 * 256 + i.opc % 256 := by
  unfold encode
  rw [append8_toNat, append8_toNat, append8_toNat, BitVec.toNat_ofNat, BitVec.toNat_ofNat,
    BitVec.toNat_ofNat, BitVec.toNat_ofNat]
  omega

theorem cwOpc_encode (i : Instr) : cwOpc (encode i) = BitVec.ofNat 8 i.opc := by
  apply BitVec.eq_of_toNat_eq
  rw [cwOpc, BitVec.extractLsb'_toNat, encode_toNat, Nat.shiftRight_eq_div_pow, BitVec.toNat_ofNat]
  omega

theorem cwImm_encode (i : Instr) : cwImm (encode i) = BitVec.ofNat 8 i.imm := by
  apply BitVec.eq_of_toNat_eq
  rw [cwImm, BitVec.extractLsb'_toNat, encode_toNat, Nat.shiftRight_eq_div_pow, BitVec.toNat_ofNat]
  omega

theorem cwShp_encode (i : Instr) : cwShp (encode i) = BitVec.ofNat 8 i.shp := by
  apply BitVec.eq_of_toNat_eq
  rw [cwShp, BitVec.extractLsb'_toNat, encode_toNat, Nat.shiftRight_eq_div_pow, BitVec.toNat_ofNat]
  omega

theorem cwRsv_encode (i : Instr) : cwRsv (encode i) = 0 := by
  apply BitVec.eq_of_toNat_eq
  rw [cwRsv, BitVec.extractLsb'_toNat, encode_toNat, Nat.shiftRight_eq_div_pow]
  show _ = 0
  omega

/-! ## The checks in order (R63, R203) -/

theorem decode_unassigned {cw : CmdWord} (h : opForm (cwOpc cw).toNat = none) :
    decode cw = .error .illegalOpcode := by
  unfold decode; rw [h]

theorem decode_reserved {cw : CmdWord} {f : OpForm} (h : opForm (cwOpc cw).toNat = some f)
    (hr : (cwRsv cw).toNat ≠ 0) : decode cw = .error .reservedNonzero := by
  unfold decode; rw [h]; exact if_pos hr

theorem decode_fields {cw : CmdWord} {f : OpForm} (h : opForm (cwOpc cw).toNat = some f)
    (hr : (cwRsv cw).toNat = 0) :
    decode cw = readFields f (cwShp cw).toNat (cwImm cw).toNat := by
  unfold decode; rw [h]; exact if_neg (by simp [hr])

/-! ## Codes -/

theorem inRange_iff (lo hi n : Nat) : inRange lo hi n = true ↔ lo ≤ n ∧ n ≤ hi := by simp [inRange]

theorem countOfCode_some {lo hi c n : Nat} : countOfCode lo hi c = some n ↔ n = c ∧ lo ≤ c ∧ c ≤ hi := by
  unfold countOfCode; split <;> rename_i h <;> simp [inRange_iff] at h
  · simp only [Option.some.injEq]; omega
  · simp; omega

theorem condOfCode_condCode (c : Cond) : condOfCode (condCode c) = some c := by cases c <;> rfl

theorem mulShapeOfCode_mulShapeCode (m : MulShape) : mulShapeOfCode (mulShapeCode m) = some m := by
  cases m <;> rfl

theorem divisorOfCode_divisorCode (d : Divisor) : divisorOfCode (divisorCode d) = some d := by
  cases d <;> rfl

theorem groupDivisorOfCode_divisorCode {d : Divisor} (h : d.isGroup = true) :
    groupDivisorOfCode (divisorCode d) = some d := by
  cases d <;> first | rfl | exact absurd h (by decide)

theorem decFormatOfCode_decFormatCode (f : DecFormat) : decFormatOfCode (decFormatCode f) = some f := by
  cases f <;> rfl

theorem condCode_le (c : Cond) : condCode c ≤ 5 := by cases c <;> decide
theorem mulShapeCode_le (m : MulShape) : mulShapeCode m ≤ 5 := by cases m <;> decide
theorem divisorCode_le (d : Divisor) : divisorCode d ≤ 2 := by cases d <;> decide
theorem decFormatCode_le (f : DecFormat) : decFormatCode f ≤ 1 := by cases f <;> decide

end Sys2Proof
end

