-- ==== Sys2Proof/Laws/PerInstr.lean ====
section
/-! SUPPORT. Statements made of each constructor of `Instr`: an instruction's command word holds its operation
code, immediate and shape in their fields, and 0 in the reserved field (R51). -/

namespace Sys2Proof.Laws.EncodeFields

/-- The command word of a well-formed instruction has its four fields in place (R51). -/
def Statement (i : Instr) : Prop :=
  i.wellFormed = true →
    (cwOpc (encode i)).toNat = i.opc ∧ (cwImm (encode i)).toNat = i.imm
      ∧ (cwShp (encode i)).toNat = i.shp ∧ cwRsv (encode i) = 0

end Sys2Proof.Laws.EncodeFields

namespace Sys2Proof.Laws

theorem opc_lt (i : Instr) : i.opc < 256 := by cases i <;> simp [Instr.opc]

theorem zero_lt : 0 < 256 := by decide

/-- The fields are in place when each fits its eight bits. -/
theorem fields_of_lt (i : Instr) (hm : i.imm < 256) (hs : i.shp < 256) : EncodeFields.Statement i := by
  intro _
  rw [cwOpc_encode, cwImm_encode, cwShp_encode, cwRsv_encode, BitVec.toNat_ofNat, BitVec.toNat_ofNat,
    BitVec.toNat_ofNat]
  exact ⟨Nat.mod_eq_of_lt (opc_lt i), Nat.mod_eq_of_lt hm, Nat.mod_eq_of_lt hs, rfl⟩

end Sys2Proof.Laws

namespace Sys2Proof.Laws.EncodeFields

theorem addc : Statement .addc :=
  fields_of_lt _ zero_lt zero_lt
theorem adde : Statement .adde :=
  fields_of_lt _ zero_lt zero_lt
theorem subc : Statement .subc :=
  fields_of_lt _ zero_lt zero_lt
theorem sube : Statement .sube :=
  fields_of_lt _ zero_lt zero_lt
theorem cmpu (cond : Cond) : Statement (.cmpu cond) :=
  fields_of_lt _ (Nat.lt_of_le_of_lt (condCode_le cond) (by decide)) zero_lt
theorem sli (n : Nat) : Statement (.sli n) := fun h => by
  have hn := (inRange_iff 0 127 n).mp h
  exact fields_of_lt _ (show n < 256 by omega) zero_lt h
theorem sri (n : Nat) : Statement (.sri n) := fun h => by
  have hn := (inRange_iff 0 127 n).mp h
  exact fields_of_lt _ (show n < 256 by omega) zero_lt h
theorem srai (n : Nat) : Statement (.srai n) := fun h => by
  have hn := (inRange_iff 0 127 n).mp h
  exact fields_of_lt _ (show n < 256 by omega) zero_lt h
theorem slv : Statement .slv :=
  fields_of_lt _ zero_lt zero_lt
theorem srv : Statement .srv :=
  fields_of_lt _ zero_lt zero_lt
theorem srav : Statement .srav :=
  fields_of_lt _ zero_lt zero_lt
theorem mulw : Statement .mulw :=
  fields_of_lt _ zero_lt zero_lt
theorem mul10e : Statement .mul10e :=
  fields_of_lt _ zero_lt zero_lt
theorem wadd (n : Nat) : Statement (.wadd n) := fun h => by
  have hn := (inRange_iff 1 32 n).mp h
  exact fields_of_lt _ zero_lt (show n < 256 by omega) h
theorem wsub (n : Nat) : Statement (.wsub n) := fun h => by
  have hn := (inRange_iff 1 32 n).mp h
  exact fields_of_lt _ zero_lt (show n < 256 by omega) h
theorem wmul (shape : MulShape) : Statement (.wmul shape) :=
  fields_of_lt _ zero_lt (Nat.lt_of_le_of_lt (mulShapeCode_le shape) (by decide))
theorem divc (d : Divisor) : Statement (.divc d) :=
  fields_of_lt _ zero_lt (Nat.lt_of_le_of_lt (divisorCode_le d) (by decide))
theorem divdc (d : Divisor) : Statement (.divdc d) :=
  fields_of_lt _ zero_lt (Nat.lt_of_le_of_lt (divisorCode_le d) (by decide))
theorem bcdadd : Statement .bcdadd :=
  fields_of_lt _ zero_lt zero_lt
theorem bcdsub : Statement .bcdsub :=
  fields_of_lt _ zero_lt zero_lt
theorem bcdaddc : Statement .bcdaddc :=
  fields_of_lt _ zero_lt zero_lt
theorem bcdsubc : Statement .bcdsubc :=
  fields_of_lt _ zero_lt zero_lt
theorem bcdadde : Statement .bcdadde :=
  fields_of_lt _ zero_lt zero_lt
theorem bcdsube : Statement .bcdsube :=
  fields_of_lt _ zero_lt zero_lt
theorem bcdaddec : Statement .bcdaddec :=
  fields_of_lt _ zero_lt zero_lt
theorem bcdsubec : Statement .bcdsubec :=
  fields_of_lt _ zero_lt zero_lt
theorem bcdcmp (cond : Cond) : Statement (.bcdcmp cond) :=
  fields_of_lt _ (Nat.lt_of_le_of_lt (condCode_le cond) (by decide)) zero_lt
theorem bcdcpsgn : Statement .bcdcpsgn :=
  fields_of_lt _ zero_lt zero_lt
theorem bcdsetsgn : Statement .bcdsetsgn :=
  fields_of_lt _ zero_lt zero_lt
theorem bcdsl (n : Nat) : Statement (.bcdsl n) := fun h => by
  have hn := (inRange_iff 0 31 n).mp h
  exact fields_of_lt _ (show n < 256 by omega) zero_lt h
theorem bcdsr (n : Nat) : Statement (.bcdsr n) := fun h => by
  have hn := (inRange_iff 0 31 n).mp h
  exact fields_of_lt _ (show n < 256 by omega) zero_lt h
theorem bcdsrr (n : Nat) : Statement (.bcdsrr n) := fun h => by
  have hn := (inRange_iff 0 31 n).mp h
  exact fields_of_lt _ (show n < 256 by omega) zero_lt h
theorem bcdtrunc (k : Nat) : Statement (.bcdtrunc k) := fun h => by
  have hn := (inRange_iff 0 31 k).mp h
  exact fields_of_lt _ (show k < 256 by omega) zero_lt h
theorem bcdutrunc (k : Nat) : Statement (.bcdutrunc k) := fun h => by
  have hn := (inRange_iff 0 32 k).mp h
  exact fields_of_lt _ (show k < 256 by omega) zero_lt h
theorem bcdvalid (fmt : DecFormat) : Statement (.bcdvalid fmt) :=
  fields_of_lt _ zero_lt (Nat.lt_of_le_of_lt (decFormatCode_le fmt) (by decide))
theorem wbcdadd (n : Nat) : Statement (.wbcdadd n) := fun h => by
  have hn := (inRange_iff 1 32 n).mp h
  exact fields_of_lt _ zero_lt (show n < 256 by omega) h
theorem wbcdsub (n : Nat) : Statement (.wbcdsub n) := fun h => by
  have hn := (inRange_iff 1 32 n).mp h
  exact fields_of_lt _ zero_lt (show n < 256 by omega) h
theorem cvb2d : Statement .cvb2d :=
  fields_of_lt _ zero_lt zero_lt
theorem cvd2b : Statement .cvd2b :=
  fields_of_lt _ zero_lt zero_lt
theorem cvz2d : Statement .cvz2d :=
  fields_of_lt _ zero_lt zero_lt
theorem cvd2z : Statement .cvd2z :=
  fields_of_lt _ zero_lt zero_lt
theorem lcvb2d (n : Nat) (fmt : Divisor) : Statement (.lcvb2d n fmt) := fun h => by
  have hn : inRange 1 16 n = true := (Bool.and_eq_true _ _ ▸ h : _ ∧ _).1
  rw [inRange_iff] at hn
  have hd := divisorCode_le fmt
  exact fields_of_lt _ (show divisorCode fmt < 256 by omega) (show n < 256 by omega) h
theorem lcvd2b (k : Nat) (fmt : Divisor) : Statement (.lcvd2b k fmt) := fun h => by
  have hn : inRange 1 32 k = true := (Bool.and_eq_true _ _ ▸ h : _ ∧ _).1
  rw [inRange_iff] at hn
  have hd := divisorCode_le fmt
  exact fields_of_lt _ (show divisorCode fmt < 256 by omega) (show k < 256 by omega) h
theorem bcdmull : Statement .bcdmull :=
  fields_of_lt _ zero_lt zero_lt
theorem bcdmulh : Statement .bcdmulh :=
  fields_of_lt _ zero_lt zero_lt
theorem bcdmulf : Statement .bcdmulf :=
  fields_of_lt _ zero_lt zero_lt
theorem bcddiv : Statement .bcddiv :=
  fields_of_lt _ zero_lt zero_lt

end Sys2Proof.Laws.EncodeFields
end

