-- ==== Sys2Proof/Laws/Techniques.lean ====
section
/-! SUPPORT. What the column sums of the block decomposition give (R97). -/

namespace Sys2Proof.Machine

@[simp] theorem blocksVal_nil : blocksVal [] = 0 := rfl
@[simp] theorem blocksVal_cons (x : Nat) (xs : List Nat) :
    blocksVal (x :: xs) = x + 2 ^ 512 * blocksVal xs := rfl

@[simp] theorem carryColumns_length (xs : List Nat) (c : Nat) :
    (carryColumns xs c).1.length = xs.length := by
  induction xs generalizing c with
  | nil => rfl
  | cons x xs ih => simp [carryColumns, ih]

/-- Every reduced column fits 512 bits. -/
theorem carryColumns_lt {xs : List Nat} {c y : Nat} (h : y ∈ (carryColumns xs c).1) : y < 2 ^ 512 := by
  induction xs generalizing c with
  | nil => exact absurd h List.not_mem_nil
  | cons x xs ih =>
    rcases List.mem_cons.mp h with rfl | h
    · exact Nat.mod_lt _ (Nat.two_pow_pos 512)
    · exact ih h

/-- Passing the carries on loses nothing: the reduced columns and the carry out have the value of the
unreduced columns and the carry in. -/
theorem carryColumns_exact (xs : List Nat) (c : Nat) :
    blocksVal (carryColumns xs c).1 + (2 ^ 512) ^ xs.length * (carryColumns xs c).2
      = blocksVal xs + c := by
  induction xs generalizing c with
  | nil => simp [carryColumns]
  | cons x xs ih =>
    have h := ih ((x + c) / 2 ^ 512)
    have hm := Nat.mod_add_div (x + c) (2 ^ 512)
    simp only [carryColumns, blocksVal_cons, List.length_cons, pow_succ _ xs.length]
    linear_combination (2 : Nat) ^ 512 * h + hm

end Sys2Proof.Machine
end

