-- ==== Sys2Proof/Machine/Assembly.lean ====
section
/-! DEFINITION. The assembler's spelling of an operation and the pseudo-operations
(`30_encoding.md` R61, R62). Host-side notation: no result of the unit depends on it. -/

namespace Sys2Proof.Machine

/-- The mnemonic (R52). -/
def mnemonic : Instr → String
  | .addc => "ADDC"
  | .adde => "ADDE"
  | .subc => "SUBC"
  | .sube => "SUBE"
  | .cmpu _ => "CMPU"
  | .sli _ => "SLI"
  | .sri _ => "SRI"
  | .srai _ => "SRAI"
  | .slv => "SLV"
  | .srv => "SRV"
  | .srav => "SRAV"
  | .mulw => "MULW"
  | .mul10e => "MUL10E"
  | .wadd _ => "WADD"
  | .wsub _ => "WSUB"
  | .wmul _ => "WMUL"
  | .divc _ => "DIVC"
  | .divdc _ => "DIVDC"
  | .bcdadd => "BCDADD"
  | .bcdsub => "BCDSUB"
  | .bcdaddc => "BCDADDC"
  | .bcdsubc => "BCDSUBC"
  | .bcdadde => "BCDADDE"
  | .bcdsube => "BCDSUBE"
  | .bcdaddec => "BCDADDEC"
  | .bcdsubec => "BCDSUBEC"
  | .bcdcmp _ => "BCDCMP"
  | .bcdcpsgn => "BCDCPSGN"
  | .bcdsetsgn => "BCDSETSGN"
  | .bcdsl _ => "BCDSL"
  | .bcdsr _ => "BCDSR"
  | .bcdsrr _ => "BCDSRR"
  | .bcdtrunc _ => "BCDTRUNC"
  | .bcdutrunc _ => "BCDUTRUNC"
  | .bcdvalid _ => "BCDVALID"
  | .wbcdadd _ => "WBCDADD"
  | .wbcdsub _ => "WBCDSUB"
  | .cvb2d => "CVB2D"
  | .cvd2b => "CVD2B"
  | .cvz2d => "CVZ2D"
  | .cvd2z => "CVD2Z"
  | .lcvb2d _ _ => "LCVB2D"
  | .lcvd2b _ _ => "LCVD2B"
  | .bcdmull => "BCDMULL"
  | .bcdmulh => "BCDMULH"
  | .bcdmulf => "BCDMULF"
  | .bcddiv => "BCDDIV"

/-- The name of a condition (R55). -/
def condName : Cond → String
  | .eq => "EQ"
  | .ne => "NE"
  | .lt => "LT"
  | .le => "LE"
  | .gt => "GT"
  | .ge => "GE"

/-- The suffix of a multiply shape (R56). -/
def mulShapeName : MulShape → String
  | .m128x128 => "128x128"
  | .m256x256 => "256x256"
  | .m512x128 => "512x128"
  | .m512x512 => "512x512"
  | .m1024x1024 => "1024x1024"
  | .m2048x2048 => "2048x2048"

/-- The suffix of a divisor (R57). -/
def divisorName : Divisor → String
  | .e16 => "10e16"
  | .e31 => "10e31"
  | .e32 => "10e32"

/-- The suffix of a BCDVALID format (R61). -/
def decFormatName : DecFormat → String
  | .packed => "s"
  | .unsigned => "u"

/-- The `.<shape>` part of a line (R61). -/
def shapePart : Instr → String
  | .wadd n | .wsub n | .wbcdadd n | .wbcdsub n => "." ++ toString n
  | .wmul shape => "." ++ mulShapeName shape
  | .divc d | .divdc d => "." ++ divisorName d
  | .bcdvalid fmt => "." ++ decFormatName fmt
  | .lcvb2d n _ | .lcvd2b n _ => "." ++ toString n
  | .addc | .adde | .subc | .sube | .cmpu _ | .sli _ | .sri _ | .srai _ | .slv | .srv | .srav
  | .mulw | .mul10e | .bcdadd | .bcdsub | .bcdaddc | .bcdsubc | .bcdadde | .bcdsube | .bcdaddec
  | .bcdsubec | .bcdcmp _ | .bcdcpsgn | .bcdsetsgn | .bcdsl _ | .bcdsr _ | .bcdsrr _
  | .bcdtrunc _ | .bcdutrunc _ | .cvb2d | .cvd2b | .cvz2d | .cvd2z | .bcdmull | .bcdmulh
  | .bcdmulf | .bcddiv => ""

/-- The `#<imm>` part of a line (R61). -/
def immPart : Instr → String
  | .cmpu c | .bcdcmp c => "#" ++ condName c
  | .sli n | .sri n | .srai n | .bcdsl n | .bcdsr n | .bcdsrr n | .bcdtrunc n | .bcdutrunc n =>
    "#" ++ toString n
  | .lcvb2d _ fmt | .lcvd2b _ fmt => "#" ++ divisorName fmt
  | .addc | .adde | .subc | .sube | .slv | .srv | .srav | .mulw | .mul10e | .wadd _ | .wsub _
  | .wmul _ | .divc _ | .divdc _ | .bcdadd | .bcdsub | .bcdaddc | .bcdsubc | .bcdadde
  | .bcdsube | .bcdaddec | .bcdsubec | .bcdcpsgn | .bcdsetsgn | .bcdvalid _ | .wbcdadd _
  | .wbcdsub _ | .cvb2d | .cvd2b | .cvz2d | .cvd2z | .bcdmull | .bcdmulh | .bcdmulf | .bcddiv => ""

/-- The operation as one line names it: `MNEMONIC[.<shape>][#<imm>]` (R61). -/
def asmName (i : Instr) : String := mnemonic i ++ shapePart i ++ immPart i

/-! ## Pseudo-operations (R62) -/

/-- Which result fields the host keeps of a response. -/
structure Kept where
  r : Bool
  s : Bool
  t : Bool
deriving DecidableEq, Repr

/-- The pseudo-operations (R62). -/
inductive Pseudo where
  | addCarry
  | addExtended
  | wideningMul
  | mul10Extended
  | addN (n : Nat)
  | subtractN (n : Nat)
  | mulNM (shape : MulShape)
  | divModConst (d : Divisor)
  | divModConstDouble (d : Divisor)
  | bcdAdd
  | bcdAddCarry
  | binaryToBcd
  | bcdToBinary
  | add
  | sub
  | divq (d : Divisor)
  | modc (d : Divisor)
deriving DecidableEq, Repr

/-- The one operation a pseudo-operation stands for (R62). -/
def pseudoInstr : Pseudo → Instr
  | .addCarry => .addc
  | .addExtended => .adde
  | .wideningMul => .mulw
  | .mul10Extended => .mul10e
  | .addN n => .wadd n
  | .subtractN n => .wsub n
  | .mulNM shape => .wmul shape
  | .divModConst d => .divc d
  | .divModConstDouble d => .divdc d
  | .bcdAdd => .bcdadd
  | .bcdAddCarry => .bcdaddc
  | .binaryToBcd => .cvb2d
  | .bcdToBinary => .cvd2b
  | .add => .addc
  | .sub => .subc
  | .divq d => .divc d
  | .modc d => .divc d

/-- The result fields the host keeps (R62). -/
def pseudoKept : Pseudo → Kept
  | .addCarry | .addExtended | .addN _ | .subtractN _ => ⟨true, false, true⟩
  | .wideningMul | .divModConst _ | .divModConstDouble _ | .bcdAddCarry => ⟨true, true, false⟩
  | .mul10Extended | .mulNM _ | .bcdAdd | .binaryToBcd | .bcdToBinary | .add | .sub | .divq _ =>
    ⟨true, false, false⟩
  | .modc _ => ⟨false, true, false⟩

end Sys2Proof.Machine
end

