-- ==== Sys2Proof/Tests/Slice0.lean ====
section
/-! SUPPORT. Tests of the model: ill-formed terms, command words written out from the encoding tables, one or
two vectors of `95_test_vectors.md` an operation, and for each statement with hypotheses a witness that
something meets them. Expected values come from the spec. -/

namespace Sys2Proof.Tests

open Sys2Proof Sys2Proof.Machine

/-! ## Well-formed terms (R53, R54): each check refuses an ill-formed one -/

theorem test_wellFormed_shift_counts : Instr.wellFormed (.sli 127) = true
    ∧ Instr.wellFormed (.sli 128) = false ∧ Instr.wellFormed (.sri 128) = false
    ∧ Instr.wellFormed (.srai 128) = false := by decide
theorem test_wellFormed_limb_counts : Instr.wellFormed (.wadd 32) = true
    ∧ Instr.wellFormed (.wadd 0) = false ∧ Instr.wellFormed (.wadd 33) = false
    ∧ Instr.wellFormed (.wsub 0) = false ∧ Instr.wellFormed (.wsub 33) = false := by decide
theorem test_wellFormed_digit_counts : Instr.wellFormed (.bcdsl 31) = true
    ∧ Instr.wellFormed (.bcdsl 32) = false ∧ Instr.wellFormed (.bcdsr 32) = false
    ∧ Instr.wellFormed (.bcdsrr 32) = false ∧ Instr.wellFormed (.bcdtrunc 32) = false
    ∧ Instr.wellFormed (.bcdutrunc 32) = true ∧ Instr.wellFormed (.bcdutrunc 33) = false := by decide
theorem test_wellFormed_element_counts : Instr.wellFormed (.wbcdadd 1) = true
    ∧ Instr.wellFormed (.wbcdadd 0) = false ∧ Instr.wellFormed (.wbcdadd 33) = false
    ∧ Instr.wellFormed (.wbcdsub 0) = false ∧ Instr.wellFormed (.wbcdsub 33) = false := by decide
theorem test_wellFormed_divisors : Instr.wellFormed (.divc .e16) = true
    ∧ Instr.wellFormed (.divdc .e31) = true ∧ Instr.wellFormed (.divdc .e16) = false := by decide
theorem test_wellFormed_long_conversions : Instr.wellFormed (.lcvb2d 16 .e31) = true
    ∧ Instr.wellFormed (.lcvb2d 0 .e31) = false ∧ Instr.wellFormed (.lcvb2d 17 .e32) = false
    ∧ Instr.wellFormed (.lcvb2d 4 .e16) = false ∧ Instr.wellFormed (.lcvd2b 32 .e32) = true
    ∧ Instr.wellFormed (.lcvd2b 0 .e31) = false ∧ Instr.wellFormed (.lcvd2b 33 .e31) = false
    ∧ Instr.wellFormed (.lcvd2b 4 .e16) = false := by decide

/-! ## Command words, written out from R51 to R57: `RSV SHP IMM OPC`, a byte each -/

theorem test_decode_limb :
    decodeTableWord 32 0x00000010 = some .addc
    ∧ decodeTableWord 32 0x00000011 = some .adde
    ∧ decodeTableWord 32 0x00000012 = some .subc
    ∧ decodeTableWord 32 0x00000013 = some .sube
    ∧ decodeTableWord 32 0x00000514 = some (.cmpu .ge)
    ∧ decodeTableWord 32 0x00007F15 = some (.sli 127)
    ∧ decodeTableWord 32 0x00000116 = some (.sri 1)
    ∧ decodeTableWord 32 0x00000417 = some (.srai 4)
    ∧ decodeTableWord 32 0x00000018 = some .slv
    ∧ decodeTableWord 32 0x00000019 = some .srv
    ∧ decodeTableWord 32 0x0000001A = some .srav
    ∧ decodeTableWord 32 0x0000001B = some .mulw
    ∧ decodeTableWord 32 0x0000001C = some .mul10e := by decide +kernel
theorem test_decode_wide :
    decodeTableWord 32 0x00200020 = some (.wadd 32)
    ∧ decodeTableWord 32 0x00010021 = some (.wsub 1)
    ∧ decodeTableWord 32 0x00050022 = some (.wmul .m2048x2048)
    ∧ decodeTableWord 32 0x00020022 = some (.wmul .m512x128) := by decide +kernel
theorem test_decode_divisor :
    decodeTableWord 32 0x00000030 = some (.divc .e16)
    ∧ decodeTableWord 32 0x00020030 = some (.divc .e32)
    ∧ decodeTableWord 32 0x00010031 = some (.divdc .e31) := by decide +kernel
theorem test_decode_bcd :
    decodeTableWord 32 0x00000040 = some .bcdadd
    ∧ decodeTableWord 32 0x00000041 = some .bcdsub
    ∧ decodeTableWord 32 0x00000042 = some .bcdaddc
    ∧ decodeTableWord 32 0x00000043 = some .bcdsubc
    ∧ decodeTableWord 32 0x00000044 = some .bcdadde
    ∧ decodeTableWord 32 0x00000045 = some .bcdsube
    ∧ decodeTableWord 32 0x00000046 = some .bcdaddec
    ∧ decodeTableWord 32 0x00000047 = some .bcdsubec
    ∧ decodeTableWord 32 0x00000348 = some (.bcdcmp .le)
    ∧ decodeTableWord 32 0x00000049 = some .bcdcpsgn
    ∧ decodeTableWord 32 0x0000004A = some .bcdsetsgn
    ∧ decodeTableWord 32 0x00001F4B = some (.bcdsl 31)
    ∧ decodeTableWord 32 0x0000024C = some (.bcdsr 2)
    ∧ decodeTableWord 32 0x0000034D = some (.bcdsrr 3)
    ∧ decodeTableWord 32 0x0000074E = some (.bcdtrunc 7)
    ∧ decodeTableWord 32 0x0000204F = some (.bcdutrunc 32)
    ∧ decodeTableWord 32 0x00010050 = some (.bcdvalid .unsigned)
    ∧ decodeTableWord 32 0x00200051 = some (.wbcdadd 32)
    ∧ decodeTableWord 32 0x00030052 = some (.wbcdsub 3) := by decide +kernel
theorem test_decode_radix :
    decodeTableWord 32 0x00000060 = some .cvb2d
    ∧ decodeTableWord 32 0x00000061 = some .cvd2b
    ∧ decodeTableWord 32 0x00000062 = some .cvz2d
    ∧ decodeTableWord 32 0x00000063 = some .cvd2z
    ∧ decodeTableWord 32 0x00100264 = some (.lcvb2d 16 .e32)
    ∧ decodeTableWord 32 0x00200165 = some (.lcvd2b 32 .e31) := by decide +kernel
theorem test_decode_decimal_muldiv :
    decodeTableWord 32 0x00000070 = some .bcdmull
    ∧ decodeTableWord 32 0x00000071 = some .bcdmulh
    ∧ decodeTableWord 32 0x00000072 = some .bcdmulf
    ∧ decodeTableWord 32 0x00000073 = some .bcddiv := by decide +kernel
theorem test_decode_refused :
    decode 0x0000001D#32 = .error .illegalOpcode ∧ decode 0x01FFFF10#32 = .error .reservedNonzero
    ∧ decode 0x00060022#32 = .error .illegalShape ∧ decode 0x00000031#32 = .error .illegalShape
    ∧ decode 0x00010064#32 = .error .illegalImmediate
    ∧ decode 0x0000204B#32 = .error .illegalImmediate := ⟨rfl, rfl, rfl, rfl, rfl, rfl⟩
theorem test_fetch_word : (State.reset.withFetchWord 32 0x00000015).inflight.map Request.cw
    = some 0x00000015#32 := by decide

/-! ## One transaction on a small state: vectors of `95_test_vectors.md` -/

/-- The unit with one request in flight. -/
def inFlight (q : Request) : State where
  resetLine := false
  inflight := some q
  hostQueue := []
  delivered := []

/-- A request whose ports hold these slots. -/
def request (cw : CmdWord) (a b : List Limb) (c : Limb) : Request where
  cw := cw
  a := portOf a
  b := portOf b
  c := c

/-- The response one step delivers. -/
def answer (cw : CmdWord) (a b : List Limb) (c : Limb) : Option Response :=
  match step (inFlight (request cw a b c)) with
  | .next s => s.delivered.head?
  | .fault _ => none
  | .refused _ => none

theorem test_addc_one : answer 0x00000010#32 [0xffffffffffffffffffffffffffffffff]
    [0xffffffffffffffffffffffffffffffff] 0 = some (Response.ok [0xfffffffffffffffffffffffffffffffe]
    0 true) := by decide +kernel
theorem test_addc_two : answer 0x00000010#32 [0x80000000000000000000000000000001]
    [0x80000000000000000000000000000001] 0 = some (Response.ok [0x2] 0 true) := by decide +kernel
theorem test_adde : answer 0x00000011#32 [0xffffffffffffffffffffffffffffffff]
    [0xffffffffffffffffffffffffffffffff] 0x1 = some (Response.ok
    [0xffffffffffffffffffffffffffffffff] 0 true) := by decide +kernel
theorem test_subc_one : answer 0x00000012#32 [0x0] [0x1] 0 = some (Response.ok
    [0xffffffffffffffffffffffffffffffff] 0 false) := by decide +kernel
theorem test_subc_two : answer 0x00000012#32 [0x5] [0x5] 0 = some (Response.ok [0x0] 0 true)
    := by decide +kernel
theorem test_sube : answer 0x00000013#32 [0x5] [0x5] 0x1 = some (Response.ok [0x0] 0 true)
    := by decide +kernel
theorem test_cmpu_one : answer 0x00000114#32 [0x80000000000000000000000000000001] [0x1] 0 = some
    (Response.ok [] 0 true) := by decide +kernel
theorem test_cmpu_two : answer 0x00000014#32 [0x80000000000000000000000000000001] [0x1] 0 = some
    (Response.ok [] 0 false) := by decide +kernel
theorem test_sli : answer 0x00001115#32 [0x123456789abcdef0123456789abcdef] [] 0 = some (Response.ok
    [0x8acf13579bde02468acf13579bde0000] 0 false) := by decide +kernel
theorem test_sri : answer 0x00000116#32 [0x80000000000000000000000000000001] [] 0 = some
    (Response.ok [0x40000000000000000000000000000000] 0 false) := by decide +kernel
theorem test_srai_one : answer 0x00000117#32 [0x80000000000000000000000000000001] [] 0 = some
    (Response.ok [0xc0000000000000000000000000000000] 0 false) := by decide +kernel
theorem test_srai_two : answer 0x00000417#32 [0x40000000000000000000000000000000] [] 0 = some
    (Response.ok [0x4000000000000000000000000000000] 0 false) := by decide +kernel
theorem test_slv : answer 0x00000018#32 [0x123456789abcdef0123456789abcdef] [0x11] 0 = some
    (Response.ok [0x8acf13579bde02468acf13579bde0000] 0 false) := by decide +kernel
theorem test_srv : answer 0x00000019#32 [0x80000000000000000000000000000001] [0x7f] 0 = some
    (Response.ok [0x1] 0 false) := by decide +kernel
theorem test_srav : answer 0x0000001A#32 [0x80000000000000000000000000000001] [0x7f] 0 = some
    (Response.ok [0xffffffffffffffffffffffffffffffff] 0 false) := by decide +kernel
theorem test_mulw : answer 0x0000001B#32 [0x123456789abcdef0123456789abcdef]
    [0x4ee2d6d415b85acef8100000000] 0 = some (Response.ok [0x1663f58f2dc747144c68e66f00000000]
    0x59c13d3eac9fb0f25c9db1aff false) := by decide +kernel
theorem test_mul10e : answer 0x0000001C#32 [0xffffffffffffffffffffffffffffffff] [0x9] 0 = some
    (Response.ok [0xffffffffffffffffffffffffffffffff] 0x9 false) := by decide +kernel
theorem test_wadd : answer 0x00040020#32 [0xffffffffffffffffffffffffffffffff,
    0xffffffffffffffffffffffffffffffff, 0xffffffffffffffffffffffffffffffff,
    0xffffffffffffffffffffffffffffffff] [0xffffffffffffffffffffffffffffffff,
    0xffffffffffffffffffffffffffffffff, 0xffffffffffffffffffffffffffffffff,
    0xffffffffffffffffffffffffffffffff] 0 = some (Response.ok [0xfffffffffffffffffffffffffffffffe,
    0xffffffffffffffffffffffffffffffff, 0xffffffffffffffffffffffffffffffff,
    0xffffffffffffffffffffffffffffffff] 0 true) := by decide +kernel
theorem test_wsub_one : answer 0x00020021#32 [0x1, 0x0] [0x2, 0xfedcba9876543210fedcba9876543210] 0
    = some (Response.ok [0xffffffffffffffffffffffffffffffff, 0x123456789abcdef0123456789abcdef] 0
    false) := by decide +kernel
theorem test_wsub_two : answer 0x00040021#32 [0x0, 0x0, 0x0, 0x1] [0x1, 0x0, 0x0, 0x0] 0 = some
    (Response.ok [0xffffffffffffffffffffffffffffffff, 0xffffffffffffffffffffffffffffffff,
    0xffffffffffffffffffffffffffffffff, 0x0] 0 true) := by decide +kernel
theorem test_wmul : answer 0x00020022#32 [0xffffffffffffffffffffffffffffffff,
    0xffffffffffffffffffffffffffffffff, 0xffffffffffffffffffffffffffffffff,
    0xffffffffffffffffffffffffffffffff] [0xffffffffffffffffffffffffffffffff] 0 = some (Response.ok
    [0x1, 0xffffffffffffffffffffffffffffffff, 0xffffffffffffffffffffffffffffffff,
    0xffffffffffffffffffffffffffffffff, 0xfffffffffffffffffffffffffffffffe] 0 false)
    := by decide +kernel
theorem test_divc : answer 0x00000030#32 [0x123456789abcdef0123456789abcdef] [] 0 = some
    (Response.ok [0x832d45d4101a19528] 0x220b19be83cdef false) := by decide +kernel
theorem test_divdc : answer 0x00010031#32 [0x123456789abcdef0123456789abcdef, 0x3039] [] 0 = some
    (Response.ok [0x61cea4c790] 0x3fdf78f58e1e54123f89abcdef false) := by decide +kernel
theorem test_bcdadd_one : answer 0x00000040#32 [0x5a] [0x7f] 0 = some (Response.ok [0x12c] 0 false)
    := by decide +kernel
theorem test_bcdadd_two : answer 0x00000040#32 [0x1000000000000000000000000000008c]
    [0x9000000000000000000000000000008c] 0 = some (Response.ok [0x16c] 0 false) := by decide +kernel
theorem test_bcdsub : answer 0x00000041#32 [0x1000000000000000000000000000008c]
    [0x9000000000000000000000000000008d] 0 = some (Response.ok [0x16c] 0 false) := by decide +kernel
theorem test_bcdaddc_one : answer 0x00000042#32 [0x1000000000000000000000000000008c]
    [0x9000000000000000000000000000008c] 0 = some (Response.ok [0x16c] 0x1c false)
    := by decide +kernel
theorem test_bcdaddc_two : answer 0x00000042#32 [0x1000000000000000000000000000008d]
    [0x9000000000000000000000000000008d] 0 = some (Response.ok [0x16d] 0x1d false)
    := by decide +kernel
theorem test_bcdsubc_one : answer 0x00000043#32 [0x1000000000000000000000000000008c]
    [0x9000000000000000000000000000008d] 0 = some (Response.ok [0x16c] 0x1c false)
    := by decide +kernel
theorem test_bcdsubc_two : answer 0x00000043#32 [0x9000000000000000000000000000008d]
    [0x1000000000000000000000000000008c] 0 = some (Response.ok [0x16d] 0x1d false)
    := by decide +kernel
theorem test_bcdadde : answer 0x00000044#32 [0x1000000000000000000000000000008c]
    [0x9000000000000000000000000000008c] 0x1d = some (Response.ok [0x15c] 0 false)
    := by decide +kernel
theorem test_bcdsube : answer 0x00000045#32 [0x1000000000000000000000000000008c]
    [0x9000000000000000000000000000008c] 0x1d = some (Response.ok
    [0x8000000000000000000000000000001d] 0 false) := by decide +kernel
theorem test_bcdaddec_one : answer 0x00000046#32 [0x1000000000000000000000000000008c]
    [0x9000000000000000000000000000008c] 0x1d = some (Response.ok [0x15c] 0x1c false)
    := by decide +kernel
theorem test_bcdaddec_two : answer 0x00000046#32 [0x1000000000000000000000000000008c]
    [0x9000000000000000000000000000008c] 0x1c = some (Response.ok [0x17c] 0x1c false)
    := by decide +kernel
theorem test_bcdsubec_one : answer 0x00000047#32 [0x1000000000000000000000000000008c]
    [0x9000000000000000000000000000008c] 0x1d = some (Response.ok
    [0x1999999999999999999999999999999c] 0x1d false) := by decide +kernel
theorem test_bcdsubec_two : answer 0x00000047#32 [0x1000000000000000000000000000008c]
    [0x9000000000000000000000000000008c] 0x1c = some (Response.ok
    [0x2000000000000000000000000000001c] 0x1d false) := by decide +kernel
theorem test_bcdcmp_one : answer 0x00000148#32 [0x5d] [0x3c] 0 = some (Response.ok [] 0 true)
    := by decide +kernel
theorem test_bcdcmp_two : answer 0x00000048#32 [0x5d] [0x3c] 0 = some (Response.ok [] 0 false)
    := by decide +kernel
theorem test_bcdcpsgn : answer 0x00000049#32 [0x123c] [0x9d] 0 = some (Response.ok [0x123d] 0 false)
    := by decide +kernel
theorem test_bcdsetsgn_one : answer 0x0000004A#32 [0x123a] [] 0 = some (Response.ok [0x123c] 0
    false) := by decide +kernel
theorem test_bcdsetsgn_two : answer 0x0000004A#32 [0x123b] [] 0 = some (Response.ok [0x123d] 0
    false) := by decide +kernel
theorem test_bcdsl : answer 0x0000034B#32 [0x1234567890123456789012345678901d] [] 0 = some
    (Response.ok [0x4567890123456789012345678901000d] 0 false) := by decide +kernel
theorem test_bcdsr : answer 0x0000034C#32 [0x1234567890123456789012345678901d] [] 0 = some
    (Response.ok [0x1234567890123456789012345678d] 0 false) := by decide +kernel
theorem test_bcdsrr_one : answer 0x0000024D#32 [0x995c] [] 0 = some (Response.ok [0x10c] 0 false)
    := by decide +kernel
theorem test_bcdsrr_two : answer 0x00001F4D#32 [0x1234567890123456789012345678901d] [] 0 = some
    (Response.ok [0xc] 0 false) := by decide +kernel
theorem test_bcdtrunc : answer 0x0000074E#32 [0x1234567890123456789012345678901d] [] 0 = some
    (Response.ok [0x5678901d] 0 false) := by decide +kernel
theorem test_bcdutrunc : answer 0x0000074F#32 [0x12345678901234567890123456789012] [] 0 = some
    (Response.ok [0x6789012] 0 false) := by decide +kernel
theorem test_bcdvalid_one : answer 0x00000050#32 [0x123a] [] 0 = some (Response.ok [] 0 true)
    := by decide +kernel
theorem test_bcdvalid_two : answer 0x00000050#32 [0x1237] [] 0 = some (Response.ok [] 0 false)
    := by decide +kernel
theorem test_wbcdadd_one : answer 0x00030051#32 [0x1c, 0xc, 0xc] [0xc, 0xc, 0x1d] 0 = some
    (Response.ok [0xc, 0x9999999999999999999999999999999c, 0x9999999999999999999999999999999c] 0xc
    false) := by decide +kernel
theorem test_wbcdadd_two : answer 0x00020051#32 [0x2c, 0x1000000000000000000000000000008c] [0x1d,
    0x9000000000000000000000000000008d] 0 = some (Response.ok [0xc,
    0x2000000000000000000000000000000c] 0xc false) := by decide +kernel
theorem test_wbcdsub : answer 0x00020052#32 [0x5c, 0xc] [0xc, 0x1c] 0 = some (Response.ok [0x4c,
    0x9999999999999999999999999999999c] 0xc false) := by decide +kernel
theorem test_cvb2d : answer 0x00000060#32 [0x9bd30a3c645943dd1690a03a14] [] 0 = some (Response.ok
    [0x12345678901234567890123456789012] 0 false) := by decide +kernel
theorem test_cvd2b : answer 0x00000061#32 [0x99999999999999999999999999999999] [] 0 = some
    (Response.ok [0x4ee2d6d415b85acef80ffffffff] 0 false) := by decide +kernel
theorem test_lcvb2d_one : answer 0x00010164#32 [0xffffffffffffffffffffffffffffffff] [] 0 = some
    (Response.ok [0x34028236c, 0x6920938463463374607431768211455c] 0 false) := by decide +kernel
theorem test_lcvb2d_two : answer 0x00020264#32 [0xffffffffffffffffffffffffffffffff,
    0xffffffffffffffffffffffffffffffff] [] 0 = some (Response.ok [0x11579208923731,
    0x61954235709850086879078532699846, 0x65640564039457584007913129639935] 0 false)
    := by decide +kernel
theorem test_lcvd2b_one : answer 0x00020165#32 [0x34028236c, 0x6920938463463374607431768211455c] []
    0 = some (Response.ok [0xffffffffffffffffffffffffffffffff, 0x0] 0 false) := by decide +kernel
theorem test_lcvd2b_two : answer 0x00030265#32 [0x11579208923731,
    0x61954235709850086879078532699846, 0x65640564039457584007913129639935] [] 0 = some (Response.ok
    [0xffffffffffffffffffffffffffffffff, 0xffffffffffffffffffffffffffffffff, 0x0] 0 false)
    := by decide +kernel
theorem test_bcdmull : answer 0x00000070#32 [0x12345678901234567890c] [0x98765432109876543210c] 0 =
    some (Response.ok [0x1370217952237463801111263526900c] 0 false) := by decide +kernel
theorem test_bcdmulh : answer 0x00000071#32 [0x12345678901234567890c] [0x98765432109876543210c] 0 =
    some (Response.ok [0x121932631c] 0 false) := by decide +kernel
theorem test_bcdmulf_one : answer 0x00000072#32 [0x1234567890123456c] [0x9876543210987654d] 0 = some
    (Response.ok [0x2193263113702171333485751812224d] 0x1d false) := by decide +kernel
theorem test_bcdmulf_two : answer 0x00000072#32 [0x9999999999999999999999999999999c]
    [0x9999999999999999999999999999999c] 0 = some (Response.ok [0x1c]
    0x9999999999999999999999999999998c false) := by decide +kernel
theorem test_bcddiv_one : answer 0x00000073#32 [0x7c] [0x2c] 0 = some (Response.ok [0x3c] 0 false)
    := by decide +kernel
theorem test_bcddiv_two : answer 0x00000073#32 [0x7d] [0x2c] 0 = some (Response.ok [0x3d] 0 false)
    := by decide +kernel

/-! The zoned conversions with no zone code assumed: the digits and the bytes of the vectors of 2.5. -/

theorem test_zoned_digits :
    zonedDigits 16 0x31323334353637383930313233343576 = 0x1234567890123456 := by decide +kernel
theorem test_zoned_bytes : zonedBytes 3 15 0x123456789012345 = 0x313233343536373839303132333435 := by
  decide +kernel

/-! Open values: the operation completes with `rsp.err` 0 (R121, R193). -/

theorem test_open_values_complete :
    ([(0x00000040#32, [0x1237#128], [0x1C#128]), (0x00000073#32, [0x1C#128], [0x0C#128]),
      (0x00000018#32, [1#128], [128#128])].map fun x => (answer x.1 x.2.1 x.2.2 0).map Response.err)
      = [some 0, some 0, some 0] := by decide +kernel

/-! Illegal words (2.7). -/

theorem test_error_responses :
    ([0x0000001D#32, 0x01FFFF10#32, 0x00060022#32, 0x00000614#32].map fun cw => answer cw [1] [2] 3)
      = [some ⟨0, 0, false, 1⟩, some ⟨0, 0, false, 2⟩, some ⟨0, 0, false, 3⟩, some ⟨0, 0, false, 4⟩] := by
  decide +kernel

/-! Field operations, were `P_FIELDOP_NORM` 1 (R120). -/

theorem test_normSign : normSign 0x1B#128 = 0x1D#128 ∧ normSign 0x0D#128 = 0x0C#128
    ∧ normSign 0x1F#128 = 0x1C#128 ∧ normSign 0x17#128 = 0x17#128 := by decide

/-! The largest product of R94 for 1024 bits, by the block columns of R97: its columns and no carry out. -/

theorem test_block_products : blockProducts 2 (2 ^ 1024 - 1) (2 ^ 1024 - 1)
    = ([1, 0, 2 ^ 512 - 2, 2 ^ 512 - 1], 0) := by decide +kernel

/-! The trace of R163 (and of R166, read upward), and one division by the magic constant (R107). -/

theorem test_split_trace :
    onFields splitField (10 ^ 16) 64 1 0x0000009BD30A3C645943DD1690A03A14
      = 0x000462D53C8ABAC0001C080685E03A14
    ∧ onFields splitField (10 ^ 4) 16 4 0x00BC614E055F2CC004B3EFF203628814
      = 0x04D2162E23340D801ED204D2162E2334
    ∧ splitPipeline 0x0000009BD30A3C645943DD1690A03A14 = 0x12345678901234567890123456789012
    ∧ joinPipeline 0x12345678901234567890123456789012 = 0x0000009BD30A3C645943DD1690A03A14 := by
  decide +kernel

theorem test_magic_divide : magicDivide .e16 0x123456789abcdef0123456789abcdef
    = (0x832d45d4101a19528, 0x220b19be83cdef) := by decide +kernel

/-! ## Witnesses: something meets the hypotheses of each statement that has any -/

/-- Two valid decimal operands, +3 and −2, carry-in −1, under command word `cw`. -/
def decimalRequest (cw : CmdWord) : Request := request cw [0x3C] [0x2D] 0x1D

/-- Two elements an operand, all of sign class +. -/
def decimalSequences (cw : CmdWord) : Request := request cw [0x1C, 0x8C] [0x1D, 0x9C] 0

/-- A state with a request in flight, one waiting and one response delivered. -/
def busy (q : Request) : State where
  resetLine := false
  inflight := some q
  hostQueue := [decimalRequest 0x40]
  delivered := [{ r := 0, s := 0, t := false, err := 3 }]

theorem witness_Answers : (busy (decimalRequest 0x40)).inflight = some (decimalRequest 0x40) := rfl
theorem witness_DecodeOfEncodeIsTheOperation :
    [Instr.addc, .sli 0, .sli 127, .wadd 1, .wadd 32, .bcdutrunc 32, .lcvb2d 16 .e32, .lcvd2b 32 .e31].all
      Instr.wellFormed = true := by decide
theorem witness_DecodedWordIsItsEncoding : decode 0x00100264#32 = .ok (.lcvb2d 16 .e32) := rfl
theorem witness_EveryRequestGetsOneResponse : (busy (decimalRequest 0x40)).resetLine = false
    ∧ (busy (decimalRequest 0x40)).inflight = some (decimalRequest 0x40)
    ∧ decode (decimalRequest 0x40).cw = .ok .bcdadd := ⟨rfl, rfl, rfl⟩
theorem witness_StepRunsTheDecodedOperation : (busy (decimalRequest 0x40)).resetLine = false
    ∧ (busy (decimalRequest 0x40)).inflight = some (decimalRequest 0x40)
    ∧ decode (decimalRequest 0x40).cw = .ok .bcdadd := ⟨rfl, rfl, rfl⟩
theorem witness_IllegalWordGetsTheErrorResponse_codes :
    (busy (decimalRequest 0xFF)).inflight = some (decimalRequest 0xFF)
    ∧ decode (decimalRequest 0xFF).cw = .error .illegalOpcode
    ∧ decode (decimalRequest 0x01000010).cw = .error .reservedNonzero
    ∧ decode (decimalRequest 0x00210020).cw = .error .illegalShape
    ∧ decode (decimalRequest 0x00008015).cw = .error .illegalImmediate := ⟨rfl, rfl, rfl, rfl, rfl⟩
theorem witness_IllegalWordGetsTheErrorResponse_performed :
    ∃ r : Response, Answers .addc (decimalRequest 0x10) r :=
  ⟨_, answers_of_transact (fun _ => rfl) _⟩
theorem witness_IllegalWordGetsTheErrorResponse_next :
    (busy (decimalRequest 0xFF)).hostQueue = [decimalRequest 0x40]
    ∧ step (busy (decimalRequest 0xFF))
      = .next ((busy (decimalRequest 0xFF)).raise .illegalOpcode) := ⟨rfl, rfl⟩
theorem witness_StepsOutsideATransaction :
    ((busy (decimalRequest 0x40)).driveReset true).resetLine = true
    ∧ State.reset.resetLine = false ∧ State.reset.inflight = none ∧ State.reset.hostQueue = []
    ∧ (State.reset.present (decimalRequest 0x40)).hostQueue = [decimalRequest 0x40]
    ∧ (State.reset.present (decimalRequest 0x40)).inflight = none := ⟨rfl, rfl, rfl, rfl, rfl, rfl⟩
theorem witness_StepKeepsDeliveredResponsesWellFormed :
    (busy (decimalRequest 0xFF)).inv = true
    ∧ step (busy (decimalRequest 0xFF))
      = .next ((busy (decimalRequest 0xFF)).raise .illegalOpcode) := ⟨by decide +kernel, rfl⟩
theorem witness_ResponsesDependOnTheirRequestAlone :
    (State.reset.present (decimalRequest 0x40)).resetLine = false
    ∧ (State.reset.present (decimalRequest 0x40)).inflight = none := ⟨rfl, rfl⟩
theorem witness_UnreadFieldsHaveNoEffect :
    agreeOnReads .bcdadde (decimalRequest 0x44) { decimalRequest 0x45 with a := portOf [0x3C, 7] }
    ∧ decimalRequest 0x44 ≠ { decimalRequest 0x45 with a := portOf [0x3C, 7] } :=
  ⟨⟨by decide +kernel, by decide +kernel, rfl⟩, by decide +kernel⟩
theorem witness_UnwrittenFieldsAreZero : Instr.wellFormed (.lcvd2b 32 .e32) = true := by decide

theorem witness_WideValueIsTheLimbSum :
    (2 ≤ 32 ∧ 2 ^ 200 < 2 ^ (128 * 2) ∧ 31 < 32) ∧ (0 ≤ 32 ∧ 0 < 2 ^ (128 * 0) ∧ 0 < 32)
    ∧ (32 ≤ 32 ∧ 0 < 2 ^ (128 * 32) ∧ 31 < 32) :=
  ⟨by decide, by decide, by decide, Nat.pow_pos (by decide), by decide⟩
theorem witness_PackedDecimalValueByNibbles :
    nib 0x3F#128 0 ∈ [0xA#4, 0xC#4, 0xE#4, 0xF#4] ∧ nib 0x3B#128 0 ∈ [0xB#4, 0xD#4]
    ∧ isSign (nib 0x3B#128 0) = true ∧ pdValid 0x3B#128 = true ∧ pdValid 0xA0C#128 = false := by
  decide +kernel
theorem witness_CanonicalEncodingByNibbles :
    (10 ^ 31 - 1 : Int).natAbs < 10 ^ 31 ∧ (-(10 ^ 31 - 1) : Int).natAbs < 10 ^ 31
    ∧ (0 : Int).natAbs < 10 ^ 31 := by decide +kernel
theorem witness_CanonicalEncodingIsInverseToValue :
    (pdValid 0x0C#128 = true ∧ nib 0x0C#128 0 = 0xC)
    ∧ (pdValid 0x1D#128 = true ∧ nib 0x1D#128 0 = 0xD ∧ mag 0x1D#128 ≠ 0) := by decide +kernel
theorem witness_UnsignedDecimalByNibbles :
    updValid 0x99999999999999999999999999999999#128 = true ∧ 10 ^ 32 - 1 < 10 ^ 32 := by decide +kernel

theorem witness_CompareLimbsIsUnsigned : (5 < 6 ∧ 6 < 256) ∧ (5 < 255 ∧ 255 < 256) := by decide
theorem witness_ShiftLimbByConstant : 0 ≤ 127 ∧ 127 ≤ 127 ∧ (127 < 128 ∧ 128 < 256) ∧ 127 < 255 := by decide
theorem witness_ShiftLimbByVariable :
    (slot (request 0x18 [1] [127] 0).b 0).toNat ≤ 127 ∧ 127 < (slot (request 0x18 [1] [128] 0).b 0).toNat := by
  decide +kernel
theorem witness_MultiplyLimbsIsExact :
    (slot (request 0x1C [1] [9] 0).b 0).toNat ≤ 9 ∧ 9 < (slot (request 0x1C [1] [10] 0).b 0).toNat := by
  decide +kernel
theorem witness_wide_counts : (1 ≤ 1 ∧ 1 ≤ 32) ∧ (1 ≤ 32 ∧ 32 ≤ 32)
    ∧ (0 < 256 ∧ (0 = 0 ∨ 32 < 0)) ∧ (33 < 256 ∧ (33 = 0 ∨ 32 < 33)) := by decide
theorem witness_WideSubtractUndoesWideAdd :
    ∃ r : Response, Answers (.wadd 32) (decimalRequest 0x00200020) r
      ∧ ∃ q' : Request, (∀ i, i < 32 → slot q'.a i = slot r.r i)
        ∧ ∀ i, i < 32 → slot q'.b i = slot (decimalRequest 0x00200020).b i :=
  ⟨_, answers_of_transact (fun _ => rfl) _,
    { decimalRequest 0x00200021 with a := _ }, fun _ _ => rfl, fun _ _ => rfl⟩
theorem witness_WideMultiplyIsTheExactProduct : 5 < 6 ∧ 6 < 256 := by decide
theorem witness_BlockAlgorithmGivesTheProduct :
    2 ^ 2048 - 1 < 2 ^ 2048 ∧ 2 ^ 1024 - 1 < 2 ^ 1024 := by decide +kernel
theorem witness_DivideLimbByConstant : 2 < 3 ∧ 3 < 256 := by decide
theorem witness_DivideTwoLimbsByConstant :
    (slot (request 0x00010031 [5, 0x7E37BE2022C0914B267FFFFFFF] [] 0).a 1).toNat < 10 ^ 31
    ∧ 10 ^ 31 ≤ (slot (request 0x00010031 [5, 0x7E37BE2022C0914B2680000000] [] 0).a 1).toNat
    ∧ (slot (request 0x00020031 [5, 0x4EE2D6D415B85ACEF80FFFFFFFF] [] 0).a 1).toNat < 10 ^ 32
    ∧ 10 ^ 32 ≤ (slot (request 0x00020031 [5, 0x4EE2D6D415B85ACEF8100000000] [] 0).a 1).toNat
    ∧ (0 < 256 ∧ (0 = 0 ∨ 2 < 0)) ∧ (3 < 256 ∧ (3 = 0 ∨ 2 < 3)) := by decide +kernel
theorem witness_EstimateAndCorrectDivisionIsExact :
    Divisor.e31 ≠ .e16 ∧ (0x7E37BE2022C0914B267FFFFFFF#128).toNat < divisorValue .e31 := by
  decide +kernel

theorem witness_decimal_operands :
    pdValid (slot (decimalRequest 0x44).a 0) = true ∧ pdValid (slot (decimalRequest 0x44).b 0) = true
    ∧ pdValid (decimalRequest 0x44).c = true ∧ mag (decimalRequest 0x44).c ≤ 1 := by decide +kernel
theorem witness_DecimalCarryDetectByBranches_overflow :
    10 ^ 31 ≤ (val 0x9999999999999999999999999999999C#128 + val 0x1C#128).natAbs := by decide +kernel
theorem witness_DecimalCarryDetectByBranches_correct :
    (val 0x3C#128 + val 0x5D#128).natAbs < 10 ^ 31 ∧ val 0x3C#128 + val 0x5D#128 ≠ 0
    ∧ signOf (val 0x3C#128 + val 0x5D#128) ≠ sgn 0x3C#128 := by decide +kernel
theorem witness_DecimalCarryDetectByBranches_plain :
    (val 0x3C#128 + val 0x2D#128).natAbs < 10 ^ 31
    ∧ signOf (val 0x3C#128 + val 0x2D#128) = sgn 0x3C#128 := by decide +kernel
theorem witness_DecimalCarryDetectKeepsTheValue :
    (Instr.bcdaddc, (1 : Int)) ∈ [(Instr.bcdaddc, val 0x3C#128 + val 0x2D#128)]
    ∧ (1 : Int).natAbs < 10 ^ 31 := by decide +kernel
theorem witness_invalid_decimal_operands :
    (pdValid (slot (request 0x40 [0x12] [0x1C] 0).a 0)
      && pdValid (slot (request 0x40 [0x12] [0x1C] 0).b 0)) = false
    ∧ (pdValid (slot (request 0x44 [0x1C] [0x1C] 0x2C).a 0)
      && pdValid (slot (request 0x44 [0x1C] [0x1C] 0x2C).b 0)
      && pdValid (request 0x44 [0x1C] [0x1C] 0x2C).c
      && decide (mag (request 0x44 [0x1C] [0x1C] 0x2C).c ≤ 1)) = false := by decide +kernel
theorem witness_ArithmeticDecimalResultsAreCanonical :
    (pdValid (slot (decimalRequest 0x73).a 0) = true ∧ pdValid (slot (decimalRequest 0x73).b 0) = true
      ∧ pdValid (decimalRequest 0x73).c = true ∧ mag (decimalRequest 0x73).c ≤ 1
      ∧ mag (slot (decimalRequest 0x73).b 0) ≠ 0)
    ∧ Instr.bcdmulf ∈ [Instr.bcdadd, .bcdsub, .bcdaddc, .bcdsubc, .bcdmull, .bcdmulh, .bcdmulf]
    ∧ Instr.bcdsubec ∈ [Instr.bcdadde, .bcdsube, .bcdaddec, .bcdsubec] ∧ 31 ≤ 31
    ∧ (∀ j, j < 2 → pdValid (slot (decimalSequences 0x00020051).a j) = true
      ∧ pdValid (slot (decimalSequences 0x00020051).b j) = true) :=
  ⟨by decide +kernel, by decide, by decide, by decide, by decide +kernel⟩
theorem witness_DigitShiftsKeepTheSignNibble : 0 ≤ 31 ∧ 31 ≤ 31 ∧ (31 < 32 ∧ 32 < 256) := by decide
theorem witness_RoundedDigitShift :
    pdValid (slot (decimalRequest 0x4D).a 0) = true ∧ (0 ≤ 31 ∧ 1 ≤ 1 ∧ 1 ≤ 31 ∧ 31 ≤ 31)
    ∧ pdValid (slot (request 0x4D [0x12] [] 0).a 0) = false ∧ (31 < 32 ∧ 32 < 256) := by decide +kernel
theorem witness_UnsignedTruncateAndValidity :
    (0 ≤ 32 ∧ 32 ≤ 32) ∧ updValid (slot (request 0x4F [0x1237] [] 0).a 0) = true
    ∧ (32 < 33 ∧ 33 < 256) ∧ (1 < 2 ∧ 2 < 256) := by decide +kernel
theorem witness_DecimalChainIsElementSteps :
    (Instr.wbcdadd 2, Instr.bcdaddec) ∈ [(Instr.wbcdadd 2, Instr.bcdaddec), (.wbcdsub 2, .bcdsubec)]
    ∧ (∀ j, j < 2 → pdValid (slot (decimalSequences 0x00020051).a j) = true
      ∧ pdValid (slot (decimalSequences 0x00020051).b j) = true)
    ∧ (∃ j, j < 3 ∧ (pdValid (slot (decimalSequences 0x00030051).a j)
      && pdValid (slot (decimalSequences 0x00030051).b j)) = false) :=
  ⟨by decide, by decide +kernel, 2, by decide, by decide +kernel⟩
theorem witness_DecimalChainIsElementSteps_step (j : Nat) (carry : Limb) :
    ∃ q' : Request, slot q'.a 0 = slot (decimalSequences 0x00020051).a j
      ∧ slot q'.b 0 = slot (decimalSequences 0x00020051).b j ∧ q'.c = carry :=
  ⟨request 0x46 [slot (decimalSequences 0x00020051).a j] [slot (decimalSequences 0x00020051).b j] carry,
    slot_portOf (ls := [_]) (by simp) (by simp), slot_portOf (ls := [_]) (by simp) (by simp), rfl⟩
theorem witness_DecimalChainKeepsTheValue :
    (Instr.wbcdadd 2, (1 : Int)) ∈ [(Instr.wbcdadd 2, (1 : Int)), (.wbcdsub 2, -1)]
    ∧ (∀ j, j < 2 → sgn (slot (decimalSequences 0x00020051).a j) = 1) := ⟨by decide, by decide +kernel⟩
theorem witness_DecimalChainKeepsTheValue_signs :
    (0 ≤ (1 : Int) * 17 ∧ (17 : Int).natAbs < 10 ^ 62) ∧ (1 : Int) * -17 < 0 := by decide +kernel

theorem witness_OneLimbConversions :
    (slot (request 0x60 [0x4EE2D6D415B85ACEF80FFFFFFFF] [] 0).a 0).toNat < 10 ^ 32
    ∧ 10 ^ 32 ≤ (slot (request 0x60 [0x4EE2D6D415B85ACEF8100000000] [] 0).a 0).toNat
    ∧ (∀ k, k ≤ 31 → (nib (slot (request 0x61 [0x9876] [] 0).a 0) k).toNat ≤ 9)
    ∧ ¬ (∀ k, k ≤ 31 → (nib (slot (request 0x61 [0xA876] [] 0).a 0) k).toNat ≤ 9) :=
  ⟨by decide +kernel, by decide +kernel, by decide +kernel, by decide +kernel⟩
theorem witness_OneLimbConversionsAreInverse :
    (slot (request 0x60 [17] [] 0).a 0).toNat < 10 ^ 32 ∧ updValid (slot (request 0x61 [0x17] [] 0).a 0) = true
    ∧ ∀ r : Response, ∃ q' : Request, slot q'.a 0 = slot r.r 0 :=
  ⟨by decide +kernel, by decide +kernel, fun r => ⟨{ decimalRequest 0x61 with a := r.r }, rfl⟩⟩
theorem witness_RadixPipelinesGiveTheConversions :
    10 ^ 32 - 1 < 10 ^ 32 ∧ updValid 0x99999999999999999999999999999999#128 = true
    ∧ (10 ≤ 2 ^ 4 ∧ 99 < 10 ^ 2) ∧ (9 < 10 ∧ 10 ≤ 2 ^ 4) := by decide +kernel
theorem witness_PackedToZonedByNibbles :
    (0xA ≤ (nib (slot (request 0x63 [0x1234567890123456D] [] 0).a 0) 0).toNat
      ∧ (slot (request 0x63 [0x1234567890123456D] [] 0).a 0).toNat / 2 ^ 68 = 0)
    ∧ (nib (slot (request 0x63 [0x1237] [] 0).a 0) 0).toNat < 0xA
    ∧ (slot (request 0x63 [0x11234567890123456C] [] 0).a 0).toNat / 2 ^ 68 ≠ 0 := by decide +kernel
theorem witness_LongBinaryToDecimalExpansion : (1 ≤ 16 ∧ 16 ≤ 16) ∧ Divisor.e31 ≠ .e16
    ∧ (17 < 256 ∧ (17 = 0 ∨ 16 < 17)) ∧ (0 < 256 ∧ (0 = 0 ∨ 2 < 0)) ∧ (3 < 256 ∧ (3 = 0 ∨ 2 < 3)) := by decide
theorem witness_LongDecimalToBinaryValue :
    (∀ j, j < 2 → pdValid (slot (request 0 [0x1C, 0x2A] [] 0).a j) = true
      ∧ sgn (slot (request 0 [0x1C, 0x2A] [] 0).a j) = 1)
    ∧ (∀ j, j < 32 → updValid (slot (request 0 [0x19, 0x20] [] 0).a j) = true)
    ∧ (∃ j, j < 2 ∧ (pdValid (slot (request 0 [0x1C, 0x2D] [] 0).a j)
      && decide (sgn (slot (request 0 [0x1C, 0x2D] [] 0).a j) = 1)) = false)
    ∧ (∃ j, j < 1 ∧ updValid (slot (request 0 [0x1C] [] 0).a j) = false) :=
  ⟨by decide +kernel, by decide +kernel, ⟨1, by decide, by decide +kernel⟩,
    ⟨0, by decide, by decide +kernel⟩⟩
theorem witness_LongConversionsAreInverse :
    Divisor.e32 ≠ .e16 ∧ ∃ r : Response, Answers (.lcvb2d 16 .e32) (decimalRequest 0x00100264) r
      ∧ ∃ q' : Request, ∀ j, j < kOf 16 (divisorValue .e32) → slot q'.a j = slot r.r j :=
  ⟨by decide, _, answers_of_transact (fun _ => rfl) _, { decimalRequest 0x65 with a := _ }, fun _ _ => rfl⟩
theorem witness_LongConversionTechniquesAreExact :
    (10 ^ 31 = 10 ^ 31 ∨ 10 ^ 31 = 10 ^ 32) ∧ (5#128).toNat < 10 ^ 31 := by decide
theorem witness_ChunkSplittingGivesTheProduct : 10 ^ 31 - 1 < 10 ^ 31 := by decide
theorem witness_DecimalQuotientTruncates :
    pdValid (slot (decimalRequest 0x73).a 0) = true ∧ pdValid (slot (decimalRequest 0x73).b 0) = true
    ∧ mag (slot (decimalRequest 0x73).b 0) ≠ 0
    ∧ (pdValid (slot (request 0x73 [0x1C] [0x0D] 0).a 0) && pdValid (slot (request 0x73 [0x1C] [0x0D] 0).b 0)
      && decide (mag (slot (request 0x73 [0x1C] [0x0D] 0).b 0) ≠ 0)) = false := by decide +kernel
theorem witness_DecimalRemainderByThreeTransactions (r₁ r₂ : Response) :
    (∃ q₂ : Request, slot q₂.a 0 = slot r₁.r 0 ∧ slot q₂.b 0 = slot (decimalRequest 0x73).b 0)
    ∧ ∃ q₃ : Request, slot q₃.a 0 = slot (decimalRequest 0x73).a 0 ∧ slot q₃.b 0 = slot r₂.r 0 :=
  ⟨⟨{ decimalRequest 0x70 with a := r₁.r }, rfl, rfl⟩, ⟨{ decimalRequest 0x41 with b := r₂.r }, rfl, rfl⟩⟩

end Sys2Proof.Tests
end

section
/-! SUPPORT. What `wide`, a digit string and the packed-decimal readers give, limb by limb and nibble by
nibble (R13 to R16), and the statements on number formats. -/

namespace Sys2Proof.Machine

/-! ## Limb sequences (R16) -/

theorem wide_succ (p : Port) (n : Nat) :
    wide p (n + 1) = wide p n + 2 ^ (128 * n) * (slot p n).toNat := by
  simp [wide, slots_succ, limbsVal_append]

theorem wide_eq_sum (p : Port) (n : Nat) :
    wide p n = ∑ i ∈ Finset.range n, (slot p i).toNat * 2 ^ (128 * i) := by
  induction n with
  | zero => rfl
  | succ n ih => rw [wide_succ, Finset.sum_range_succ, ih, Nat.mul_comm (2 ^ (128 * n))]

/-- Slot i of `towide(v, N)`, below N (R16). -/
theorem slot_portOf_limbsOf {n v i : Nat} (hn : n ≤ 32) (hv : v < 2 ^ (128 * n)) :
    slot (portOf (limbsOf n v)) i = BitVec.ofNat 128 (v / 2 ^ (128 * i) % 2 ^ 128) := by
  apply BitVec.eq_of_toNat_eq
  rw [slot_toNat, portOf_toNat (by simpa using hn), limbsVal_limbsOf, Nat.mod_eq_of_lt hv,
    BitVec.toNat_ofNat, Nat.mod_mod]

/-- Settles O16: the sum by recursion on the limb count, the slots of `towide` by the value they hold. -/
theorem wideValueIsTheLimbSum : Obligations.WideValueIsTheLimbSum := by
  refine ⟨wide_eq_sum, fun n v i hn hv _ => ?_⟩
  split
  · exact slot_portOf_limbsOf hn hv
  · exact slot_portOf_above (by simpa using hn) (by simp; omega)

/-! ## Digit strings, digit by digit (R11, R13 to R15) -/

theorem digitsVal_eq_sum (n x : Nat) :
    digitsVal n x = ∑ k ∈ Finset.range n, x / 16 ^ k % 16 * 10 ^ k := by
  induction n generalizing x with
  | zero => rfl
  | succ n ih =>
    rw [digitsVal, ih, Finset.sum_range_succ', Finset.mul_sum, Nat.add_comm]
    congr 1
    · refine Finset.sum_congr rfl fun k _ => ?_
      rw [Nat.div_div_eq_div_mul, Nat.pow_succ', Nat.pow_succ']
      ring
    · simp

theorem digitsValid_iff (n x : Nat) : digitsValid n x = true ↔ ∀ k, k < n → x / 16 ^ k % 16 ≤ 9 := by
  induction n generalizing x with
  | zero => simp [digitsValid]
  | succ n ih =>
    simp only [digitsValid, Bool.and_eq_true, decide_eq_true_eq, ih, Nat.div_div_eq_div_mul,
      ← Nat.pow_succ']
    constructor
    · rintro ⟨h0, hs⟩ (_ | k) hk
      · simpa using h0
      · exact hs k (by omega)
    · intro h
      exact ⟨by simpa using h 0 (by omega), fun k hk => h (k + 1) (by omega)⟩

/-- Nibble k of a digit string is digit k of the number it encodes. -/
theorem digitsOf_nibble {n k : Nat} (v : Nat) (h : k < n) :
    digitsOf n v / 16 ^ k % 16 = v / 10 ^ k % 10 := by
  induction n generalizing k v with
  | zero => exact absurd h (Nat.not_lt_zero k)
  | succ n ih =>
    cases k with
    | zero => simp only [digitsOf, Nat.pow_zero, Nat.div_one]; omega
    | succ k =>
      have hd : digitsOf (n + 1) v / 16 = digitsOf n (v / 10) := by simp only [digitsOf]; omega
      rw [Nat.pow_succ', ← Nat.div_div_eq_div_mul, hd, ih _ (by omega), Nat.div_div_eq_div_mul,
        ← Nat.pow_succ']

/-- Nibble k + 1 of a word is nibble k of its magnitude bits (R13). -/
theorem nib_succ_toNat (x : Limb) (k : Nat) :
    (nib x (k + 1)).toNat = (magBits x).toNat / 16 ^ k % 16 := by
  rw [nib_toNat, magBits_toNat, Nat.div_div_eq_div_mul, Nat.pow_succ']

/-! ## Signed packed decimal (R12, R13, R14) -/

theorem isSign_iff (s : Nibble) : isSign s = true ↔ 0xA ≤ s.toNat := by
  revert s; decide

theorem sgn_of_isNeg {x : Limb} (h : isNeg (nib x 0) = true) : sgn x = -1 := by
  rw [sgn, if_pos h]

theorem sgn_of_not_isNeg {x : Limb} (h : isNeg (nib x 0) = false) : sgn x = 1 := by
  rw [sgn, if_neg (by simp [h])]

theorem isNeg_of_mem_pos {s : Nibble} (h : s ∈ [0xA#4, 0xC#4, 0xE#4, 0xF#4]) : isNeg s = false := by
  revert s; decide

theorem isNeg_of_mem_neg {s : Nibble} (h : s ∈ [0xB#4, 0xD#4]) : isNeg s = true := by
  revert s; decide

theorem mag_eq_sum (x : Limb) :
    mag x = ∑ k ∈ Finset.range 31, (nib x (k + 1)).toNat * 10 ^ k := by
  simp only [mag, digitsVal_eq_sum, nib_succ_toNat]

theorem pdValid_iff (x : Limb) :
    pdValid x = true ↔
      0xA ≤ (nib x 0).toNat ∧ ∀ k, 1 ≤ k → k ≤ 31 → (nib x k).toNat ≤ 9 := by
  rw [pdValid, Bool.and_eq_true, isSign_iff, digitsValid_iff]
  refine and_congr_right fun _ => ⟨fun h k h1 h31 => ?_, fun h k hk => ?_⟩
  · obtain ⟨j, rfl⟩ := Nat.exists_eq_add_of_le' h1
    rw [nib_succ_toNat]
    exact h j (by omega)
  · rw [← nib_succ_toNat]
    exact h (k + 1) (by omega) (by omega)

/-- Settles O17: sign from the class of nibble 0, magnitude and validity from the digit string above it. -/
theorem packedDecimalValueByNibbles : Obligations.PackedDecimalValueByNibbles := fun x =>
  ⟨mag_eq_sum x, fun h => sgn_of_not_isNeg (isNeg_of_mem_pos h),
    fun h => sgn_of_isNeg (isNeg_of_mem_neg h), fun _ => rfl, pdValid_iff x⟩

theorem magBits_enc_toNat (v : Int) : (magBits (enc v)).toNat = digitsOf 31 v.natAbs := by
  have h : digitsOf 31 v.natAbs < 2 ^ 124 := digitsOf_lt 31 v.natAbs
  rw [magBits_enc, BitVec.toNat_ofNat, Nat.mod_eq_of_lt h]

theorem nib_enc_succ {k : Nat} (v : Int) (h : k < 31) :
    (nib (enc v) (k + 1)).toNat = v.natAbs / 10 ^ k % 10 := by
  rw [nib_succ_toNat, magBits_enc_toNat, digitsOf_nibble _ h]

/-- Settles O18: the digit nibbles are those of the digit string, nibble 0 is the preferred code. -/
theorem canonicalEncodingByNibbles : Obligations.CanonicalEncodingByNibbles := by
  refine fun v _ => ⟨fun k h1 h31 => ?_, nib_enc_zero v⟩
  obtain ⟨j, rfl⟩ := Nat.exists_eq_add_of_le' h1
  exact nib_enc_succ v (by omega)

theorem val_enc {v : Int} (h : v.natAbs < 10 ^ 31) : val (enc v) = v := by
  rw [val, sgn_enc, mag_enc, Nat.mod_eq_of_lt h]
  split <;> omega

/-- A word is its magnitude bits over its sign nibble (R28). -/
theorem magBits_append_nib_zero (x : Limb) : magBits x ++ nib x 0 = x := by
  apply BitVec.eq_of_toNat_eq
  rw [append_toNat, magBits_toNat, nib_toNat]
  omega

/-- A valid word whose sign nibble is the preferred code of its value is the encoding of that value. -/
theorem enc_val {x : Limb} (h : pdValid x = true) (hs : signCode (val x) = nib x 0) :
    enc (val x) = x := by
  have hd : digitsValid 31 (magBits x).toNat = true := (Bool.and_eq_true_iff.mp h).2
  have hm : digitsOf 31 (mag x) = (magBits x).toNat := by
    rw [mag, digitsOf_digitsVal hd]
    exact Nat.mod_eq_of_lt (magBits x).isLt
  rw [enc, hs, val_natAbs, hm, BitVec.ofNat_toNat, BitVec.setWidth_eq, magBits_append_nib_zero]

/-- Settles O19: the encoding holds all digits of a magnitude below 10^31; and a preferred sign code that is
not on a zero written as negative is the code of the value. -/
theorem canonicalEncodingIsInverseToValue : Obligations.CanonicalEncodingIsInverseToValue := by
  refine ⟨fun v h => ⟨pdValid_enc v, val_enc h⟩, fun x hx hs => enc_val hx ?_⟩
  rcases hs with hc | ⟨hd, hm⟩
  · have hsgn : sgn x = 1 := sgn_of_not_isNeg (by rw [hc]; rfl)
    have hv : 0 ≤ val x := by rw [val, hsgn]; omega
    rw [hc, signCode, if_pos hv]
  · have hsgn : sgn x = -1 := sgn_of_isNeg (by rw [hd]; rfl)
    have hv : ¬ 0 ≤ val x := by rw [val, hsgn]; omega
    rw [hd, signCode, if_neg hv]

/-! ## Unsigned packed decimal (R15) -/

theorem umag_eq_sum (x : Limb) : umag x = ∑ k ∈ Finset.range 32, (nib x k).toNat * 10 ^ k := by
  simp only [umag, digitsVal_eq_sum, nib_toNat]

theorem updValid_iff (x : Limb) : updValid x = true ↔ ∀ k, k ≤ 31 → (nib x k).toNat ≤ 9 := by
  simp only [updValid, digitsValid_iff, nib_toNat, Nat.lt_succ_iff]

theorem nib_uenc {k : Nat} (v : Nat) (h : k < 32) : (nib (uenc v) k).toNat = v / 10 ^ k % 10 := by
  rw [nib_toNat, uenc_toNat, digitsOf_nibble v h]

/-- Settles O20: an unsigned word is one digit string of 32 nibbles. -/
theorem unsignedDecimalByNibbles : Obligations.UnsignedDecimalByNibbles :=
  ⟨fun x => ⟨umag_eq_sum x, updValid_iff x⟩, fun v _ _ hk => nib_uenc v (Nat.lt_succ_of_le hk)⟩

end Sys2Proof.Machine
end

section
/-! SUPPORT. Command words written as numbers: their fields, how they decode, and which counts and codes are
refused (R51, R53, R54, R61, R63). -/

namespace Sys2Proof

/-! ## Command words as numbers (R51, R63) -/

/-- The command word with the given operation code, immediate and shape, and `RSV` 0 (R51, R61). -/
def wordOf (opc imm shp : Nat) : CmdWord := BitVec.ofNat 32 (opc + 2 ^ 8 * imm + 2 ^ 16 * shp)

section
variable {opc imm shp : Nat} (ho : opc < 256) (hi : imm < 256) (hs : shp < 256)
include ho hi hs

theorem wordOf_toNat : (wordOf opc imm shp).toNat = opc + 2 ^ 8 * imm + 2 ^ 16 * shp := by
  rw [wordOf, BitVec.toNat_ofNat, Nat.mod_eq_of_lt (by omega)]

theorem cwOpc_wordOf : (cwOpc (wordOf opc imm shp)).toNat = opc := by
  rw [cwOpc, BitVec.extractLsb'_toNat, wordOf_toNat ho hi hs, Nat.shiftRight_eq_div_pow]
  omega

theorem cwImm_wordOf : (cwImm (wordOf opc imm shp)).toNat = imm := by
  rw [cwImm, BitVec.extractLsb'_toNat, wordOf_toNat ho hi hs, Nat.shiftRight_eq_div_pow]
  omega

theorem cwShp_wordOf : (cwShp (wordOf opc imm shp)).toNat = shp := by
  rw [cwShp, BitVec.extractLsb'_toNat, wordOf_toNat ho hi hs, Nat.shiftRight_eq_div_pow]
  omega

theorem cwRsv_wordOf : (cwRsv (wordOf opc imm shp)).toNat = 0 := by
  rw [cwRsv, BitVec.extractLsb'_toNat, wordOf_toNat ho hi hs, Nat.shiftRight_eq_div_pow]
  omega

/-- A word with an assigned opcode and no reserved bit decodes by its shape and immediate alone. -/
theorem decode_wordOf {f : OpForm} (hf : opForm opc = some f) :
    decode (wordOf opc imm shp) = readFields f shp imm := by
  rw [decode_fields (f := f) (by rw [cwOpc_wordOf ho hi hs, hf]) (cwRsv_wordOf ho hi hs),
    cwShp_wordOf ho hi hs, cwImm_wordOf ho hi hs]

end

theorem encode_eq_wordOf {i : Instr} (hi : i.imm < 256) (hs : i.shp < 256) :
    encode i = wordOf i.opc i.imm i.shp := by
  have ho := Laws.opc_lt i
  apply BitVec.eq_of_toNat_eq
  rw [encode_toNat, wordOf_toNat ho hi hs]
  omega

theorem countOfCode_eq_some {lo hi c : Nat} (h1 : lo ≤ c) (h2 : c ≤ hi) :
    countOfCode lo hi c = some c :=
  countOfCode_some.mpr ⟨rfl, h1, h2⟩

theorem countOfCode_eq_none {lo hi c : Nat} (h : c < lo ∨ hi < c) : countOfCode lo hi c = none := by
  rw [countOfCode, if_neg]
  rw [inRange_iff]
  omega

theorem groupDivisorOfCode_eq_none {c : Nat} (h : c = 0 ∨ 2 < c) : groupDivisorOfCode c = none := by
  unfold groupDivisorOfCode
  split
  · omega
  · omega
  · rfl

/-! ## The shape and immediate checks of the two formats with a shape (R51, R63) -/

theorem readFields_s_illegalShape {ofShp : Nat → Option Instr} {shp imm : Nat}
    (h : ofShp shp = none) : readFields (.s ofShp) shp imm = .error .illegalShape := by
  simp [readFields, h]

theorem readFields_si_illegalShape {ofShp : Nat → Option Nat} {ofImm : Nat → Option Divisor}
    {op : Nat → Divisor → Instr} {shp imm : Nat} (h : ofShp shp = none) :
    readFields (.si ofShp ofImm op) shp imm = .error .illegalShape := by
  simp [readFields, h]

theorem readFields_si_illegalImmediate {ofShp : Nat → Option Nat} {ofImm : Nat → Option Divisor}
    {op : Nat → Divisor → Instr} {shp imm n : Nat} (h : ofShp shp = some n) (hm : ofImm imm = none) :
    readFields (.si ofShp ofImm op) shp imm = .error .illegalImmediate := by
  simp [readFields, h, hm]

/-- An operation whose shape is a count from 1 to 32 rejects every other shape (R54). -/
theorem decode_countShape_illegal {opc n : Nat} {op : Nat → Instr} (ho : opc < 256)
    (hf : opForm opc = some (.s fun p => (countOfCode 1 32 p).map op)) (hn : n < 256)
    (h : n = 0 ∨ 32 < n) :
    decode (BitVec.ofNat 32 (opc + 2 ^ 16 * n)) = .error .illegalShape := by
  have hnone : countOfCode 1 32 n = none := countOfCode_eq_none (by omega)
  exact (decode_wordOf (imm := 0) ho (by decide) hn hf).trans
    (readFields_s_illegalShape (by rw [hnone]; rfl))

end Sys2Proof
end

section
/-! SUPPORT. The decimal carry of `cdc` and the decimal chains as element steps (R121, R126, R129, R130, R142,
R143), and the statement on them. -/

namespace Sys2Proof.Machine

/-! ## The decimal carry of `cdc` (R121, R126) -/

theorem carryValid_enc {v : Int} (h : v.natAbs ≤ 1) : carryValid (enc v) = true := by
  rw [carryValid_iff]
  exact ⟨pdValid_enc v, by rw [mag_enc]; omega⟩

theorem signOf_natAbs (t : Int) : (signOf t).natAbs = 1 := by
  unfold signOf; split <;> rfl

theorem sgn_natAbs (x : Limb) : (sgn x).natAbs = 1 := by
  rcases sgn_cases x with h | h <;> rw [h] <;> rfl

/-- The carry out of `cdc` is one that the next element accepts. -/
theorem carryValid_cdc (a : Limb) (t : Int) : carryValid (cdc a t).2 = true := by
  by_cases hbig : decT ≤ t.natAbs
  · rw [cdc_overflow hbig]
    exact carryValid_enc (signOf_natAbs t).le
  · by_cases hs : t = 0 ∨ signOf t = sgn a
    · rw [cdc_plain (by omega) hs]
      exact carryValid_enc (by decide)
    · obtain ⟨h0, hne⟩ := not_or.mp hs
      rw [cdc_correct (by omega) h0 hne]
      exact carryValid_enc (by rw [Int.natAbs_neg, sgn_natAbs])

/-! ## Guards met and not met (R121, R142) -/

theorem withThree_of_valid {q : Request} {u f : Limb → Limb → Limb → Response}
    (ha : pdValid (slot q.a 0) = true) (hb : pdValid (slot q.b 0) = true)
    (hc : carryValid q.c = true) : withThree q u f = f (slot q.a 0) (slot q.b 0) q.c := by
  rw [withThree, if_pos (by rw [ha, hb, hc]; rfl)]

theorem slots_all_iff (p : Port) (n : Nat) (f : Limb → Bool) :
    (slots p n).all f = true ↔ ∀ j, j < n → f (slot p j) = true := by
  simp [slots]

section
variable {q : Request} {n : Nat} {u f : List Limb → List Limb → Response}

theorem withSequences_of_valid
    (h : ∀ j, j < n → pdValid (slot q.a j) = true ∧ pdValid (slot q.b j) = true) :
    withSequences q n u f = f (slots q.a n) (slots q.b n) := by
  have ha := (slots_all_iff q.a n pdValid).mpr fun j hj => (h j hj).1
  have hb := (slots_all_iff q.b n pdValid).mpr fun j hj => (h j hj).2
  rw [withSequences, if_pos (by rw [ha, hb]; rfl)]

theorem withSequences_of_invalid
    (h : ∃ j, j < n ∧ (pdValid (slot q.a j) && pdValid (slot q.b j)) = false) :
    withSequences q n u f = u (slots q.a n) (slots q.b n) := by
  obtain ⟨j, hj, hbad⟩ := h
  rw [withSequences, if_neg]
  rw [Bool.and_eq_true, slots_all_iff, slots_all_iff]
  rintro ⟨ha, hb⟩
  rw [ha j hj, hb j hj] at hbad
  exact absurd hbad (by decide)

end

/-! ## Element steps (R129, R130) and the chains of them (R142, R143) -/

/-- The response of one element step. -/
def elementResponse (x : Limb × Limb) : Response := .ok [x.1] (s := x.2)

/-- Operation `e` is the element step `step` on valid operands and a valid decimal carry. -/
def IsElementStep (e : Instr) (step : Limb → Limb → Limb → Limb × Limb) : Prop :=
  ∀ q : Request, pdValid (slot q.a 0) = true → pdValid (slot q.b 0) = true →
    carryValid q.c = true → Answers e q (elementResponse (step (slot q.a 0) (slot q.b 0) q.c))

/-- Operation `w` of `n` elements is the decimal chain of `step` on valid elements. -/
def IsDecimalChain (w : Instr) (n : Nat) (step : Limb → Limb → Limb → Limb × Limb) : Prop :=
  ∀ q : Request, (∀ j, j < n → pdValid (slot q.a j) = true ∧ pdValid (slot q.b j) = true) →
    Answers w q (decimalChainResponse (decimalChain step (slots q.a n) (slots q.b n)))

theorem bcdaddec_isElementStep : IsElementStep .bcdaddec addStep := fun q ha hb hc => by
  have h := answers_of_transact (i := .bcdaddec) (fun _ => rfl) q
  rwa [withThree_of_valid ha hb hc] at h

theorem bcdsubec_isElementStep : IsElementStep .bcdsubec subStep := fun q ha hb hc => by
  have h := answers_of_transact (i := .bcdsubec) (fun _ => rfl) q
  rwa [withThree_of_valid ha hb hc] at h

theorem wbcdadd_isDecimalChain (n : Nat) : IsDecimalChain (.wbcdadd n) n addStep := fun q hv => by
  have h := answers_of_transact (i := .wbcdadd n) (fun _ => rfl) q
  rwa [withSequences_of_valid hv] at h

theorem wbcdsub_isDecimalChain (n : Nat) : IsDecimalChain (.wbcdsub n) n subStep := fun q hv => by
  have h := answers_of_transact (i := .wbcdsub n) (fun _ => rfl) q
  rwa [withSequences_of_valid hv] at h

/-- The result slots of a chain and the carries between its steps: the lowest-order element, in slot n − 1,
starts from +0, and each step takes the carry of the slot above and gives the one of its own slot. -/
theorem decimalChainResponse_steps (step : Limb → Limb → Limb → Limb × Limb) (a b : Port) {n : Nat}
    (hn : n ≤ 32) {r : Response}
    (hr : r = decimalChainResponse (decimalChain step (slots a n) (slots b n))) :
    ∃ carry : Nat → Limb, carry n = enc 0 ∧ r.s = carry 0
      ∧ (∀ j, n ≤ j → slot r.r j = 0)
      ∧ ∀ j, j < n → (slot r.r j, carry j) = step (slot a j) (slot b j) (carry (j + 1)) := by
  have hlen : (decimalChain step (slots a n) (slots b n)).1.length = n := by
    rw [decimalChain_length step (by simp), slots_length]
  obtain ⟨carry, hlow, hout, hstep⟩ :=
    decimalChain_spec step (as := slots a n) (bs := slots b n) (by simp)
  rw [slots_length] at hlow
  subst hr
  refine ⟨carry, hlow, hout.symm, fun j hj => slot_portOf_above (by omega) (by omega), fun j hj => ?_⟩
  obtain ⟨helem, hcarry⟩ := hstep j (slot a j) (slot b j)
    (by rw [slots_getElem?, if_pos hj]) (by rw [slots_getElem?, if_pos hj])
  rw [List.getElem?_eq_getElem (by omega)] at helem
  exact Prod.ext ((slot_portOf (by omega) (by omega)).trans (Option.some.inj helem)) hcarry

/-- A chain whose steps are those of an element operation is that operation's transactions in turn. -/
theorem decimalChain_is_element_steps {w e : Instr} {step : Limb → Limb → Limb → Limb × Limb}
    {n : Nat} {q : Request} (hw : IsDecimalChain w n step) (he : IsElementStep e step)
    (hcarry : ∀ a b c, carryValid (step a b c).2 = true) (hn : n ≤ 32)
    (hv : ∀ j, j < n → pdValid (slot q.a j) = true ∧ pdValid (slot q.b j) = true) :
    ∃ (r : Response) (carry : Nat → Limb), Answers w q r
      ∧ carry n = enc 0 ∧ r.s = carry 0 ∧ r.t = false
      ∧ (∀ j, n ≤ j → j < 32 → slot r.r j = 0)
      ∧ ∀ j, j < n → ∀ q' : Request,
        slot q'.a 0 = slot q.a j → slot q'.b 0 = slot q.b j → q'.c = carry (j + 1) →
        Answers e q' (performed (slot r.r j).toNat (s := carry j)) := by
  obtain ⟨carry, hlow, hout, habove, hsteps⟩ := decimalChainResponse_steps step q.a q.b hn rfl
  have hvalid : ∀ j, j < n → carryValid (carry (j + 1)) = true := fun j hj => by
    rcases Nat.lt_or_eq_of_le (Nat.succ_le_of_lt hj) with hlt | heq
    · have h := congrArg Prod.snd (hsteps (j + 1) hlt)
      exact (congrArg carryValid h).trans (hcarry _ _ _)
    · rw [show j + 1 = n from heq, hlow]
      exact carryValid_enc (by decide)
  refine ⟨_, carry, hw q hv, hlow, hout, rfl, fun j hj _ => habove j hj, fun j hj q' ha hb hc => ?_⟩
  have h := he q' (by rw [ha]; exact (hv j hj).1) (by rw [hb]; exact (hv j hj).2)
    (by rw [hc]; exact hvalid j hj)
  rwa [ha, hb, hc, ← hsteps j hj, elementResponse, ok_one] at h

/-- The open results of a decimal chain with an invalid element: every element and the carry (R17, R142,
R143). -/
def openChain (w : Instr) (as bs : List Limb) : List Limb × Limb :=
  match w with
  | .wbcdadd n => ((List.range n).map (Config.unspecWbcdaddR as bs), Config.unspecWbcdaddS as bs)
  | .wbcdsub n => ((List.range n).map (Config.unspecWbcdsubR as bs), Config.unspecWbcdsubS as bs)
  | _ => ([], 0)

section
variable {q : Request} {n : Nat}
  (h : ∃ j, j < n ∧ (pdValid (slot q.a j) && pdValid (slot q.b j)) = false)
include h

theorem wbcdadd_answers_open :
    Answers (.wbcdadd n) q
      (decimalChainResponse (openChain (.wbcdadd n) (slots q.a n) (slots q.b n))) := by
  have hq := answers_of_transact (i := .wbcdadd n) (fun _ => rfl) q
  rwa [withSequences_of_invalid h] at hq

theorem wbcdsub_answers_open :
    Answers (.wbcdsub n) q
      (decimalChainResponse (openChain (.wbcdsub n) (slots q.a n) (slots q.b n))) := by
  have hq := answers_of_transact (i := .wbcdsub n) (fun _ => rfl) q
  rwa [withSequences_of_invalid h] at hq

end

/-- Settles O45: the carries between the steps of the chain, each valid because `cdc` gives only unit
carries. -/
theorem decimalChainIsElementSteps : Obligations.DecimalChainIsElementSteps := by
  refine ⟨fun w e n q _ hn hwe hv => ?_, ⟨openChain, fun n q _ hbad w hw => ?_⟩,
    fun n h1 hn => ⟨encode_eq_wordOf (i := .wbcdadd n) Laws.zero_lt (show n < 256 by omega),
      encode_eq_wordOf (i := .wbcdsub n) Laws.zero_lt (show n < 256 by omega)⟩,
    fun n hn hbad => ⟨decode_countShape_illegal (by decide) rfl hn hbad,
      decode_countShape_illegal (by decide) rfl hn hbad⟩⟩
  · rcases List.mem_pair.mp hwe with hwe | hwe <;> obtain ⟨rfl, rfl⟩ := Prod.mk.inj hwe
    · exact decimalChain_is_element_steps (wbcdadd_isDecimalChain n) bcdaddec_isElementStep
        (fun _ _ _ => carryValid_cdc _ _) hn hv
    · exact decimalChain_is_element_steps (wbcdsub_isDecimalChain n) bcdsubec_isElementStep
        (fun _ _ _ => carryValid_cdc _ _) hn hv
  · rcases List.mem_pair.mp hw with rfl | rfl
    · exact ⟨by simp [openChain], wbcdadd_answers_open hbad⟩
    · exact ⟨by simp [openChain], wbcdsub_answers_open hbad⟩

end Sys2Proof.Machine
end

section
/-! SUPPORT. The long conversion to binary (R32, R170, R173), and the statement on it. -/

namespace Sys2Proof.Machine

/-! ## The table of N_OF (R173) -/

theorem divisorValue_le (d : Divisor) : divisorValue d ≤ 2 ^ 128 := by
  cases d <;> decide

/-- N_OF is the least limb count that holds every K-group value; 32 limbs hold 32 groups. -/
theorem nOf_spec {k c : Nat} (hk : k ≤ 32) (hc : c ≤ 2 ^ 128) :
    c ^ k ≤ 2 ^ (128 * nOf k c) ∧ ∀ n, n < nOf k c → 2 ^ (128 * n) < c ^ k := by
  have h := leastPower_spec (base := 2 ^ 128) (bound := c ^ k) (fuel := 32) (k₀ := 0) (p := 1) rfl
    ⟨k, Nat.zero_le k, by omega, Nat.pow_le_pow_left hc k⟩
  obtain ⟨henough, hleast⟩ := h
  refine ⟨by rw [Nat.pow_mul]; exact henough, fun n hn => ?_⟩
  rw [Nat.pow_mul]
  exact hleast n (Nat.zero_le n) hn

/-! ## The value of a sequence of groups (R32, R170) -/

theorem groupsVal_append_one (c : Nat) (gs : List Nat) (g : Nat) :
    groupsVal c (gs ++ [g]) = groupsVal c gs * c + g := by
  simp [groupsVal]

theorem groupsVal_slots_eq_sum (c : Nat) (g : Limb → Nat) (p : Port) (k : Nat) :
    groupsVal c ((slots p k).map g)
      = ∑ j ∈ Finset.range k, g (slot p j) * c ^ (k - 1 - j) := by
  induction k with
  | zero => rfl
  | succ k ih =>
    have hshift : ∀ j ∈ Finset.range k,
        g (slot p j) * c ^ (k - 1 - j) * c = g (slot p j) * c ^ (k + 1 - 1 - j) := fun j hj => by
      have hj := Finset.mem_range.mp hj
      rw [Nat.mul_assoc, ← Nat.pow_succ, show (k - 1 - j).succ = k + 1 - 1 - j by omega]
    rw [slots_succ, List.map_append, List.map_singleton, groupsVal_append_one, ih, Finset.sum_mul,
      Finset.sum_congr rfl hshift, Finset.sum_range_succ]
    simp

theorem groupsVal_lt {c : Nat} (g : Limb → Nat) (p : Port) {k : Nat}
    (h : ∀ j, j < k → g (slot p j) < c) : groupsVal c ((slots p k).map g) < c ^ k := by
  induction k with
  | zero => exact Nat.one_pos
  | succ k ih =>
    have hlow := ih fun j hj => h j (by omega)
    have hg := h k (Nat.lt_succ_self k)
    rw [slots_succ, List.map_append, List.map_singleton, groupsVal_append_one, Nat.pow_succ]
    nlinarith

/-! ## LCVD2B (R173) -/

theorem slots_all_eq_false (p : Port) (n : Nat) (f : Limb → Bool) :
    (slots p n).all f = false ↔ ∃ j, j < n ∧ f (slot p j) = false := by
  simp [slots]

theorem isPos_of_sgn {x : Limb} (hs : isSign (nib x 0) = true) :
    isPos (nib x 0) = decide (sgn x = 1) := by
  have hclass : ∀ s : Nibble, isSign s = true → isPos s = !isNeg s := by decide
  rw [hclass _ hs]
  cases hn : isNeg (nib x 0)
  · rw [sgn_of_not_isNeg hn]; rfl
  · rw [sgn_of_isNeg hn]; rfl

/-- A group of the format 10^31 is a valid PackedDecimal that is not negative. -/
theorem groupValid_e31 (x : Limb) : groupValid .e31 x = (pdValid x && decide (sgn x = 1)) := by
  change (pdValid x && isPos (nib x 0)) = _
  cases h : pdValid x
  · rfl
  · rw [isPos_of_sgn (Bool.and_eq_true_iff.mp h).1]

theorem groupVal_lt {d : Divisor} {x : Limb} (hd : d ≠ .e16) (h : groupValid d x = true) :
    groupVal d x < divisorValue d := by
  cases d with
  | e16 => exact absurd rfl hd
  | e31 => exact mag_lt (Bool.and_eq_true_iff.mp h).1
  | e32 => exact umag_lt h

/-- Groups in the domain: their value, which N_OF limbs hold. -/
theorem lcvd2b_answers_value {k : Nat} {d : Divisor} {q : Request} (hk : k ≤ 32) (hd : d ≠ .e16)
    (h : ∀ j, j < k → groupValid d (slot q.a j) = true) :
    Answers (.lcvd2b k d) q (performed
      (∑ j ∈ Finset.range k, groupVal d (slot q.a j) * divisorValue d ^ (k - 1 - j))) := by
  have hq := answers_of_transact (i := .lcvd2b k d) (fun _ => rfl) q
  have hfit : groupsVal (divisorValue d) ((slots q.a k).map (groupVal d))
      < 2 ^ (128 * nOf k (divisorValue d)) :=
    Nat.lt_of_lt_of_le (groupsVal_lt _ _ fun j hj => groupVal_lt hd (h j hj))
      (nOf_spec hk (divisorValue_le d)).1
  rwa [if_pos ((slots_all_iff _ _ _).mpr h), ok_limbsOf hfit, groupsVal_slots_eq_sum] at hq

/-- The open result of LCVD2B as a number, from the group format and the groups read (R17, R173). -/
def openLong (d : Divisor) (gs : List Limb) : Nat :=
  limbsVal ((List.range (nOf gs.length (divisorValue d))).map
    (Config.unspecLcvd2bR (divisorValue d) gs))

theorem openLong_slots_lt (d : Divisor) (p : Port) (k : Nat) :
    openLong d (slots p k) < 2 ^ (128 * nOf k (divisorValue d)) := by
  have h := limbsVal_lt ((List.range (nOf k (divisorValue d))).map
    (Config.unspecLcvd2bR (divisorValue d) (slots p k)))
  rw [List.length_map, List.length_range] at h
  rwa [openLong, slots_length]

theorem lcvd2b_answers_open {k : Nat} {d : Divisor} {q : Request}
    (h : ∃ j, j < k ∧ groupValid d (slot q.a j) = false) :
    Answers (.lcvd2b k d) q (performed (openLong d (slots q.a k))) := by
  have hq := answers_of_transact (i := .lcvd2b k d) (fun _ => rfl) q
  have hall : (slots q.a k).all (groupValid d) = false := (slots_all_eq_false _ _ _).mpr h
  rw [if_neg (by rw [hall]; decide), ok_eq_performed] at hq
  rwa [openLong, slots_length]

theorem encode_lcvd2b {k : Nat} {d : Divisor} (hk : k ≤ 32) (hd : d ≠ .e16) :
    encode (.lcvd2b k d)
      = BitVec.ofNat 32 (0x65 + 2 ^ 8 * (if d = .e31 then 1 else 2) + 2 ^ 16 * k) := by
  have hcode : divisorCode d = if d = .e31 then 1 else 2 := by
    cases d with
    | e16 => exact absurd rfl hd
    | e31 => rfl
    | e32 => rfl
  have h := encode_eq_wordOf (i := .lcvd2b k d)
    (Nat.lt_of_le_of_lt (divisorCode_le d) (by decide)) (show k < 256 by omega)
  rw [← hcode]
  exact h

/-- Settles O54: Horner's rule over the groups, and N_OF by the search that defines it. -/
theorem longDecimalToBinaryValue : Obligations.LongDecimalToBinaryValue := by
  refine ⟨by decide +kernel, by decide +kernel, fun k q _ hk hv => ?_, fun k q _ hk hv => ?_,
    fun k d _ hk hd => ?_, ⟨openLong, fun k q _ _ => ⟨fun hbad => ?_, fun hbad => ?_⟩⟩,
    fun n m hn hbad hm => ?_, fun n m h1 hn hm hbad => ?_⟩
  · have h := lcvd2b_answers_value (d := .e31) (q := q) hk (by decide) fun j hj => by
      rw [groupValid_e31, (hv j hj).1, (hv j hj).2]; rfl
    simpa only [divisorValue, groupVal, ← Nat.pow_mul] using h
  · have h := lcvd2b_answers_value (d := .e32) (q := q) hk (by decide) hv
    simpa only [divisorValue, groupVal, ← Nat.pow_mul] using h
  · obtain ⟨henough, hleast⟩ := nOf_spec hk (divisorValue_le d)
    exact ⟨henough, hleast, encode_lcvd2b hk hd⟩
  · simp only [← groupValid_e31] at hbad
    exact ⟨openLong_slots_lt .e31 q.a k, lcvd2b_answers_open hbad⟩
  · exact ⟨openLong_slots_lt .e32 q.a k, lcvd2b_answers_open (d := .e32) hbad⟩
  · have hnone : countOfCode 1 32 n = none := countOfCode_eq_none (by omega)
    exact (decode_wordOf (by decide) hm (by omega) rfl).trans (readFields_si_illegalShape hnone)
  · exact (decode_wordOf (by decide) hm (by omega) rfl).trans
      (readFields_si_illegalImmediate (countOfCode_eq_some h1 hn) (groupDivisorOfCode_eq_none hbad))

end Sys2Proof.Machine
end

section
/-! SUPPORT. What every transaction does, whichever operation it runs: the response of each operation to each
request, what that response writes (R25, R60) and what it depends on (R24, R33, R60); then steps, runs and the
first request after reset (R20, R26, R39, R45), and the statements on them. -/

namespace Sys2Proof.Machine

/-! ## The response of an operation to a request (R26) -/

/-- The response `exec i` delivers to `q`, read off the machine right after reset with `q` put in flight.
`exec_eq_transact` says that every other state gets it too. -/
def answer (i : Instr) (q : Request) : Response :=
  match exec i { State.reset with inflight := some q } with
  | .next t => t.delivered.headD (Response.ok [])
  | .fault _ | .refused _ => Response.ok []

/-- Every operation is one transaction of its response. -/
theorem exec_eq_transact (i : Instr) (s : State) : exec i s = s.transact (answer i) := by
  cases i <;> rfl

theorem answers_answer (i : Instr) (q : Request) : Answers i q (answer i q) :=
  answers_of_transact (exec_eq_transact i) q

theorem answer_of_transact {i : Instr} {f : Request → Response} (h : ∀ s, exec i s = s.transact f)
    (q : Request) : answer i q = f q :=
  answers_unique (answers_answer i q) (answers_of_transact h q)

/-! ## What an operation writes (R25, R60) -/

/-- A response of an operation that was performed, with as many slots as `i` writes, and 0 where `i` writes no
second result or no single bit. -/
def WritesAtMost (i : Instr) (r : Response) : Prop :=
  ∃ ls s t, r = Response.ok ls s t ∧ ls.length = writesR i
    ∧ (writesS i = false → s = 0) ∧ (writesT i = false → t = false)

namespace WritesAtMost

variable {i : Instr} {r r' : Response} {ls : List Limb} {q : Request}

theorem of_transact {f : Request → Response} (hf : ∀ s, exec i s = s.transact f)
    (h : WritesAtMost i (f q)) : WritesAtMost i (answer i q) :=
  answer_of_transact hf q ▸ h

theorem slotsOnly (h : ls.length = writesR i) : WritesAtMost i (.ok ls) :=
  ⟨ls, 0, false, rfl, h, fun _ => rfl, fun _ => rfl⟩

theorem withSecond {s : Limb} (h : ls.length = writesR i) (hs : writesS i = true) :
    WritesAtMost i (.ok ls s) :=
  ⟨ls, s, false, rfl, h, fun hn => Bool.noConfusion (hs.symm.trans hn), fun _ => rfl⟩

theorem withBit {t : Bool} (h : ls.length = writesR i) (ht : writesT i = true) :
    WritesAtMost i (.ok ls 0 t) :=
  ⟨ls, 0, t, rfl, h, fun _ => rfl, fun hn => Bool.noConfusion (ht.symm.trans hn)⟩

theorem ite {p : Prop} [Decidable p] (h : WritesAtMost i r) (h' : WritesAtMost i r') :
    WritesAtMost i (if p then r else r') := by
  split <;> assumption

theorem two {u f : Limb → Limb → Response} (hu : ∀ a b, WritesAtMost i (u a b))
    (hf : ∀ a b, WritesAtMost i (f a b)) : WritesAtMost i (withTwo q u f) :=
  ite (hf _ _) (hu _ _)

theorem three {u f : Limb → Limb → Limb → Response} (hu : ∀ a b c, WritesAtMost i (u a b c))
    (hf : ∀ a b c, WritesAtMost i (f a b c)) : WritesAtMost i (withThree q u f) :=
  ite (hf _ _ _) (hu _ _ _)

theorem sequences {n : Nat} {u f : List Limb → List Limb → Response}
    (hu : WritesAtMost i (u (slots q.a n) (slots q.b n)))
    (hf : WritesAtMost i (f (slots q.a n) (slots q.b n))) :
    WritesAtMost i (withSequences q n u f) :=
  ite hf hu

theorem err_eq_zero (h : WritesAtMost i r) : r.err = 0 := by
  obtain ⟨ls, s, t, rfl, -⟩ := h
  rfl

theorem restIsZero (h : WritesAtMost i r) : restIsZero i r := by
  obtain ⟨ls, s, t, rfl, hlen, hs, ht⟩ := h
  refine ⟨fun j hj hmax => ?_, hs, ht⟩
  have h32 : j < 32 := hmax
  exact slot_portOf_above (by omega) (by omega)

end WritesAtMost

theorem answer_writesAtMost (i : Instr) (q : Request) : WritesAtMost i (answer i q) := by
  cases i with
  | addc | adde | subc | sube | cmpu | bcdvalid => exact .withBit rfl rfl
  | sli | sri | srai | bcdcpsgn | bcdsetsgn | bcdsl | bcdsr | bcdtrunc | bcdutrunc | cvz2d =>
    exact .slotsOnly rfl
  | mulw | divc => exact .withSecond rfl rfl
  | slv | srv | srav | bcdsrr | cvb2d | cvd2b | cvd2z =>
    exact .ite (.slotsOnly rfl) (.slotsOnly rfl)
  | mul10e | divdc => exact .ite (.withSecond rfl rfl) (.withSecond rfl rfl)
  | wadd n | wsub n => exact .withBit (by rw [chain_length _ (by simp), slots_length]; rfl) rfl
  | wmul shape => exact .slotsOnly (limbsOf_length _ _)
  | bcdadd | bcdsub | bcdmull | bcdmulh =>
    exact .two (fun _ _ => .slotsOnly rfl) fun _ _ => .slotsOnly rfl
  | bcddiv =>
    refine .of_transact (fun _ => rfl) (.two (fun _ _ => .slotsOnly rfl) fun a b => ?_)
    exact .ite (.slotsOnly rfl) (.slotsOnly rfl)
  | bcdaddc | bcdsubc | bcdmulf =>
    exact .two (fun _ _ => .withSecond rfl rfl) fun _ _ => .withSecond rfl rfl
  | bcdadde | bcdsube => exact .three (fun _ _ _ => .slotsOnly rfl) fun _ _ _ => .slotsOnly rfl
  | bcdaddec | bcdsubec =>
    exact .three (fun _ _ _ => .withSecond rfl rfl) fun _ _ _ => .withSecond rfl rfl
  | bcdcmp => exact .two (fun _ _ => .withBit rfl rfl) fun _ _ => .withBit rfl rfl
  | wbcdadd n | wbcdsub n =>
    refine .of_transact (fun _ => rfl) (.sequences ?_ ?_)
    · exact .withSecond (by simp [writesR]) rfl
    · exact .withSecond (by rw [decimalChain_length _ (by simp), slots_length]; rfl) rfl
  | lcvb2d n fmt => exact .slotsOnly (by simp [groupsOf, writesR])
  | lcvd2b k fmt => exact .ite (.slotsOnly (limbsOf_length _ _)) (.slotsOnly (by simp [writesR]))

/-- Settles O8: every operation is one transaction, and each of its branches answers with `Response.ok`. -/
theorem everyOperationCompletes : Obligations.EveryOperationCompletes := fun i q =>
  ⟨answer i q, (answer_writesAtMost i q).err_eq_zero, answers_answer i q⟩

/-- Settles O15: a port built from as many limbs as are written is 0 above them. -/
theorem unwrittenFieldsAreZero : Obligations.UnwrittenFieldsAreZero := fun i q _ =>
  ⟨answer i q, answers_answer i q, (answer_writesAtMost i q).restIsZero⟩

/-! ## What an operation depends on (R24, R33, R60) -/

section
variable {i : Instr} {q q' : Request} {n : Nat}

theorem agreeOnReads.slotA (h : agreeOnReads i q q') (hn : n < readsA i) :
    slot q.a n = slot q'.a n := h.1 n hn

theorem agreeOnReads.slotB (h : agreeOnReads i q q') (hn : n < readsB i) :
    slot q.b n = slot q'.b n := h.2.1 n hn

theorem agreeOnReads.slotsA (h : agreeOnReads i q q') :
    slots q.a (readsA i) = slots q'.a (readsA i) := slots_congr h.1

theorem agreeOnReads.slotsB (h : agreeOnReads i q q') :
    slots q.b (readsB i) = slots q'.b (readsB i) := slots_congr h.2.1

theorem agreeOnReads.carry (h : agreeOnReads i q q') : carryAgrees (readsC i) q.c q'.c := h.2.2

theorem withTwo_congr {u f : Limb → Limb → Response} (ha : slot q.a 0 = slot q'.a 0)
    (hb : slot q.b 0 = slot q'.b 0) : withTwo q u f = withTwo q' u f := by
  simp only [withTwo, ha, hb]

theorem withThree_congr {u f : Limb → Limb → Limb → Response} (ha : slot q.a 0 = slot q'.a 0)
    (hb : slot q.b 0 = slot q'.b 0) (hc : q.c = q'.c) : withThree q u f = withThree q' u f := by
  simp only [withThree, ha, hb, hc]

theorem withSequences_congr {u f : List Limb → List Limb → Response}
    (ha : slots q.a n = slots q'.a n) (hb : slots q.b n = slots q'.b n) :
    withSequences q n u f = withSequences q' n u f := by
  simp only [withSequences, ha, hb]

theorem wide_congr {p p' : Port} (h : slots p n = slots p' n) : wide p n = wide p' n :=
  congrArg limbsVal h

theorem answer_congr_of_transact {f : Request → Response} (hf : ∀ s, exec i s = s.transact f)
    (h : f q = f q') : answer i q = answer i q' := by
  rw [answer_of_transact hf, answer_of_transact hf, h]

/-- Requests that agree on what an operation reads get one response. -/
theorem answer_congr (h : agreeOnReads i q q') : answer i q = answer i q' := by
  have hA := h.slotsA
  have hB := h.slotsB
  have hC := h.carry
  cases i with
  | sli | sri | srai | divc | bcdsetsgn | bcdsl | bcdsr | bcdsrr | bcdtrunc | bcdutrunc | bcdvalid
  | cvb2d | cvd2b | cvz2d | cvd2z =>
    have ha := h.slotA Nat.one_pos
    exact answer_congr_of_transact (fun _ => rfl) (by simp only [ha])
  | addc | subc | cmpu | slv | srv | srav | mulw | mul10e | bcdcpsgn =>
    have ha := h.slotA Nat.one_pos
    have hb := h.slotB Nat.one_pos
    exact answer_congr_of_transact (fun _ => rfl) (by simp only [ha, hb])
  | adde | sube =>
    have ha := h.slotA Nat.one_pos
    have hb := h.slotB Nat.one_pos
    have hc : q.c.getLsbD 0 = q'.c.getLsbD 0 := hC
    exact answer_congr_of_transact (fun _ => rfl) (by simp only [ha, hb, hc])
  | divdc d =>
    have ha0 := h.slotA Nat.two_pos
    have ha1 := h.slotA Nat.one_lt_two
    exact answer_congr_of_transact (fun _ => rfl) (by simp only [ha0, ha1])
  | bcdadd | bcdsub | bcdaddc | bcdsubc | bcdcmp | bcdmull | bcdmulh | bcdmulf | bcddiv =>
    exact answer_congr_of_transact (fun _ => rfl)
      (withTwo_congr (h.slotA Nat.one_pos) (h.slotB Nat.one_pos))
  | bcdadde | bcdsube | bcdaddec | bcdsubec =>
    exact answer_congr_of_transact (fun _ => rfl)
      (withThree_congr (h.slotA Nat.one_pos) (h.slotB Nat.one_pos) hC)
  | wadd n | wsub n =>
    exact answer_congr_of_transact (fun _ => rfl)
      (congrArg₂ (fun as bs => chainResponse (chain _ as bs _)) hA hB)
  | wbcdadd n | wbcdsub n =>
    exact answer_congr_of_transact (fun _ => rfl) (withSequences_congr hA hB)
  | wmul shape =>
    have ha := wide_congr hA
    have hb := wide_congr hB
    exact answer_congr_of_transact (fun _ => rfl)
      (congrArg₂ (fun a b => Response.ok (limbsOf _ (a * b))) ha hb)
  | lcvb2d n fmt =>
    have ha : wide q.a n = wide q'.a n := wide_congr hA
    exact answer_congr_of_transact (fun _ => rfl) (by simp only [ha])
  | lcvd2b k fmt =>
    have ha : slots q.a k = slots q'.a k := hA
    exact answer_congr_of_transact (fun _ => rfl) (by simp only [ha])

end

/-- Settles O14: each operation's response is an expression in the slots and the carry that R60 lists. -/
theorem unreadFieldsHaveNoEffect : Obligations.UnreadFieldsHaveNoEffect := fun i q q' h =>
  ⟨answer i q, answers_answer i q, answer_congr h ▸ answers_answer i q'⟩

/-! ## Steps (R26, R45, R50, R200) -/

section
variable {s : State} {q : Request}

theorem step_of_idle (hr : s.resetLine = false) (hi : s.inflight = none) :
    step s = .next s.accept := by
  rcases step_cases s with ⟨h, _⟩ | ⟨_, _, h⟩ | ⟨q, i, _, h, _⟩ | ⟨q, e, _, h, _⟩
  · simp [hr] at h
  · exact h
  · simp [hi] at h
  · simp [hi] at h

/-- The response the unit gives to a request: that of the operation its command word decodes to, or the error
response (R200). -/
def Request.response (q : Request) : Response :=
  match q.operation with
  | .ok i => answer i q
  | .error e => Response.error e

theorem Request.response_of_decode {i : Instr} (hd : decode q.cw = .ok i) :
    q.response = answer i q := by
  simp [Request.response, Request.operation, hd]

theorem Request.response_of_illegal {e : DecodeError} (hd : decode q.cw = .error e) :
    q.response = Response.error e := by
  simp [Request.response, Request.operation, hd]

/-- A step with a request in flight delivers its response. -/
theorem step_of_inflight (hr : s.resetLine = false) (hq : s.inflight = some q) :
    step s = .next (s.deliver q.response) := by
  rcases step_cases s with ⟨h, _⟩ | ⟨_, h, _⟩ | ⟨q', i, _, hq', hd, h⟩ | ⟨q', e, _, hq', hd, h⟩
  · simp [hr] at h
  · simp [hq] at h
  · obtain rfl := Option.some.inj (hq.symm.trans hq')
    rw [h, exec_eq_transact, State.transact_of_inflight hq, Request.response_of_decode hd]
  · obtain rfl := Option.some.inj (hq.symm.trans hq')
    rw [h, State.raise, Request.response_of_illegal hd]

end

/-- Settles O5: the step and `exec` of the decoded operation deliver one response. -/
theorem stepRunsTheDecodedOperation : Obligations.StepRunsTheDecodedOperation :=
  fun s q i hr hq hd => by
    rw [step_of_inflight hr hq, Request.response_of_decode hd, exec_eq_transact,
      State.transact_of_inflight hq]

/-! ## Runs (R20, R39, R45) -/

theorem run_succ_of_step {s t : State} (h : step s = .next t) (k : Nat) :
    Host.Core.run core (k + 1) s = Host.Core.run core k t := by
  have hs : core.step s = .next t := h
  simp only [Host.Core.run, hs]

/-- Two steps of an idle unit accept the request at the head of the host's queue and answer it. -/
theorem run_answers_head {s : State} {q : Request} {rest : List Request} (hr : s.resetLine = false)
    (hi : s.inflight = none) (hq : s.hostQueue = q :: rest) (k : Nat) :
    Host.Core.run core (k + 2) s
      = Host.Core.run core k
          { s with hostQueue := rest, delivered := q.response :: s.delivered } := by
  have hanswer : step s.accept = .next (s.accept.deliver q.response) :=
    step_of_inflight (by rw [State.accept_resetLine, hr]) (by rw [State.accept_cons hq])
  have hstate : s.accept.deliver q.response
      = { s with hostQueue := rest, delivered := q.response :: s.delivered } := by
    rw [State.accept_cons hq, State.deliver, hi]
  rw [← hstate]
  exact (run_succ_of_step (step_of_idle hr hi) (k + 1)).trans (run_succ_of_step hanswer k)

/-- Settles O10: the first request after reset is one at the head of an idle unit's queue. -/
theorem firstRequestAfterResetIsAnsweredAsAnyOther :
    Obligations.FirstRequestAfterResetIsAnsweredAsAnyOther :=
  ⟨rfl, fun q => ⟨q.response,
    run_answers_head (s := State.reset.present q) (rest := []) rfl rfl rfl 0,
    fun _ hr hq => step_of_inflight hr hq⟩⟩

/-- Settles O13, by induction on the host's queue. -/
theorem responsesDependOnTheirRequestAlone : Obligations.ResponsesDependOnTheirRequestAlone := by
  refine ⟨Request.response, fun s hr hi => ?_⟩
  obtain ⟨line, inflight, queue, delivered⟩ := s
  subst hr hi
  induction queue generalizing delivered with
  | nil => rfl
  | cons q rest ih =>
    refine (run_answers_head rfl rfl rfl (2 * rest.length)).trans ?_
    simpa using ih (q.response :: delivered)

end Sys2Proof.Machine
end

section
/-! SUPPORT. Steps under reset and steps of an idle unit, and that every step has a next state (R45, R200, R213,
R220, R221), and the statement on them. -/

namespace Sys2Proof.Machine

section
variable {s : State}

/-- While reset is asserted a step only abandons what is in flight (R221). -/
theorem step_of_reset (hr : s.resetLine = true) : step s = .next s.underReset := by
  rcases step_cases s with ⟨_, h⟩ | ⟨h, _⟩ | ⟨_, _, h, _⟩ | ⟨_, _, h, _⟩
  · exact h
  all_goals simp [hr] at h

theorem step_of_idle_nil (hr : s.resetLine = false) (hi : s.inflight = none)
    (hq : s.hostQueue = []) : step s = .next s := by
  rw [step_of_idle hr hi, State.accept_nil hq]

theorem step_of_idle_cons {q : Request} {rest : List Request} (hr : s.resetLine = false)
    (hi : s.inflight = none) (hq : s.hostQueue = q :: rest) :
    step s = .next { s with inflight := some q, hostQueue := rest } := by
  rw [step_of_idle hr hi, State.accept_cons hq]

end

/-- No step is a fault or a refusal (R200, R230). -/
theorem step_total (s : State) : ∃ t, step s = .next t := by
  cases hr : s.resetLine with
  | true => exact ⟨_, step_of_reset hr⟩
  | false =>
    cases hi : s.inflight with
    | none => exact ⟨_, step_of_idle hr hi⟩
    | some q => exact ⟨_, step_of_inflight hr hi⟩

/-- Settles O9, by the branches of a step: under reset, idle with nothing presented, idle with a request
presented, and a request in flight, which is answered whatever its command word. -/
theorem stepsOutsideATransaction : Obligations.StepsOutsideATransaction :=
  ⟨step_total, fun _ => step_of_reset,
    fun _ hr hi => ⟨step_of_idle_nil hr hi, fun _ _ => step_of_idle_cons hr hi⟩⟩

end Sys2Proof.Machine
end

section
/-! SUPPORT. The opcode map row by row: each row reads back the codes its operation writes, and gives no operation
but the well-formed ones that have the fields it read (R51 to R57). -/

namespace Sys2Proof

/-! ## Codes of one field (R53 to R57) -/

/-- `ofCode` reads exactly the codes of the legal values; a legal value's code fits the field's eight bits, and
there is a legal value. -/
structure ReadsCodes {α : Type} (ofCode : Nat → Option α) (code : α → Nat) (legal : α → Bool) : Prop where
  ofCode_code : ∀ a, legal a = true → ofCode (code a) = some a
  of_eq_some : ∀ c a, ofCode c = some a → legal a = true ∧ code a = c
  code_lt : ∀ a, legal a = true → code a < 256
  exists_legal : ∃ a, legal a = true

theorem ReadsCodes.eq_some_iff {α : Type} {ofCode : Nat → Option α} {code : α → Nat} {legal : α → Bool}
    (h : ReadsCodes ofCode code legal) {c : Nat} {a : α} :
    ofCode c = some a ↔ legal a = true ∧ code a = c :=
  ⟨h.of_eq_some c a, fun ⟨hlegal, hc⟩ => hc ▸ h.ofCode_code a hlegal⟩

theorem readsCodes_count {lo hi : Nat} (hle : lo ≤ hi) (hhi : hi < 256) :
    ReadsCodes (countOfCode lo hi) (fun n => n) (inRange lo hi) where
  ofCode_code _ h := if_pos h
  of_eq_some _ _ h := by
    obtain ⟨rfl, hlo, hhi⟩ := countOfCode_some.mp h
    exact ⟨(inRange_iff ..).mpr ⟨hlo, hhi⟩, rfl⟩
  code_lt _ h := Nat.lt_of_le_of_lt ((inRange_iff ..).mp h).2 hhi
  exists_legal := ⟨lo, (inRange_iff ..).mpr ⟨le_rfl, hle⟩⟩

theorem readsCodes_cond : ReadsCodes condOfCode condCode fun _ => true where
  ofCode_code c _ := condOfCode_condCode c
  of_eq_some c a := by
    unfold condOfCode
    split <;> rintro ⟨⟩ <;> exact ⟨rfl, rfl⟩
  code_lt c _ := Nat.lt_of_le_of_lt (condCode_le c) (by decide)
  exists_legal := ⟨.eq, rfl⟩

theorem readsCodes_mulShape : ReadsCodes mulShapeOfCode mulShapeCode fun _ => true where
  ofCode_code m _ := mulShapeOfCode_mulShapeCode m
  of_eq_some c m := by
    unfold mulShapeOfCode
    split <;> rintro ⟨⟩ <;> exact ⟨rfl, rfl⟩
  code_lt m _ := Nat.lt_of_le_of_lt (mulShapeCode_le m) (by decide)
  exists_legal := ⟨.m128x128, rfl⟩

theorem readsCodes_divisor : ReadsCodes divisorOfCode divisorCode fun _ => true where
  ofCode_code d _ := divisorOfCode_divisorCode d
  of_eq_some c d := by
    unfold divisorOfCode
    split <;> rintro ⟨⟩ <;> exact ⟨rfl, rfl⟩
  code_lt d _ := Nat.lt_of_le_of_lt (divisorCode_le d) (by decide)
  exists_legal := ⟨.e16, rfl⟩

theorem readsCodes_groupDivisor : ReadsCodes groupDivisorOfCode divisorCode Divisor.isGroup where
  ofCode_code _ := groupDivisorOfCode_divisorCode
  of_eq_some c d := by
    unfold groupDivisorOfCode
    split <;> rintro ⟨⟩ <;> exact ⟨rfl, rfl⟩
  code_lt d _ := Nat.lt_of_le_of_lt (divisorCode_le d) (by decide)
  exists_legal := ⟨.e31, rfl⟩

theorem readsCodes_decFormat : ReadsCodes decFormatOfCode decFormatCode fun _ => true where
  ofCode_code f _ := decFormatOfCode_decFormatCode f
  of_eq_some c f := by
    unfold decFormatOfCode
    split <;> rintro ⟨⟩ <;> exact ⟨rfl, rfl⟩
  code_lt f _ := Nat.lt_of_le_of_lt (decFormatCode_le f) (by decide)
  exists_legal := ⟨.packed, rfl⟩

/-! ## The four formats (R51) -/

/-- Whether an operation is well formed, and its opcode, shape and immediate. -/
def Instr.fields (i : Instr) : Bool × Nat × Nat × Nat := (i.wellFormed, i.opc, i.shp, i.imm)

theorem Instr.fields_eq_iff {i : Instr} {w : Bool} {c p m : Nat} :
    i.fields = (w, c, p, m) ↔ i.wellFormed = w ∧ i.opc = c ∧ i.shp = p ∧ i.imm = m := by
  simp [Instr.fields]

/-- `f` is how the opcode of `i` reads its fields: it gives back `i` from the fields of `i`, gives only
well-formed operations with the fields it has read, and rejects no shape that goes with a legal immediate. -/
structure OpForm.IsFormOf (f : OpForm) (i : Instr) : Prop where
  reads_self : i.wellFormed = true → readFields f i.shp i.imm = .ok i
  fields_of_ok : ∀ {p m j}, readFields f p m = .ok j → j.fields = (true, i.opc, p, m)
  exists_imm : ∀ {p m}, readFields f p m ≠ .error .illegalShape → ∃ m' j, readFields f p m' = .ok j
  fields_lt : i.wellFormed = true → i.shp < 256 ∧ i.imm < 256

theorem readFields_z_ok {i j : Instr} {p m : Nat} :
    readFields (.z i) p m = .ok j ↔ p = 0 ∧ m = 0 ∧ i = j := by
  by_cases hp : p = 0 <;> by_cases hm : m = 0 <;> simp [readFields, hp, hm]

theorem readFields_i_ok {g : Nat → Option Instr} {j : Instr} {p m : Nat} :
    readFields (.i g) p m = .ok j ↔ p = 0 ∧ g m = some j := by
  by_cases hp : p = 0 <;> cases hg : g m <;> simp [readFields, hp, hg]

theorem readFields_s_ok {g : Nat → Option Instr} {j : Instr} {p m : Nat} :
    readFields (.s g) p m = .ok j ↔ g p = some j ∧ m = 0 := by
  cases hg : g p <;> by_cases hm : m = 0 <;> simp [readFields, hg, hm]

theorem readFields_si_ok {g : Nat → Option Nat} {h : Nat → Option Divisor} {op : Nat → Divisor → Instr}
    {j : Instr} {p m : Nat} :
    readFields (.si g h op) p m = .ok j ↔ ∃ n d, g p = some n ∧ h m = some d ∧ op n d = j := by
  cases hg : g p <;> cases hh : h m <;> simp [readFields, hg, hh]

/-- Format Z: both fields are unused. -/
theorem isFormOf_z {i : Instr} {c : Nat} (hi : i.fields = (true, c, 0, 0)) : (OpForm.z i).IsFormOf i := by
  obtain ⟨hw, rfl, hp, hm⟩ := Instr.fields_eq_iff.mp hi
  exact {
    reads_self := fun _ => readFields_z_ok.mpr ⟨hp, hm, rfl⟩
    fields_of_ok := fun h => by
      obtain ⟨rfl, rfl, rfl⟩ := readFields_z_ok.mp h
      exact hi
    exists_imm := fun {p m} h => by
      have hp0 : p = 0 := by_contra fun hne => h (if_pos hne)
      exact ⟨0, i, readFields_z_ok.mpr ⟨hp0, rfl, rfl⟩⟩
    fields_lt := fun _ => by omega }

section
variable {α : Type} {ofCode : Nat → Option α} {code : α → Nat} {legal : α → Bool}
  (hcodes : ReadsCodes ofCode code legal) {op : α → Instr} {c : Nat}
include hcodes

theorem map_ofCode_eq_some {k : Nat} {j : Instr} :
    (ofCode k).map op = some j ↔ ∃ a, legal a = true ∧ code a = k ∧ op a = j := by
  simp only [Option.map_eq_some_iff, hcodes.eq_some_iff, and_assoc]

/-- Format I: the immediate holds the code of the operand. -/
theorem isFormOf_i (hop : ∀ a, (op a).fields = (legal a, c, 0, code a)) (a : α) :
    (OpForm.i fun m => (ofCode m).map op).IsFormOf (op a) := by
  obtain ⟨hw, rfl, hp, hm⟩ := Instr.fields_eq_iff.mp (hop a)
  exact {
    reads_self := fun h =>
      readFields_i_ok.mpr ⟨hp, (map_ofCode_eq_some hcodes).mpr ⟨a, hw ▸ h, hm.symm, rfl⟩⟩
    fields_of_ok := fun h => by
      obtain ⟨rfl, hj⟩ := readFields_i_ok.mp h
      obtain ⟨b, hb, rfl, rfl⟩ := (map_ofCode_eq_some hcodes).mp hj
      rw [hop, hb]
    exists_imm := fun {p m} h => by
      have hp0 : p = 0 := by_contra fun hne => h (if_pos hne)
      obtain ⟨b, hb⟩ := hcodes.exists_legal
      exact ⟨code b, op b, readFields_i_ok.mpr ⟨hp0, (map_ofCode_eq_some hcodes).mpr ⟨b, hb, rfl, rfl⟩⟩⟩
    fields_lt := fun h => by
      have := hcodes.code_lt a (hw ▸ h)
      omega }

/-- Format S: the shape holds the code of the operand. -/
theorem isFormOf_s (hop : ∀ a, (op a).fields = (legal a, c, code a, 0)) (a : α) :
    (OpForm.s fun p => (ofCode p).map op).IsFormOf (op a) := by
  obtain ⟨hw, rfl, hp, hm⟩ := Instr.fields_eq_iff.mp (hop a)
  exact {
    reads_self := fun h =>
      readFields_s_ok.mpr ⟨(map_ofCode_eq_some hcodes).mpr ⟨a, hw ▸ h, hp.symm, rfl⟩, hm⟩
    fields_of_ok := fun h => by
      obtain ⟨hj, rfl⟩ := readFields_s_ok.mp h
      obtain ⟨b, hb, rfl, rfl⟩ := (map_ofCode_eq_some hcodes).mp hj
      rw [hop, hb]
    exists_imm := fun {p m} h => by
      obtain ⟨j, hj⟩ := Option.ne_none_iff_exists'.mp fun hnone => h (readFields_s_illegalShape hnone)
      exact ⟨0, j, readFields_s_ok.mpr ⟨hj, rfl⟩⟩
    fields_lt := fun h => by
      have := hcodes.code_lt a (hw ▸ h)
      omega }

end

/-- Format SI: the shape holds a count and the immediate a divisor code. -/
theorem isFormOf_si {lo hi c : Nat} {op : Nat → Divisor → Instr} (hle : lo ≤ hi) (hhi : hi < 256)
    (hop : ∀ n d, (op n d).fields = (inRange lo hi n && d.isGroup, c, n, divisorCode d)) (n : Nat)
    (d : Divisor) : (OpForm.si (countOfCode lo hi) groupDivisorOfCode op).IsFormOf (op n d) := by
  have hcount := readsCodes_count hle hhi
  have hgroup := readsCodes_groupDivisor
  obtain ⟨hw, rfl, hp, hm⟩ := Instr.fields_eq_iff.mp (hop n d)
  have legal_of_wf (h : (op n d).wellFormed = true) : inRange lo hi n = true ∧ d.isGroup = true :=
    Bool.and_eq_true_iff.mp (hw ▸ h)
  exact {
    reads_self := fun h => by
      obtain ⟨hn, hd⟩ := legal_of_wf h
      exact readFields_si_ok.mpr ⟨n, d, hcount.eq_some_iff.mpr ⟨hn, hp.symm⟩,
        hgroup.eq_some_iff.mpr ⟨hd, hm.symm⟩, rfl⟩
    fields_of_ok := fun h => by
      obtain ⟨n', d', hn', hd', rfl⟩ := readFields_si_ok.mp h
      obtain ⟨hn, rfl⟩ := hcount.eq_some_iff.mp hn'
      obtain ⟨hd, rfl⟩ := hgroup.eq_some_iff.mp hd'
      rw [hop, hn, hd, Bool.and_self]
    exists_imm := fun {p m} h => by
      obtain ⟨n', hn'⟩ := Option.ne_none_iff_exists'.mp fun hnone => h (readFields_si_illegalShape hnone)
      obtain ⟨d', hd'⟩ := hgroup.exists_legal
      exact ⟨divisorCode d', op n' d',
        readFields_si_ok.mpr ⟨n', d', hn', hgroup.eq_some_iff.mpr ⟨hd', rfl⟩, rfl⟩⟩
    fields_lt := fun h => by
      obtain ⟨hn, hd⟩ := legal_of_wf h
      have hn := hcount.code_lt n hn
      have hd := hgroup.code_lt d hd
      omega }

/-! ## The opcode map, row by row (R52) -/

theorem readsCodes_shiftCount : ReadsCodes (countOfCode 0 127) (fun n => n) (inRange 0 127) :=
  readsCodes_count (by decide) (by decide)

theorem readsCodes_limbCount : ReadsCodes (countOfCode 1 32) (fun n => n) (inRange 1 32) :=
  readsCodes_count (by decide) (by decide)

theorem readsCodes_digitCount : ReadsCodes (countOfCode 0 31) (fun n => n) (inRange 0 31) :=
  readsCodes_count (by decide) (by decide)

/-- Every operation's opcode is assigned the form that reads its fields. -/
theorem opForm_opc (i : Instr) : ∃ f, opForm i.opc = some f ∧ f.IsFormOf i :=
  match i with
  | .addc => ⟨_, rfl, isFormOf_z rfl⟩
  | .adde => ⟨_, rfl, isFormOf_z rfl⟩
  | .subc => ⟨_, rfl, isFormOf_z rfl⟩
  | .sube => ⟨_, rfl, isFormOf_z rfl⟩
  | .cmpu cond => ⟨_, rfl, isFormOf_i readsCodes_cond (op := .cmpu) (fun _ => rfl) cond⟩
  | .sli n => ⟨_, rfl, isFormOf_i readsCodes_shiftCount (op := .sli) (fun _ => rfl) n⟩
  | .sri n => ⟨_, rfl, isFormOf_i readsCodes_shiftCount (op := .sri) (fun _ => rfl) n⟩
  | .srai n => ⟨_, rfl, isFormOf_i readsCodes_shiftCount (op := .srai) (fun _ => rfl) n⟩
  | .slv => ⟨_, rfl, isFormOf_z rfl⟩
  | .srv => ⟨_, rfl, isFormOf_z rfl⟩
  | .srav => ⟨_, rfl, isFormOf_z rfl⟩
  | .mulw => ⟨_, rfl, isFormOf_z rfl⟩
  | .mul10e => ⟨_, rfl, isFormOf_z rfl⟩
  | .wadd n => ⟨_, rfl, isFormOf_s readsCodes_limbCount (op := .wadd) (fun _ => rfl) n⟩
  | .wsub n => ⟨_, rfl, isFormOf_s readsCodes_limbCount (op := .wsub) (fun _ => rfl) n⟩
  | .wmul shape => ⟨_, rfl, isFormOf_s readsCodes_mulShape (op := .wmul) (fun _ => rfl) shape⟩
  | .divc d => ⟨_, rfl, isFormOf_s readsCodes_divisor (op := .divc) (fun _ => rfl) d⟩
  | .divdc d => ⟨_, rfl, isFormOf_s readsCodes_groupDivisor (op := .divdc) (fun _ => rfl) d⟩
  | .bcdadd => ⟨_, rfl, isFormOf_z rfl⟩
  | .bcdsub => ⟨_, rfl, isFormOf_z rfl⟩
  | .bcdaddc => ⟨_, rfl, isFormOf_z rfl⟩
  | .bcdsubc => ⟨_, rfl, isFormOf_z rfl⟩
  | .bcdadde => ⟨_, rfl, isFormOf_z rfl⟩
  | .bcdsube => ⟨_, rfl, isFormOf_z rfl⟩
  | .bcdaddec => ⟨_, rfl, isFormOf_z rfl⟩
  | .bcdsubec => ⟨_, rfl, isFormOf_z rfl⟩
  | .bcdcmp cond => ⟨_, rfl, isFormOf_i readsCodes_cond (op := .bcdcmp) (fun _ => rfl) cond⟩
  | .bcdcpsgn => ⟨_, rfl, isFormOf_z rfl⟩
  | .bcdsetsgn => ⟨_, rfl, isFormOf_z rfl⟩
  | .bcdsl n => ⟨_, rfl, isFormOf_i readsCodes_digitCount (op := .bcdsl) (fun _ => rfl) n⟩
  | .bcdsr n => ⟨_, rfl, isFormOf_i readsCodes_digitCount (op := .bcdsr) (fun _ => rfl) n⟩
  | .bcdsrr n => ⟨_, rfl, isFormOf_i readsCodes_digitCount (op := .bcdsrr) (fun _ => rfl) n⟩
  | .bcdtrunc k => ⟨_, rfl, isFormOf_i readsCodes_digitCount (op := .bcdtrunc) (fun _ => rfl) k⟩
  | .bcdutrunc k =>
    ⟨_, rfl, isFormOf_i (readsCodes_count (by decide) (by decide)) (op := .bcdutrunc) (fun _ => rfl) k⟩
  | .bcdvalid fmt => ⟨_, rfl, isFormOf_s readsCodes_decFormat (op := .bcdvalid) (fun _ => rfl) fmt⟩
  | .wbcdadd n => ⟨_, rfl, isFormOf_s readsCodes_limbCount (op := .wbcdadd) (fun _ => rfl) n⟩
  | .wbcdsub n => ⟨_, rfl, isFormOf_s readsCodes_limbCount (op := .wbcdsub) (fun _ => rfl) n⟩
  | .cvb2d => ⟨_, rfl, isFormOf_z rfl⟩
  | .cvd2b => ⟨_, rfl, isFormOf_z rfl⟩
  | .cvz2d => ⟨_, rfl, isFormOf_z rfl⟩
  | .cvd2z => ⟨_, rfl, isFormOf_z rfl⟩
  | .lcvb2d n fmt => ⟨_, rfl, isFormOf_si (by decide) (by decide) (op := .lcvb2d) (fun _ _ => rfl) n fmt⟩
  | .lcvd2b k fmt => ⟨_, rfl, isFormOf_si (by decide) (by decide) (op := .lcvd2b) (fun _ _ => rfl) k fmt⟩
  | .bcdmull => ⟨_, rfl, isFormOf_z rfl⟩
  | .bcdmulh => ⟨_, rfl, isFormOf_z rfl⟩
  | .bcdmulf => ⟨_, rfl, isFormOf_z rfl⟩
  | .bcddiv => ⟨_, rfl, isFormOf_z rfl⟩

theorem isFormOf_of_opForm_opc {i : Instr} {f : OpForm} (hf : opForm i.opc = some f) : f.IsFormOf i := by
  obtain ⟨g, hg, hform⟩ := opForm_opc i
  rwa [Option.some.inj (hf.symm.trans hg)]

/-- A well-formed operation of each opcode, in the order of R52. -/
def opcodeRows : List Instr :=
  [.addc, .adde, .subc, .sube, .cmpu .eq, .sli 0, .sri 0, .srai 0, .slv, .srv, .srav, .mulw, .mul10e,
    .wadd 1, .wsub 1, .wmul .m128x128, .divc .e16, .divdc .e31, .bcdadd, .bcdsub, .bcdaddc, .bcdsubc,
    .bcdadde, .bcdsube, .bcdaddec, .bcdsubec, .bcdcmp .eq, .bcdcpsgn, .bcdsetsgn, .bcdsl 0, .bcdsr 0,
    .bcdsrr 0, .bcdtrunc 0, .bcdutrunc 0, .bcdvalid .packed, .wbcdadd 1, .wbcdsub 1, .cvb2d, .cvd2b, .cvz2d,
    .cvd2z, .lcvb2d 1 .e31, .lcvd2b 1 .e31, .bcdmull, .bcdmulh, .bcdmulf, .bcddiv]

theorem wellFormed_of_mem_opcodeRows : ∀ i ∈ opcodeRows, i.wellFormed = true := by decide

/-- `c` is one of the 47 opcodes of R52. -/
def AssignedOpcode (c : Nat) : Prop :=
  (0x10 ≤ c ∧ c ≤ 0x1C) ∨ (0x20 ≤ c ∧ c ≤ 0x22) ∨ (0x30 ≤ c ∧ c ≤ 0x31) ∨ (0x40 ≤ c ∧ c ≤ 0x52)
    ∨ (0x60 ≤ c ∧ c ≤ 0x65) ∨ (0x70 ≤ c ∧ c ≤ 0x73)

theorem assignedOpcode_opc (i : Instr) : AssignedOpcode i.opc := by
  unfold AssignedOpcode
  cases i <;> simp [Instr.opc]

theorem exists_wellFormed_of_assignedOpcode {c : Nat} (h : AssignedOpcode c) :
    ∃ i : Instr, i.wellFormed = true ∧ i.opc = c := by
  have hmem : c ∈ opcodeRows.map Instr.opc := by
    simp only [AssignedOpcode] at h
    simp only [opcodeRows, List.map_cons, List.map_nil, List.mem_cons, List.not_mem_nil, Instr.opc]
    omega
  obtain ⟨i, hi, hc⟩ := List.mem_map.mp hmem
  exact ⟨i, wellFormed_of_mem_opcodeRows i hi, hc⟩

theorem exists_wellFormed_opc_iff (c : Nat) :
    (∃ i : Instr, i.wellFormed = true ∧ i.opc = c) ↔ AssignedOpcode c :=
  ⟨fun ⟨i, _, hc⟩ => hc ▸ assignedOpcode_opc i, exists_wellFormed_of_assignedOpcode⟩

theorem assignedOpcode_of_opForm {c : Nat} {f : OpForm} (h : opForm c = some f) : AssignedOpcode c := by
  unfold opForm at h
  unfold AssignedOpcode
  split at h <;> cases h <;> decide

theorem opForm_eq_none_iff (c : Nat) :
    opForm c = none ↔ ¬ ∃ i : Instr, i.wellFormed = true ∧ i.opc = c := by
  constructor
  · rintro h ⟨i, _, rfl⟩
    obtain ⟨f, hf, _⟩ := opForm_opc i
    exact Option.some_ne_none f (hf.symm.trans h)
  · intro h
    by_contra hne
    obtain ⟨f, hf⟩ := Option.ne_none_iff_exists'.mp hne
    exact h (exists_wellFormed_of_assignedOpcode (assignedOpcode_of_opForm hf))

/-! ## The shape and immediate checks of an assigned opcode (R53, R54, R63) -/

section
variable {c p m : Nat} {f : OpForm} (hf : opForm c = some f)
include hf

theorem exists_isFormOf_of_opForm : ∃ i : Instr, i.opc = c ∧ f.IsFormOf i := by
  obtain ⟨i, _, rfl⟩ := exists_wellFormed_of_assignedOpcode (assignedOpcode_of_opForm hf)
  exact ⟨i, rfl, isFormOf_of_opForm_opc hf⟩

/-- The fields of an assigned opcode read as exactly the well-formed operation that has them. -/
theorem readFields_eq_ok_iff {i : Instr} : readFields f p m = .ok i ↔ i.fields = (true, c, p, m) := by
  constructor
  · intro h
    obtain ⟨j, rfl, hform⟩ := exists_isFormOf_of_opForm hf
    exact hform.fields_of_ok h
  · intro h
    obtain ⟨hw, rfl, rfl, rfl⟩ := Instr.fields_eq_iff.mp h
    exact (isFormOf_of_opForm_opc hf).reads_self hw

theorem readFields_eq_illegalShape
    (h : ¬ ∃ i : Instr, i.wellFormed = true ∧ i.opc = c ∧ i.shp = p) :
    readFields f p m = .error .illegalShape := by
  by_contra hne
  obtain ⟨_, _, hform⟩ := exists_isFormOf_of_opForm hf
  obtain ⟨m', j, hj⟩ := hform.exists_imm hne
  obtain ⟨hw, hc, hp, _⟩ := Instr.fields_eq_iff.mp ((readFields_eq_ok_iff hf).mp hj)
  exact h ⟨j, hw, hc, hp⟩

end

/-- A shape that is accepted with one immediate is accepted with every immediate. -/
theorem readFields_ne_illegalShape {f : OpForm} {p m m' : Nat} {i : Instr}
    (h : readFields f p m' = .ok i) : readFields f p m ≠ .error .illegalShape := by
  cases f with
  | z i =>
    obtain ⟨rfl, _⟩ := readFields_z_ok.mp h
    by_cases hm : m = 0 <;> simp [readFields, hm]
  | i g =>
    obtain ⟨rfl, _⟩ := readFields_i_ok.mp h
    cases hg : g m <;> simp [readFields, hg]
  | s g =>
    obtain ⟨hp, _⟩ := readFields_s_ok.mp h
    by_cases hm : m = 0 <;> simp [readFields, hp, hm]
  | si g g' op =>
    obtain ⟨n, _, hp, _⟩ := readFields_si_ok.mp h
    cases hm : g' m <;> simp [readFields, hp, hm]

/-- After the opcode and the reserved field, only the shape and the immediate can be at fault. -/
theorem readFields_cases (f : OpForm) (p m : Nat) :
    readFields f p m = .error .illegalShape ∨ readFields f p m = .error .illegalImmediate
      ∨ ∃ i, readFields f p m = .ok i := by
  cases f with
  | z i => by_cases hp : p = 0 <;> by_cases hm : m = 0 <;> simp [readFields, hp, hm]
  | i g => by_cases hp : p = 0 <;> cases hg : g m <;> simp [readFields, hp, hg]
  | s g => cases hg : g p <;> by_cases hm : m = 0 <;> simp [readFields, hg, hm]
  | si g g' op => cases hg : g p <;> cases hm : g' m <;> simp [readFields, hg, hm]

theorem readFields_eq_illegalImmediate {c p m : Nat} {f : OpForm} (hf : opForm c = some f)
    (hs : ∃ i : Instr, i.wellFormed = true ∧ i.opc = c ∧ i.shp = p)
    (h : ¬ ∃ i : Instr, i.wellFormed = true ∧ i.opc = c ∧ i.shp = p ∧ i.imm = m) :
    readFields f p m = .error .illegalImmediate := by
  obtain ⟨i, hw, hc, hp⟩ := hs
  have hshape : readFields f p i.imm = .ok i :=
    (readFields_eq_ok_iff hf).mpr (Instr.fields_eq_iff.mpr ⟨hw, hc, hp, rfl⟩)
  rcases readFields_cases f p m with hp | hm | ⟨j, hj⟩
  · exact absurd hp (readFields_ne_illegalShape hshape)
  · exact hm
  · exact absurd ⟨j, Instr.fields_eq_iff.mp ((readFields_eq_ok_iff hf).mp hj)⟩ h

end Sys2Proof
end

section
/-! SUPPORT. The decoder by the fields of the word, and that it inverts the encoder (R51, R58, R63, R203), and the
statements on encoding. -/

namespace Sys2Proof

/-! ## Decoding and encoding (R51, R58, R63) -/

theorem exists_opForm_opc {i : Instr} {c : Nat} (hc : i.opc = c) : ∃ f, opForm c = some f := by
  obtain ⟨f, hf, _⟩ := opForm_opc i
  exact ⟨f, hc ▸ hf⟩

/-- A word decodes to exactly the well-formed operation that has its fields, its reserved field being 0. -/
theorem decode_eq_ok_iff {cw : CmdWord} {i : Instr} :
    decode cw = .ok i ↔
      (cwRsv cw).toNat = 0 ∧ i.fields = (true, (cwOpc cw).toNat, (cwShp cw).toNat, (cwImm cw).toNat) := by
  constructor
  · intro h
    cases hf : opForm (cwOpc cw).toNat with
    | none => exact nomatch (decode_unassigned hf).symm.trans h
    | some f =>
      by_cases hr : (cwRsv cw).toNat = 0
      · exact ⟨hr, (readFields_eq_ok_iff hf).mp ((decode_fields hf hr).symm.trans h)⟩
      · exact nomatch (decode_reserved hf hr).symm.trans h
  · rintro ⟨hr, hi⟩
    obtain ⟨_, hc, _⟩ := Instr.fields_eq_iff.mp hi
    obtain ⟨f, hf⟩ := exists_opForm_opc hc
    exact (decode_fields hf hr).trans ((readFields_eq_ok_iff hf).mpr hi)

theorem encode_hasFields (i : Instr) : Laws.EncodeFields.Statement i := fun h => by
  obtain ⟨_, _, hform⟩ := opForm_opc i
  obtain ⟨hs, hm⟩ := hform.fields_lt h
  exact Laws.fields_of_lt i hm hs h

/-- Settles O1: the command word of a well-formed operation has that operation's fields, and the decoder gives
the operation that has them. -/
theorem decodeOfEncodeIsTheOperation : Obligations.DecodeOfEncodeIsTheOperation := fun i h => by
  obtain ⟨hopc, himm, hshp, hrsv⟩ := encode_hasFields i h
  exact decode_eq_ok_iff.mpr ⟨by rw [hrsv]; rfl, by rw [hopc, himm, hshp, ← h]; rfl⟩

/-- A command word is its four fields side by side. -/
theorem cmdWord_toNat (cw : CmdWord) :
    cw.toNat = (cwRsv cw).toNat * 2 ^ 24 + (cwShp cw).toNat * 2 ^ 16 + (cwImm cw).toNat * 2 ^ 8
      + (cwOpc cw).toNat := by
  simp only [cwOpc, cwImm, cwShp, cwRsv, BitVec.extractLsb'_toNat, Nat.shiftRight_eq_div_pow]
  have := cw.isLt
  omega

/-- Settles O2: the operation a word decodes to has the word's fields, and a word is its four fields. -/
theorem decodedWordIsItsEncoding : Obligations.DecodedWordIsItsEncoding := fun cw i h => by
  obtain ⟨hrsv, hfields⟩ := decode_eq_ok_iff.mp h
  obtain ⟨hw, hopc, hshp, himm⟩ := Instr.fields_eq_iff.mp hfields
  refine ⟨hw, BitVec.eq_of_toNat_eq ?_⟩
  have hopc_lt := (cwOpc cw).isLt
  have himm_lt := (cwImm cw).isLt
  have hshp_lt := (cwShp cw).isLt
  rw [encode_toNat, cmdWord_toNat cw, hopc, hshp, himm, hrsv]
  omega

/-! ## The first failing check (R63, R203) -/

section
variable {cw : CmdWord}

theorem decode_eq_illegalOpcode
    (h : ¬ ∃ i : Instr, i.wellFormed = true ∧ i.opc = (cwOpc cw).toNat) :
    decode cw = .error .illegalOpcode :=
  decode_unassigned ((opForm_eq_none_iff _).mpr h)

theorem decode_eq_reservedNonzero
    (h : ∃ i : Instr, i.wellFormed = true ∧ i.opc = (cwOpc cw).toNat) (hr : cwRsv cw ≠ 0) :
    decode cw = .error .reservedNonzero := by
  obtain ⟨_, _, hc⟩ := h
  obtain ⟨f, hf⟩ := exists_opForm_opc hc
  exact decode_reserved hf fun h0 => hr (BitVec.eq_of_toNat_eq h0)

theorem decode_eq_illegalShape
    (h : ∃ i : Instr, i.wellFormed = true ∧ i.opc = (cwOpc cw).toNat) (hr : cwRsv cw = 0)
    (hs : ¬ ∃ i : Instr, i.wellFormed = true ∧ i.opc = (cwOpc cw).toNat ∧ i.shp = (cwShp cw).toNat) :
    decode cw = .error .illegalShape := by
  obtain ⟨_, _, hc⟩ := h
  obtain ⟨f, hf⟩ := exists_opForm_opc hc
  exact (decode_fields hf (by rw [hr]; rfl)).trans (readFields_eq_illegalShape hf hs)

theorem decode_eq_illegalImmediate (hr : cwRsv cw = 0)
    (hs : ∃ i : Instr, i.wellFormed = true ∧ i.opc = (cwOpc cw).toNat ∧ i.shp = (cwShp cw).toNat)
    (hm : ¬ ∃ i : Instr, i.wellFormed = true ∧ i.opc = (cwOpc cw).toNat ∧ i.shp = (cwShp cw).toNat
      ∧ i.imm = (cwImm cw).toNat) :
    decode cw = .error .illegalImmediate := by
  have ⟨_, _, hc, _⟩ := hs
  obtain ⟨f, hf⟩ := exists_opForm_opc hc
  exact (decode_fields hf (by rw [hr]; rfl)).trans (readFields_eq_illegalImmediate hf hs hm)

theorem exists_decode_eq_ok (hr : cwRsv cw = 0)
    (hm : ∃ i : Instr, i.wellFormed = true ∧ i.opc = (cwOpc cw).toNat ∧ i.shp = (cwShp cw).toNat
      ∧ i.imm = (cwImm cw).toNat) :
    ∃ i, decode cw = .ok i := by
  obtain ⟨i, hi⟩ := hm
  exact ⟨i, decode_eq_ok_iff.mpr ⟨by rw [hr]; rfl, Instr.fields_eq_iff.mpr hi⟩⟩

end

/-- When each outcome is named under its own condition and every condition supposes the one before, the outcome
says which check failed first. -/
theorem firstFailing_iff {opc shp imm rsv : Prop} {x : Except DecodeError Instr}
    (opc_of_shp : shp → opc) (shp_of_imm : imm → shp) (h_opc : ¬ opc → x = .error .illegalOpcode)
    (h_rsv : opc → ¬ rsv → x = .error .reservedNonzero)
    (h_shp : opc → rsv → ¬ shp → x = .error .illegalShape)
    (h_imm : rsv → shp → ¬ imm → x = .error .illegalImmediate) (h_ok : rsv → imm → ∃ i, x = .ok i) :
    (x = .error .illegalOpcode ↔ ¬ opc) ∧ (x = .error .reservedNonzero ↔ opc ∧ ¬ rsv)
      ∧ (x = .error .illegalShape ↔ opc ∧ rsv ∧ ¬ shp)
      ∧ (x = .error .illegalImmediate ↔ rsv ∧ shp ∧ ¬ imm) ∧ ((∃ i, x = .ok i) ↔ rsv ∧ imm) := by
  by_cases hopc : opc
  case neg =>
    have hshp : ¬ shp := mt opc_of_shp hopc
    simp [h_opc hopc, hopc, hshp, mt shp_of_imm hshp]
  by_cases hrsv : rsv
  case neg => simp [h_rsv hopc hrsv, hopc, hrsv]
  by_cases hshp : shp
  case neg => simp [h_shp hopc hrsv hshp, hopc, hrsv, hshp, mt shp_of_imm hshp]
  by_cases himm : imm
  case neg => simp [h_imm hrsv hshp himm, hopc, hrsv, hshp, himm]
  obtain ⟨i, hi⟩ := h_ok hrsv himm
  simp [hi, hopc, hrsv, hshp, himm]

/-- Settles O3, from the outcome of each check under the checks before it. -/
theorem decoderReportsFirstFailingCheck : Obligations.DecoderReportsFirstFailingCheck :=
  ⟨exists_wellFormed_opc_iff, fun _ =>
    firstFailing_iff (fun ⟨i, hw, hc, _⟩ => ⟨i, hw, hc⟩) (fun ⟨i, hw, hc, hp, _⟩ => ⟨i, hw, hc, hp⟩)
      decode_eq_illegalOpcode decode_eq_reservedNonzero decode_eq_illegalShape decode_eq_illegalImmediate
      exists_decode_eq_ok⟩

/-- Settles O4: each word is read by its fields and its row of the opcode map. -/
theorem sampleWordsDecode : Obligations.SampleWordsDecode :=
  ⟨rfl, rfl, rfl, rfl, rfl, rfl, rfl, rfl, rfl, rfl, rfl, rfl, rfl⟩

end Sys2Proof
end

section
/-! SUPPORT. The values and carries of the limb primitives, and the immediates they refuse (R71 to R85), and the
statements on them. -/

namespace Sys2Proof

/-! ## Illegal immediates (R53, R55, R63) -/

theorem readFields_i_illegalImmediate {ofImm : Nat → Option Instr} {imm : Nat} (h : ofImm imm = none) :
    readFields (.i ofImm) 0 imm = .error .illegalImmediate := by
  simp [readFields, h]

/-- An operation of format I rejects every immediate that its row of the opcode map does not read. -/
theorem decode_immediate_illegal {opc n : Nat} {ofImm : Nat → Option Instr} (ho : opc < 256)
    (hf : opForm opc = some (.i ofImm)) (hn : n < 256) (h : ofImm n = none) :
    decode (BitVec.ofNat 32 (opc + 2 ^ 8 * n)) = .error .illegalImmediate :=
  (decode_wordOf (shp := 0) ho hn (by decide) hf).trans (readFields_i_illegalImmediate h)

theorem condOfCode_eq_none {c : Nat} (h : 5 < c) : condOfCode c = none := by
  by_contra hne
  obtain ⟨cond, hcond⟩ := Option.ne_none_iff_exists'.mp hne
  have hcode := (readsCodes_cond.eq_some_iff.mp hcond).2
  have hle := condCode_le cond
  omega

/-- An operation whose immediate is a count from 0 to `hi` rejects every count above (R53). -/
theorem decode_countImmediate_illegal {opc hi n : Nat} {op : Nat → Instr} (ho : opc < 256)
    (hf : opForm opc = some (.i fun m => (countOfCode 0 hi m).map op)) (hhi : hi < n) (hn : n < 256) :
    decode (BitVec.ofNat 32 (opc + 2 ^ 8 * n)) = .error .illegalImmediate :=
  decode_immediate_illegal ho hf hn (by rw [countOfCode_eq_none (.inr hhi)]; rfl)

end Sys2Proof

namespace Sys2Proof.Machine

/-! ## Add and subtract (R33, R71 to R74) -/

/-- The sum of two limbs and a carry-in is below 2^129, so its carry is one bit. -/
theorem adderResponse_adder (a b : Limb) (cin : Bool) :
    adderResponse (adder a b cin)
      = performed ((a.toNat + b.toNat + cin.toNat) % 2 ^ 128)
          (t := decide ((a.toNat + b.toNat + cin.toNat) / 2 ^ 128 = 1)) := by
  have ha := a.isLt
  have hb := b.isLt
  have hcin := cin.toNat_le
  have hcarry : (adder a b cin).2 = decide ((a.toNat + b.toNat + cin.toNat) / 2 ^ 128 = 1) :=
    decide_eq_decide.mpr (by omega)
  rw [adderResponse, ok_one, hcarry, adder, BitVec.toNat_ofNat]

/-- On the path a + ~b + cin the carry is 1 exactly when no borrow is left. -/
theorem adderResponse_subtractor (a b : Limb) (cin : Bool) :
    adderResponse (subtractor a b cin)
      = performed ((a.toNat + (2 ^ 128 - 1 - b.toNat) + cin.toNat) % 2 ^ 128)
          (t := decide (b.toNat + (1 - cin.toNat) ≤ a.toNat)) := by
  have ha := a.isLt
  have hb := b.isLt
  have hcin := cin.toNat_le
  have hborrow : (a.toNat + (2 ^ 128 - 1 - b.toNat) + cin.toNat) / 2 ^ 128 = 1
      ↔ b.toNat + (1 - cin.toNat) ≤ a.toNat := by omega
  rw [subtractor, adderResponse_adder, BitVec.toNat_not, decide_eq_decide.mpr hborrow]

/-- The binary carry-in is operand C modulo 2 (R33). -/
theorem carryIn_toNat (c : Limb) : (c.getLsbD 0).toNat = c.toNat % 2 := by
  rw [BitVec.getLsbD, Nat.toNat_testBit, Nat.pow_zero, Nat.div_one]

/-- Settles O21: both operations are the adder, with carry-in 0 and with bit 0 of operand C. -/
theorem addLimbsGivesSumAndCarry : Obligations.AddLimbsGivesSumAndCarry := by
  refine ⟨rfl, rfl, fun q => ⟨?_, ?_⟩⟩
  · have h := answers_of_transact (i := .addc) (fun _ => rfl) q
    rwa [adderResponse_adder] at h
  · have h := answers_of_transact (i := .adde) (fun _ => rfl) q
    rwa [adderResponse_adder, carryIn_toNat] at h

/-- Settles O22: both operations are the subtract path, with carry-in 1 and with bit 0 of operand C. -/
theorem subtractLimbsGivesDifferenceAndNoBorrow :
    Obligations.SubtractLimbsGivesDifferenceAndNoBorrow := by
  refine ⟨rfl, rfl, fun q => ⟨?_, ?_⟩⟩
  · have h := answers_of_transact (i := .subc) (fun _ => rfl) q
    rwa [adderResponse_subtractor] at h
  · have h := answers_of_transact (i := .sube) (fun _ => rfl) q
    rwa [adderResponse_subtractor, carryIn_toNat] at h

/-! ## Comparison (R55, R75) -/

theorem cmpu_answers (cond : Cond) (q : Request) :
    Answers (.cmpu cond) q
      (performed 0 (t := condHolds cond ((slot q.a 0).toNat : Int) ((slot q.b 0).toNat : Int))) :=
  answers_of_transact (i := .cmpu cond) (fun _ => rfl) q

/-- Settles O23: each condition on the limbs as integers is the same condition on them as naturals. -/
theorem compareLimbsIsUnsigned : Obligations.CompareLimbsIsUnsigned := by
  refine ⟨fun q => ⟨?_, ?_, ?_, ?_, ?_, ?_⟩, rfl, fun n hn hlt =>
    decode_immediate_illegal (by decide) rfl hlt (by rw [condOfCode_eq_none hn]; rfl)⟩
  · simpa using cmpu_answers .eq q
  · simpa using cmpu_answers .ne q
  · simpa using cmpu_answers .lt q
  · simpa using cmpu_answers .le q
  · simpa using cmpu_answers .gt q
  · simpa using cmpu_answers .ge q

/-! ## Shifts (R77 to R83) -/

/-- The value of a limb as a signed integer, by its top bit (R9). -/
theorem limb_toInt_eq_ite (a : Limb) :
    a.toInt = if a.toNat < 2 ^ 127 then (a.toNat : Int) else a.toNat - 2 ^ 128 := by
  rw [BitVec.toInt_eq_toNat_cond]
  split <;> split <;> omega

theorem shiftLeft_toNat (a : Limb) (n : Nat) : (shiftLeft a n).toNat = a.toNat * 2 ^ n % 2 ^ 128 :=
  BitVec.toNat_ofNat ..

theorem shiftRight_toNat (a : Limb) (n : Nat) : (shiftRight a n).toNat = a.toNat / 2 ^ n := by
  rw [shiftRight, BitVec.toNat_ofNat]
  exact Nat.mod_eq_of_lt (Nat.lt_of_le_of_lt (Nat.div_le_self ..) a.isLt)

theorem shiftRightSigned_toNat (a : Limb) (n : Nat) :
    (shiftRightSigned a n).toNat
      = ((if a.toNat < 2 ^ 127 then (a.toNat : Int) else a.toNat - 2 ^ 128) / 2 ^ n % 2 ^ 128).toNat := by
  rw [shiftRightSigned, BitVec.toNat_ofInt, limb_toInt_eq_ite]
  rfl

/-- Settles O24: a shift is one slot of its value, whatever the count; the decoder reads counts to 127. -/
theorem shiftLimbByConstant : Obligations.ShiftLimbByConstant := by
  refine ⟨fun q n hn => ⟨?_, ?_, ?_, ?_, ?_, ?_⟩, fun n hn hlt => ⟨?_, ?_, ?_⟩⟩
  · rw [← shiftLeft_toNat, ← ok_one]
    exact answers_of_transact (i := .sli n) (fun _ => rfl) q
  · rw [← shiftRight_toNat, ← ok_one]
    exact answers_of_transact (i := .sri n) (fun _ => rfl) q
  · rw [← shiftRightSigned_toNat, ← ok_one]
    exact answers_of_transact (i := .srai n) (fun _ => rfl) q
  · exact encode_eq_wordOf (i := .sli n) (show n < 256 by omega) Laws.zero_lt
  · exact encode_eq_wordOf (i := .sri n) (show n < 256 by omega) Laws.zero_lt
  · exact encode_eq_wordOf (i := .srai n) (show n < 256 by omega) Laws.zero_lt
  · exact decode_countImmediate_illegal (by decide) rfl hn hlt
  · exact decode_countImmediate_illegal (by decide) rfl hn hlt
  · exact decode_countImmediate_illegal (by decide) rfl hn hlt

section
variable {f : Limb → Nat → Limb} {u : Limb → Limb → Limb} {a n : Limb}

/-- A count up to 127 is in the domain of a variable shift (R77). -/
theorem variableShift_of_le (h : n.toNat ≤ 127) :
    variableShift f u a n = performed (f a n.toNat).toNat := by
  rw [variableShift, if_pos h, ok_one]

/-- A count above 127 gives the open value, neither reduced nor saturated (R77). -/
theorem variableShift_of_gt (h : 127 < n.toNat) : variableShift f u a n = performed (u a n).toNat := by
  rw [variableShift, if_neg (Nat.not_le.mpr h), ok_one]

end

theorem slv_answers (q : Request) :
    Answers .slv q (variableShift shiftLeft Config.unspecSlvR0 (slot q.a 0) (slot q.b 0)) :=
  answers_of_transact (i := .slv) (fun _ => rfl) q

theorem srv_answers (q : Request) :
    Answers .srv q (variableShift shiftRight Config.unspecSrvR0 (slot q.a 0) (slot q.b 0)) :=
  answers_of_transact (i := .srv) (fun _ => rfl) q

theorem srav_answers (q : Request) :
    Answers .srav q (variableShift shiftRightSigned Config.unspecSravR0 (slot q.a 0) (slot q.b 0)) :=
  answers_of_transact (i := .srav) (fun _ => rfl) q

/-- Settles O25: both branches of a variable shift; the open values are the `UNSPEC` functions of R81 to R83. -/
theorem shiftLimbByVariable : Obligations.ShiftLimbByVariable := by
  refine ⟨rfl, rfl, rfl, fun q hq => ⟨?_, ?_, ?_⟩,
    Config.unspecSlvR0, Config.unspecSrvR0, Config.unspecSravR0, fun q hq => ⟨?_, ?_, ?_⟩⟩
  · rw [← shiftLeft_toNat, ← variableShift_of_le hq]
    exact slv_answers q
  · rw [← shiftRight_toNat, ← variableShift_of_le hq]
    exact srv_answers q
  · rw [← shiftRightSigned_toNat, ← variableShift_of_le hq]
    exact srav_answers q
  · exact variableShift_of_gt hq ▸ slv_answers q
  · exact variableShift_of_gt hq ▸ srv_answers q
  · exact variableShift_of_gt hq ▸ srav_answers q

/-! ## Multiply (R84, R85) -/

/-- A number over slot 0 and the second result: its low limb and the limb above. -/
theorem ok_lowLimb (v : Nat) :
    Response.ok [BitVec.ofNat 128 v] (s := BitVec.ofNat 128 (v / 2 ^ 128))
      = performed (v % 2 ^ 128) (s := BitVec.ofNat 128 (v / 2 ^ 128)) := by
  rw [ok_one, BitVec.toNat_ofNat]

theorem mulw_answers (q : Request) :
    Answers .mulw q (performed ((slot q.a 0).toNat * (slot q.b 0).toNat % 2 ^ 128)
      (s := BitVec.ofNat 128 ((slot q.a 0).toNat * (slot q.b 0).toNat / 2 ^ 128))) := by
  rw [← ok_lowLimb]
  exact answers_of_transact (i := .mulw) (fun _ => rfl) q

theorem mul10e_answers_of_digit {q : Request} (hd : (slot q.b 0).toNat ≤ 9) :
    Answers .mul10e q (performed ((10 * (slot q.a 0).toNat + (slot q.b 0).toNat) % 2 ^ 128)
      (s := BitVec.ofNat 128 ((10 * (slot q.a 0).toNat + (slot q.b 0).toNat) / 2 ^ 128))) := by
  have h := answers_of_transact (i := .mul10e) (fun _ => rfl) q
  rwa [if_pos hd, ok_lowLimb] at h

theorem mul10e_answers_open {q : Request} (hd : 9 < (slot q.b 0).toNat) :
    Answers .mul10e q (performed (Config.unspecMul10eR0 (slot q.a 0) (slot q.b 0)).toNat
      (s := Config.unspecMul10eS (slot q.a 0) (slot q.b 0))) := by
  have h := answers_of_transact (i := .mul10e) (fun _ => rfl) q
  rwa [if_neg (Nat.not_le.mpr hd), ok_one] at h

/-- Settles O26: MULW without a condition, MUL10E by the two branches of its digit check. -/
theorem multiplyLimbsIsExact : Obligations.MultiplyLimbsIsExact :=
  ⟨rfl, rfl, mulw_answers, fun _ => mul10e_answers_of_digit,
    Config.unspecMul10eR0, Config.unspecMul10eS, fun _ => mul10e_answers_open⟩

end Sys2Proof.Machine
end

section
/-! SUPPORT. What the carry chains of WADD and WSUB hold as one number, the products of WMUL and the shapes it
refuses (R56, R91 to R94), and the statements on them. -/

namespace Sys2Proof

/-! ## Illegal multiply shapes (R54, R56, R63) -/

theorem ReadsCodes.eq_none_of_code_lt {α : Type} {ofCode : Nat → Option α} {code : α → Nat}
    {legal : α → Bool} (h : ReadsCodes ofCode code legal) {c : Nat} (hc : ∀ a, code a < c) :
    ofCode c = none :=
  Option.eq_none_iff_forall_ne_some.mpr fun a ha => (hc a).ne (h.of_eq_some c a ha).2

theorem mulShapeOfCode_eq_none {c : Nat} (h : 5 < c) : mulShapeOfCode c = none :=
  readsCodes_mulShape.eq_none_of_code_lt fun m => Nat.lt_of_le_of_lt (mulShapeCode_le m) h

/-- An operation of format S rejects every shape that its row of the opcode map does not read. -/
theorem decode_shape_illegal {opc n : Nat} {ofShp : Nat → Option Instr} (ho : opc < 256)
    (hf : opForm opc = some (.s ofShp)) (hn : n < 256) (h : ofShp n = none) :
    decode (BitVec.ofNat 32 (opc + 2 ^ 16 * n)) = .error .illegalShape :=
  (decode_wordOf (imm := 0) ho (by decide) hn hf).trans (readFields_s_illegalShape h)

end Sys2Proof

namespace Sys2Proof.Machine

/-! ## WADD and WSUB as one number (R91, R92) -/

/-- n limbs and a carry that together hold the number t: its remainder and its quotient by 2^(128·n). -/
theorem chainResponse_of_exact {x : List Limb × Bool} {n t : Nat} (hlen : x.1.length = n)
    (h : limbsVal x.1 + 2 ^ (128 * n) * x.2.toNat = t) :
    chainResponse x = performed (t % 2 ^ (128 * n)) (t := decide (t / 2 ^ (128 * n) = 1)) := by
  obtain ⟨ls, carry⟩ := x
  have hlt : limbsVal ls < 2 ^ (128 * n) := hlen ▸ limbsVal_lt ls
  have hmod : t % 2 ^ (128 * n) = limbsVal ls := by
    rw [← h, Nat.add_mul_mod_self_left, Nat.mod_eq_of_lt hlt]
  have hdiv : t / 2 ^ (128 * n) = carry.toNat := by
    rw [← h, Nat.add_mul_div_left _ _ (Nat.two_pow_pos _), Nat.div_eq_of_lt hlt, Nat.zero_add]
  rw [hmod, hdiv, chainResponse, ok_eq_performed]
  cases carry <;> rfl

theorem wadd_answers_chain (n : Nat) (q : Request) :
    Answers (.wadd n) q (chainResponse (chain adder (slots q.a n) (slots q.b n) false)) :=
  answers_of_transact (i := .wadd n) (fun _ => rfl) q

theorem wsub_answers_chain (n : Nat) (q : Request) :
    Answers (.wsub n) q (chainResponse (chain subtractor (slots q.a n) (slots q.b n) true)) :=
  answers_of_transact (i := .wsub n) (fun _ => rfl) q

theorem chain_slots_length {f : Limb → Limb → Bool → Limb × Bool} (a b : Port) (n : Nat) (c : Bool) :
    (chain f (slots a n) (slots b n) c).1.length = n := by
  rw [chain_length f (by simp), slots_length]

theorem wadd_answers (n : Nat) (q : Request) :
    Answers (.wadd n) q (performed ((wide q.a n + wide q.b n) % 2 ^ (128 * n))
      (t := decide ((wide q.a n + wide q.b n) / 2 ^ (128 * n) = 1))) := by
  have hsum := chain_adder_exact (as := slots q.a n) (bs := slots q.b n) (by simp) false
  rw [slots_length] at hsum
  have h := wadd_answers_chain n q
  rwa [chainResponse_of_exact (chain_slots_length q.a q.b n false) hsum] at h

/-- The number that n limbs and the carry of WSUB hold is the difference with 2^(128·n) added. -/
theorem wsub_answers_lifted (n : Nat) (q : Request) :
    Answers (.wsub n) q (performed ((wide q.a n + 2 ^ (128 * n) - wide q.b n) % 2 ^ (128 * n))
      (t := decide ((wide q.a n + 2 ^ (128 * n) - wide q.b n) / 2 ^ (128 * n) = 1))) := by
  have hdiff := chain_subtractor_exact (as := slots q.a n) (bs := slots q.b n) (by simp) true
  rw [slots_length, Bool.toNat_true] at hdiff
  have h := wsub_answers_chain n q
  rwa [chainResponse_of_exact (chain_slots_length q.a q.b n true)
    (t := wide q.a n + 2 ^ (128 * n) - wide q.b n) (Nat.eq_sub_of_add_eq (Nat.add_right_cancel hdiff))] at h

theorem lifted_sub_mod {a b m : Nat} (hb : b < m) : (a + m - b) % m = (((a : Int) - b) % m).toNat := by
  have h : ((a + m - b : Nat) : Int) = (a : Int) - b + m := by omega
  rw [← Int.add_emod_right, ← h, ← Int.natCast_emod, Int.toNat_natCast]

theorem lifted_sub_div_eq_one_iff {a b m : Nat} (ha : a < m) (hb : b < m) :
    (a + m - b) / m = 1 ↔ b ≤ a := by
  rw [Nat.div_eq_iff (by omega)]
  omega

theorem wsub_answers (n : Nat) (q : Request) :
    Answers (.wsub n) q (performed ((((wide q.a n : Int) - wide q.b n) % 2 ^ (128 * n)).toNat)
      (t := decide (wide q.b n ≤ wide q.a n))) := by
  have h := wsub_answers_lifted n q
  have hborrow := lifted_sub_div_eq_one_iff (wide_lt q.a n) (wide_lt q.b n)
  rwa [lifted_sub_mod (wide_lt q.b n), decide_eq_decide.mpr hborrow, Nat.cast_pow, Nat.cast_ofNat] at h

/-- Settles O27: the chain on the adder path is the exact sum. -/
theorem wideAddIsTheExactSum : Obligations.WideAddIsTheExactSum :=
  ⟨fun q n _ hn => ⟨wadd_answers n q,
      encode_eq_wordOf (i := .wadd n) Laws.zero_lt (show n < 256 by omega)⟩,
    fun _ hn hbad => decode_countShape_illegal (by decide) rfl hn hbad⟩

/-- Settles O28: the chain on the subtract path is the difference with 2^(128·N) added, which its top limb
passes on as the carry exactly when there is no borrow. -/
theorem wideSubtractIsTheExactDifference : Obligations.WideSubtractIsTheExactDifference :=
  ⟨fun q n _ hn => ⟨wsub_answers n q,
      encode_eq_wordOf (i := .wsub n) Laws.zero_lt (show n < 256 by omega)⟩,
    fun _ hn hbad => decode_countShape_illegal (by decide) rfl hn hbad⟩

/-! ## WSUB after WADD (R93) -/

/-- Subtracting `bs` from the limbs of `as` + `bs` gives `as` back: a carry lost by the sum is the borrow of the
difference. -/
theorem chain_subtractor_chain_adder {as bs : List Limb} (h : as.length = bs.length) :
    (chain subtractor (chain adder as bs false).1 bs true).1 = as := by
  have hsum := chain_adder_exact h false
  have hsumlen := chain_length adder h false
  generalize chain adder as bs false = x at *
  have hdiff := chain_subtractor_exact (hsumlen.trans h) true
  have hdifflen := (chain_length subtractor (hsumlen.trans h) true).trans hsumlen
  generalize chain subtractor x.1 bs true = y at *
  have hlt : limbsVal y.1 < 2 ^ (128 * as.length) := hdifflen ▸ limbsVal_lt y.1
  rw [Bool.toNat_false] at hsum
  rw [hsumlen, Bool.toNat_true] at hdiff
  have hcarries : limbsVal y.1 + 2 ^ (128 * as.length) * (y.2.toNat + x.2.toNat)
      = limbsVal as + 2 ^ (128 * as.length) := by
    rw [Nat.mul_add]
    omega
  have hmod := congrArg (· % 2 ^ (128 * as.length)) hcarries
  simp only [Nat.add_mul_mod_self_left, Nat.add_mod_right] at hmod
  rw [Nat.mod_eq_of_lt hlt, Nat.mod_eq_of_lt (limbsVal_lt as)] at hmod
  exact limbsVal_injective hdifflen hmod

theorem slots_chainResponse {x : List Limb × Bool} (h : x.1.length ≤ 32) :
    slots (chainResponse x).r x.1.length = x.1 :=
  slots_portOf h

theorem slot_eq_of_slots_eq {p p' : Port} {n : Nat} (h : slots p n = slots p' n) {i : Nat} (hi : i < n) :
    slot p i = slot p' i := by
  have hget : (slots p n)[i]? = (slots p' n)[i]? := by rw [h]
  rw [slots_getElem?, slots_getElem?, if_pos hi, if_pos hi] at hget
  exact Option.some.inj hget

/-- Settles O29: the host carries the limbs of the sum to the second transaction, whose chain undoes the
first. -/
theorem wideSubtractUndoesWideAdd : Obligations.WideSubtractUndoesWideAdd := by
  refine fun n q _ hn => ⟨_, wadd_answers_chain n q, fun q' ha hb => ⟨_, wsub_answers_chain n q', ?_⟩⟩
  have hsum := slots_chainResponse (x := chain adder (slots q.a n) (slots q.b n) false)
    (by rwa [chain_slots_length])
  have hdiff := slots_chainResponse (x := chain subtractor (slots q'.a n) (slots q'.b n) true)
    (by rwa [chain_slots_length])
  rw [chain_slots_length] at hsum hdiff
  intro i hi
  refine slot_eq_of_slots_eq (hdiff.trans ?_) hi
  rw [slots_congr ha, slots_congr hb, hsum, chain_subtractor_chain_adder (by simp)]

/-! ## WMUL (R94) -/

theorem wide_mul_lt (a b : Port) (n m : Nat) : wide a n * wide b m < 2 ^ (128 * (n + m)) := by
  rw [Nat.mul_add, Nat.pow_add]
  exact Nat.mul_lt_mul'' (wide_lt a n) (wide_lt b m)

theorem wmul_answers (shape : MulShape) (q : Request) :
    Answers (.wmul shape) q
      (performed (wide q.a (mulShapeLimbs shape).1 * wide q.b (mulShapeLimbs shape).2)) := by
  rw [← ok_limbsOf (wide_mul_lt q.a q.b _ _)]
  exact answers_of_transact (i := .wmul shape) (fun _ => rfl) q

/-- Settles O30: the limb counts of each shape are those of the table of R56. -/
theorem wideMultiplyIsTheExactProduct : Obligations.WideMultiplyIsTheExactProduct :=
  ⟨fun q => ⟨wmul_answers .m128x128 q, wmul_answers .m256x256 q, wmul_answers .m512x128 q,
      wmul_answers .m512x512 q, wmul_answers .m1024x1024 q, wmul_answers .m2048x2048 q⟩,
    rfl, fun q => wide_mul_lt q.a q.b 16 16,
    fun _ hn hlt => decode_shape_illegal (by decide) rfl hlt (by rw [mulShapeOfCode_eq_none hn]; rfl)⟩

end Sys2Proof.Machine
end

section
/-! SUPPORT. The block algorithm (R95 to R97): a row and a column step as numbers, the products of 512-bit blocks
by column, and the statement on them. -/

namespace Sys2Proof.Machine

/-! ## A row: many limbs times one (R95) -/

theorem wideningMul_exact (a b : Limb) :
    (wideningMul a b).1.toNat + 2 ^ 128 * (wideningMul a b).2.toNat = a.toNat * b.toNat := by
  have hhigh : a.toNat * b.toNat / 2 ^ 128 < 2 ^ 128 :=
    Nat.div_lt_of_lt_mul (Nat.mul_lt_mul'' a.isLt b.isLt)
  rw [wideningMul, BitVec.toNat_ofNat, BitVec.toNat_ofNat, Nat.mod_eq_of_lt hhigh, Nat.mod_add_div]

/-- What one column of a row passes to the next: the high limb of the product and the carry of its low limb. -/
def rowCarry (a b k : Limb) : Limb :=
  (wideningMul a b).2 + BitVec.ofNat 128 (adder (wideningMul a b).1 k false).2.toNat

theorem rowMul_cons (a : Limb) (as : List Limb) (b k : Limb) :
    rowMul (a :: as) b k
      = (adder (wideningMul a b).1 k false).1 :: rowMul as b (rowCarry a b k) := rfl

theorem limb_mul_add_lt (a b k : Limb) : a.toNat * b.toNat + k.toNat < 2 ^ 128 * 2 ^ 128 := by
  have hk := k.isLt
  have hab := Nat.mul_le_mul (Nat.le_sub_one_of_lt a.isLt) (Nat.le_sub_one_of_lt b.isLt)
  omega

/-- No carry is lost within a row: a product of two limbs leaves room for one limb more. -/
theorem rowCarry_exact (a b k : Limb) :
    (adder (wideningMul a b).1 k false).1.toNat + 2 ^ 128 * (rowCarry a b k).toNat
      = a.toNat * b.toNat + k.toNat := by
  have hmul := wideningMul_exact a b
  have hadd := adder_exact (wideningMul a b).1 k false
  have hlt := limb_mul_add_lt a b k
  rw [Bool.toNat_false] at hadd
  rw [rowCarry, BitVec.toNat_add, BitVec.toNat_ofNat]
  omega

theorem rowMul_length (as : List Limb) (b k : Limb) : (rowMul as b k).length = as.length + 1 := by
  induction as generalizing k with
  | nil => rfl
  | cons a as ih => rw [rowMul_cons, List.length_cons, ih, List.length_cons]

theorem limbsVal_rowMul (as : List Limb) (b k : Limb) :
    limbsVal (rowMul as b k) = limbsVal as * b.toNat + k.toNat := by
  induction as generalizing k with
  | nil => simp [rowMul]
  | cons a as ih =>
    have hcol := rowCarry_exact a b k
    rw [rowMul_cons, limbsVal_cons, ih, limbsVal_cons]
    linear_combination hcol

/-! ## A row added into the running sum (R96) -/

theorem addRow_append {lo mid hi row : List Limb} (h : mid.length = row.length) :
    addRow (lo ++ mid ++ hi) row lo.length = lo ++ (chain adder mid row false).1 ++ hi := by
  simp [addRow, ← h]

/-- A running sum that reaches past row j is cut by it in three. -/
theorem exists_addRow_parts {acc row : List Limb} {j : Nat} (h : j + row.length ≤ acc.length) :
    ∃ lo mid hi, acc = lo ++ mid ++ hi ∧ lo.length = j ∧ mid.length = row.length :=
  ⟨acc.take j, (acc.drop j).take row.length, (acc.drop j).drop row.length, by simp, by simp; omega,
    by simp; omega⟩

theorem addRow_length {acc row : List Limb} {j : Nat} (h : j + row.length ≤ acc.length) :
    (addRow acc row j).length = acc.length := by
  obtain ⟨lo, mid, hi, rfl, rfl, hmid⟩ := exists_addRow_parts h
  rw [addRow_append hmid]
  simp [chain_length adder hmid]

/-- A row whose sum with the running sum ends below its own top limb is added without a carry out. -/
theorem limbsVal_addRow {acc row : List Limb} {j : Nat} (h : j + row.length ≤ acc.length)
    (hfit : limbsVal acc + 2 ^ (128 * j) * limbsVal row < 2 ^ (128 * (j + row.length))) :
    limbsVal (addRow acc row j) = limbsVal acc + 2 ^ (128 * j) * limbsVal row := by
  obtain ⟨lo, mid, hi, rfl, rfl, hmid⟩ := exists_addRow_parts h
  have hchain := chain_adder_exact hmid false
  have hchainlen := chain_length adder hmid false
  rw [Nat.mul_add, Nat.pow_add, List.append_assoc, limbsVal_append, limbsVal_append, ← hmid] at hfit
  have hsum : limbsVal mid + limbsVal row < 2 ^ (128 * mid.length) :=
    Nat.lt_of_mul_lt_mul_left (a := 2 ^ (128 * lo.length)) (by rw [Nat.mul_add] at hfit ⊢; omega)
  rw [addRow_append hmid]
  simp only [List.append_assoc, limbsVal_append, hchainlen]
  cases hcarry : (chain adder mid row false).2 with
  | true =>
    rw [hcarry, Bool.toNat_true, Bool.toNat_false] at hchain
    omega
  | false =>
    rw [hcarry, Bool.toNat_false] at hchain
    linear_combination 2 ^ (128 * lo.length) * hchain

/-! ## The rows summed (R96) -/

theorem add_mul_limb_lt {x p q a b w : Nat} (hx : x < p * q) (ha : a ≤ q) (hb : b < w) :
    x + p * (a * b) < p * q * w := by
  have hab : a * b ≤ q * b := Nat.mul_le_mul_right b ha
  have hqw : q * (b + 1) ≤ q * w := Nat.mul_le_mul_left q hb
  calc x + p * (a * b) < p * q + p * (q * b) :=
        Nat.add_lt_add_of_lt_of_le hx (Nat.mul_le_mul_left p hab)
    _ = p * (q * (b + 1)) := by ring
    _ ≤ p * (q * w) := Nat.mul_le_mul_left p hqw
    _ = p * q * w := by ring

theorem addRows_length (as : List Limb) {bs acc : List Limb} {j : Nat}
    (hlen : acc.length = j + as.length + bs.length) :
    (addRows as bs j acc).length = acc.length := by
  induction bs generalizing acc j with
  | nil => rfl
  | cons b bs ih =>
    rw [List.length_cons] at hlen
    have hrow : (addRow acc (rowMul as b 0) j).length = acc.length :=
      addRow_length (by rw [rowMul_length]; omega)
    rw [addRows, ih (by omega), hrow]

/-- Before row j the running sum is below 2^(128·(j + N)), so row j is added without a carry out. -/
theorem limbsVal_addRows (as : List Limb) {bs acc : List Limb} {j : Nat}
    (hlen : acc.length = j + as.length + bs.length)
    (hlt : limbsVal acc < 2 ^ (128 * (j + as.length))) :
    limbsVal (addRows as bs j acc)
      = limbsVal acc + 2 ^ (128 * j) * (limbsVal as * limbsVal bs) := by
  induction bs generalizing acc j with
  | nil => simp [addRows]
  | cons b bs ih =>
    rw [List.length_cons] at hlen
    have hrowlen := rowMul_length as b 0
    have hrow : limbsVal (rowMul as b 0) = limbsVal as * b.toNat := limbsVal_rowMul as b 0
    have hbound : limbsVal acc + 2 ^ (128 * j) * (limbsVal as * b.toNat)
        < 2 ^ (128 * (j + (as.length + 1))) := by
      rw [← Nat.add_assoc, Nat.mul_add _ _ 1, Nat.pow_add, Nat.mul_add, Nat.pow_add]
      rw [Nat.mul_add, Nat.pow_add] at hlt
      exact add_mul_limb_lt hlt (limbsVal_lt as).le b.isLt
    have hsumlen : (addRow acc (rowMul as b 0) j).length = acc.length :=
      addRow_length (by omega)
    have hsum : limbsVal (addRow acc (rowMul as b 0) j)
        = limbsVal acc + 2 ^ (128 * j) * (limbsVal as * b.toNat) := by
      rw [← hrow] at hbound ⊢
      exact limbsVal_addRow (by omega) (by rwa [hrowlen])
    have hstep : 2 ^ (128 * (j + 1)) = 2 ^ (128 * j) * 2 ^ 128 := by rw [← Nat.pow_add]; rfl
    rw [addRows, ih (by omega) (by rw [hsum, Nat.add_assoc, Nat.add_comm 1]; exact hbound), hsum,
      limbsVal_cons, hstep]
    ring

theorem limbsVal_replicate_zero (n : Nat) : limbsVal (List.replicate n 0) = 0 := by
  induction n with
  | zero => rfl
  | succ n ih => rw [List.replicate_succ, limbsVal_cons, ih]; rfl

theorem blockMul_length (as bs : List Limb) : (blockMul as bs).length = as.length + bs.length := by
  rw [blockMul, addRows_length as (by simp), List.length_replicate]

theorem limbsVal_blockMul (as bs : List Limb) :
    limbsVal (blockMul as bs) = limbsVal as * limbsVal bs := by
  rw [blockMul, limbsVal_addRows as (by simp) (by rw [limbsVal_replicate_zero]; exact Nat.two_pow_pos _),
    limbsVal_replicate_zero]
  ring

/-! ## Products of 512-bit blocks, by column (R97) -/

theorem blocksVal_map_range (f : Nat → Nat) (n : Nat) :
    blocksVal ((List.range n).map f) = ∑ k ∈ Finset.range n, f k * (2 ^ 512) ^ k := by
  induction n generalizing f with
  | zero => rfl
  | succ n ih =>
    have hshift : ∀ k ∈ Finset.range n,
        f (k + 1) * (2 ^ 512) ^ (k + 1) = 2 ^ 512 * (f (k + 1) * (2 ^ 512) ^ k) := fun k _ => by
      rw [pow_succ', Nat.mul_left_comm]
    rw [List.range_succ_eq_map, List.map_cons, List.map_map, blocksVal_cons, ih, Finset.sum_range_succ',
      Finset.sum_congr rfl hshift, ← Finset.mul_sum, pow_zero, Nat.mul_one, Nat.add_comm]
    simp only [Function.comp_apply]

theorem sum_block512 (x n : Nat) :
    ∑ u ∈ Finset.range n, block512 x u * (2 ^ 512) ^ u = x % 2 ^ (512 * n) := by
  induction n with
  | zero => rw [Finset.sum_range_zero, Nat.mul_zero, Nat.pow_zero, Nat.mod_one]
  | succ n ih =>
    rw [Finset.sum_range_succ, ih, block512, Nat.mul_add, Nat.pow_add, Nat.mul_one, Nat.mod_mul,
      ← Nat.pow_mul, Nat.mul_comm (_ % _)]

theorem blockColumn_eq_sum (n a b k : Nat) :
    blockColumn n a b k = ∑ u ∈ Finset.range n,
      if u ≤ k ∧ k - u < n then block512 a u * block512 b (k - u) else 0 := rfl

/-- One term of the first factor times the second factor: its products stand in the columns u to u + n − 1. -/
theorem sum_columns_of_term {n u : Nat} (hu : u < n) (c : Nat) (g : Nat → Nat) (x : Nat) :
    ∑ k ∈ Finset.range (2 * n), (if u ≤ k ∧ k - u < n then c * g (k - u) else 0) * x ^ k
      = c * x ^ u * ∑ v ∈ Finset.range n, g v * x ^ v := by
  have hcols : (Finset.range (2 * n)).filter (fun k => u ≤ k ∧ k - u < n) = Finset.Ico u (u + n) := by
    ext k
    simp only [Finset.mem_filter, Finset.mem_range, Finset.mem_Ico]
    omega
  simp only [ite_mul, Nat.zero_mul]
  rw [← Finset.sum_filter, hcols, Finset.sum_Ico_eq_sum_range, Nat.add_sub_cancel_left, Finset.mul_sum]
  refine Finset.sum_congr rfl fun v _ => ?_
  rw [Nat.add_sub_cancel_left, pow_add]
  ring

/-- The product of two sums of n terms by powers of x, summed by column. -/
theorem sum_columns (n : Nat) (f g : Nat → Nat) (x : Nat) :
    ∑ k ∈ Finset.range (2 * n),
        (∑ u ∈ Finset.range n, if u ≤ k ∧ k - u < n then f u * g (k - u) else 0) * x ^ k
      = (∑ u ∈ Finset.range n, f u * x ^ u) * ∑ v ∈ Finset.range n, g v * x ^ v := by
  simp only [Finset.sum_mul _ _ (_ ^ _)]
  rw [Finset.sum_comm, Finset.sum_mul]
  exact Finset.sum_congr rfl fun u hu => sum_columns_of_term (Finset.mem_range.mp hu) (f u) g x

/-- The unreduced columns hold the exact product. -/
theorem blocksVal_blockColumns {n a b : Nat} (ha : a < 2 ^ (512 * n)) (hb : b < 2 ^ (512 * n)) :
    blocksVal ((List.range (2 * n)).map (blockColumn n a b)) = a * b := by
  rw [blocksVal_map_range]
  simp only [blockColumn_eq_sum]
  rw [sum_columns, sum_block512, sum_block512, Nat.mod_eq_of_lt ha, Nat.mod_eq_of_lt hb]

/-- The 2·n reduced columns hold the exact product, and none of it stands above them. -/
theorem blockProducts_exact {n a b : Nat} (ha : a < 2 ^ (512 * n)) (hb : b < 2 ^ (512 * n)) :
    (blockProducts n a b).1.length = 2 * n ∧ (∀ x ∈ (blockProducts n a b).1, x < 2 ^ 512)
      ∧ blocksVal (blockProducts n a b).1 = a * b ∧ (blockProducts n a b).2 = 0 := by
  have hexact := carryColumns_exact ((List.range (2 * n)).map (blockColumn n a b)) 0
  rw [blocksVal_blockColumns ha hb, List.length_map, List.length_range, Nat.add_zero] at hexact
  change blocksVal (blockProducts n a b).1 + _ * (blockProducts n a b).2 = a * b at hexact
  have hlt : a * b < (2 ^ 512) ^ (2 * n) := by
    rw [← Nat.pow_mul, show 512 * (2 * n) = 512 * n + 512 * n by omega, Nat.pow_add]
    exact Nat.mul_lt_mul'' ha hb
  have hcarry : (blockProducts n a b).2 = 0 := by
    by_contra hne
    have := Nat.le_mul_of_pos_right ((2 ^ 512) ^ (2 * n)) (Nat.pos_of_ne_zero hne)
    omega
  rw [hcarry, Nat.mul_zero, Nat.add_zero] at hexact
  exact ⟨by simp [blockProducts], fun x hx => carryColumns_lt hx, hexact, hcarry⟩

/-- Settles O31: rows and row sums by induction over the limbs; the 512-bit columns by the product of two sums of
blocks. -/
theorem blockAlgorithmGivesTheProduct : Obligations.BlockAlgorithmGivesTheProduct :=
  ⟨fun as b => ⟨rowMul_length as b 0, limbsVal_rowMul as b 0⟩,
    fun as bs => ⟨blockMul_length as bs, limbsVal_blockMul as bs⟩,
    fun _ _ ha hb => blockProducts_exact (n := 4) ha hb,
    fun _ _ ha hb => blockProducts_exact (n := 2) ha hb⟩

end Sys2Proof.Machine
end

section
/-! SUPPORT. What DIVC and DIVDC answer and the shapes they refuse (R106, R109), the magic-number and the
estimate-and-correct techniques (R107, R108, R111 to R113), and the statements on them. -/

namespace Sys2Proof

/-! ## Illegal divisor codes (R54, R57, R63) -/

theorem divisorOfCode_eq_none {c : Nat} (h : 2 < c) : divisorOfCode c = none :=
  readsCodes_divisor.eq_none_of_code_lt fun d => Nat.lt_of_le_of_lt (divisorCode_le d) h

end Sys2Proof

namespace Sys2Proof.Machine

/-! ## DIVC and DIVDC (R106, R109) -/

theorem limbOfNat_toNat {v : Nat} (h : v < 2 ^ 128) : (BitVec.ofNat 128 v).toNat = v := by
  rw [BitVec.toNat_ofNat, Nat.mod_eq_of_lt h]

theorem quotRem_of_quotient_fits {x c : Nat} (h : x / c < 2 ^ 128) :
    quotRem x c = performed (x / c) (s := BitVec.ofNat 128 (x % c)) := by
  rw [quotRem, ok_one, limbOfNat_toNat h]

theorem divc_answers (d : Divisor) (q : Request) :
    Answers (.divc d) q (performed ((slot q.a 0).toNat / divisorValue d)
      (s := BitVec.ofNat 128 ((slot q.a 0).toNat % divisorValue d))) := by
  rw [← quotRem_of_quotient_fits (Nat.lt_of_le_of_lt (Nat.div_le_self ..) (slot q.a 0).isLt)]
  exact answers_of_transact (i := .divc d) (fun _ => rfl) q

/-- Settles O32: a quotient of one limb fits a limb; the decoder reads the codes of the three divisors. -/
theorem divideLimbByConstant : Obligations.DivideLimbByConstant :=
  ⟨fun q => ⟨divc_answers .e16 q, divc_answers .e31 q, divc_answers .e32 q⟩, rfl,
    fun _ hn hlt => decode_shape_illegal (by decide) rfl hlt (by rw [divisorOfCode_eq_none hn]; rfl)⟩

/-- The high limb below the divisor is what lets one limb hold the quotient (R109). -/
theorem twoLimbQuotient_lt {c : Nat} {hi : Limb} (h : hi.toNat < c) (lo : Limb) :
    (hi.toNat * 2 ^ 128 + lo.toNat) / c < 2 ^ 128 := by
  have hlo := lo.isLt
  exact Nat.div_lt_of_lt_mul (by omega)

theorem divdc_answers_of_lt {d : Divisor} {q : Request} (h : (slot q.a 1).toNat < divisorValue d) :
    Answers (.divdc d) q
      (performed (((slot q.a 1).toNat * 2 ^ 128 + (slot q.a 0).toNat) / divisorValue d)
        (s := BitVec.ofNat 128
          (((slot q.a 1).toNat * 2 ^ 128 + (slot q.a 0).toNat) % divisorValue d))) := by
  have hq := answers_of_transact (i := .divdc d) (fun _ => rfl) q
  rwa [if_pos h, quotRem_of_quotient_fits (twoLimbQuotient_lt h _)] at hq

theorem divdc_answers_open {d : Divisor} {q : Request} (h : divisorValue d ≤ (slot q.a 1).toNat) :
    Answers (.divdc d) q
      (performed (Config.unspecDivdcR0 (slot q.a 1) (slot q.a 0) (divisorValue d)).toNat
        (s := Config.unspecDivdcS (slot q.a 1) (slot q.a 0) (divisorValue d))) := by
  have hq := answers_of_transact (i := .divdc d) (fun _ => rfl) q
  rwa [if_neg (Nat.not_lt.mpr h), ok_one] at hq

/-- Settles O33: both branches of the range check; the open values are the `UNSPEC` functions of R109. -/
theorem divideTwoLimbsByConstant : Obligations.DivideTwoLimbsByConstant :=
  ⟨fun _ => divdc_answers_of_lt (d := .e31), fun _ => divdc_answers_of_lt (d := .e32),
    ⟨fun hi lo d => Config.unspecDivdcR0 hi lo (divisorValue d),
      fun hi lo d => Config.unspecDivdcS hi lo (divisorValue d),
      fun _ => divdc_answers_open (d := .e31), fun _ => divdc_answers_open (d := .e32)⟩,
    rfl, rfl,
    fun _ hlt hn =>
      decode_shape_illegal (by decide) rfl hlt (by rw [groupDivisorOfCode_eq_none hn]; rfl)⟩

/-! ## The inverse of a divisor and its excess (R107, R108, R112) -/

theorem divisorValue_pos (d : Divisor) : 0 < divisorValue d := by cases d <;> decide

/-- The multiplier a technique works with: M for 10^16 (R107), and M' = 2^128 + M for the two divisors whose
inverse has 129 bits (R108). -/
def magicInverse : Divisor → Nat
  | .e16 => (magic .e16).1.toNat
  | .e31 => 2 ^ 128 + (magic .e31).1.toNat
  | .e32 => 2 ^ 128 + (magic .e32).1.toNat

/-- The power of two that the inverse is scaled by: the techniques drop 128 + s bits of the product. -/
def magicScale (d : Divisor) : Nat := 2 ^ (128 + (magic d).2)

theorem magicScale_pos (d : Divisor) : 0 < magicScale d := Nat.two_pow_pos _

/-- The excess e = M' · C − 2^(128+s) of each inverse (R112). -/
def magicExcess : Divisor → Nat
  | .e16 => 630438908198912
  | .e31 => 4445513914806722418737888100352
  | .e32 => 91128222636907558699806209605632

theorem magicInverse_mul_divisorValue (d : Divisor) :
    magicInverse d * divisorValue d = magicScale d + magicExcess d := by
  cases d <;> decide

/-- The excess is positive and at most 2^s. -/
theorem magicExcess_bounds (d : Divisor) : 0 < magicExcess d ∧ 2 ^ 128 * magicExcess d ≤ magicScale d := by
  cases d <;> decide

/-- A product with an inverse m of c at scale p that exceeds it by e, where x · e is below k · p: the quotient
taken from the product is not low, and is high by less than k / c. -/
theorem div_le_mul_div_of_excess {x m c p e k : Nat} (hc : 0 < c) (hp : 0 < p) (hm : m * c = p + e)
    (he : x * e < k * p) : x / c ≤ x * m / p ∧ x * m / p * c < x + k := by
  have hprod : x * m * c = x * p + x * e := by rw [Nat.mul_assoc, hm, Nat.mul_add]
  constructor
  · refine (Nat.le_div_iff_mul_le hp).mpr (Nat.le_of_mul_le_mul_right ?_ hc)
    calc x / c * p * c = x / c * c * p := Nat.mul_right_comm ..
      _ ≤ x * p := Nat.mul_le_mul_right p (Nat.div_mul_le_self x c)
      _ ≤ x * m * c := hprod ▸ Nat.le_add_right ..
  · refine Nat.lt_of_mul_lt_mul_right (a := p) ?_
    calc x * m / p * c * p = x * m / p * p * c := Nat.mul_right_comm ..
      _ ≤ x * m * c := Nat.mul_le_mul_right c (Nat.div_mul_le_self (x * m) p)
      _ < (x + k) * p := by rw [hprod, Nat.add_mul]; exact Nat.add_lt_add_left he _

/-- The quotient of a dividend below k limbs by the inverse of a divisor C is high by less than k / C. -/
theorem mul_magicInverse_div_magicScale {d : Divisor} {x k : Nat} (h : x < k * 2 ^ 128) :
    x / divisorValue d ≤ x * magicInverse d / magicScale d
      ∧ x * magicInverse d / magicScale d * divisorValue d < x + k := by
  obtain ⟨hpos, hle⟩ := magicExcess_bounds d
  refine div_le_mul_div_of_excess (divisorValue_pos d) (magicScale_pos d) (magicInverse_mul_divisorValue d) ?_
  calc x * magicExcess d < k * 2 ^ 128 * magicExcess d := Nat.mul_lt_mul_of_pos_right h hpos
    _ ≤ k * magicScale d := by rw [Nat.mul_assoc]; exact Nat.mul_le_mul_left k hle

/-! ## The quotient of a limb by its magic constant (R107, R108) -/

theorem limb_mul_magicInverse_div_magicScale (d : Divisor) (x : Limb) :
    x.toNat * magicInverse d / magicScale d = x.toNat / divisorValue d := by
  obtain ⟨hlow, hhigh⟩ := mul_magicInverse_div_magicScale (d := d) (k := 1) (x := x.toNat) (by omega)
  exact Nat.le_antisymm
    ((Nat.le_div_iff_mul_le (divisorValue_pos d)).mpr (Nat.le_of_lt_succ hhigh)) hlow

theorem wideningMul_high_toNat (a b : Limb) :
    (wideningMul a b).2.toNat = a.toNat * b.toNat / 2 ^ 128 := by
  have hexact := wideningMul_exact a b
  have hlow := (wideningMul a b).1.isLt
  omega

theorem plainQuotient_toNat (m : Limb) (s : Nat) (x : Limb) :
    (plainQuotient m s x).toNat = x.toNat * m.toNat / 2 ^ (128 + s) := by
  rw [plainQuotient, BitVec.toNat_ushiftRight, wideningMul_high_toNat, Nat.shiftRight_eq_div_pow,
    Nat.div_div_eq_div_mul, Nat.pow_add]

/-- The half-add: the mean of two limbs, without the 129th bit that their sum can need (R108). -/
theorem halfAdd_toNat {x q : Limb} (h : q.toNat ≤ x.toNat) :
    (((x - q) >>> 1) + q).toNat = (x.toNat + q.toNat) / 2 := by
  have hx := x.isLt
  rw [BitVec.toNat_add, BitVec.toNat_ushiftRight, BitVec.toNat_sub_of_le h, Nat.shiftRight_eq_div_pow]
  omega

theorem correctiveQuotient_toNat (m : Limb) {s : Nat} (hs : 1 ≤ s) (x : Limb) :
    (correctiveQuotient m s x).toNat = x.toNat * (2 ^ 128 + m.toNat) / 2 ^ (128 + s) := by
  have hq0 := wideningMul_high_toNat x m
  have hle : (wideningMul x m).2.toNat ≤ x.toNat := by
    rw [hq0]
    exact Nat.div_le_of_le_mul (Nat.mul_comm .. ▸ Nat.mul_le_mul_right _ m.isLt.le)
  have hpow : 2 ^ s = 2 * 2 ^ (s - 1) := (mul_pow_sub_one (by omega) 2).symm
  rw [correctiveQuotient, BitVec.toNat_ushiftRight, halfAdd_toNat hle, hq0, Nat.shiftRight_eq_div_pow,
    Nat.div_div_eq_div_mul, ← hpow, Nat.pow_add, ← Nat.div_div_eq_div_mul, Nat.mul_add,
    Nat.add_comm (_ * 2 ^ 128), Nat.add_mul_div_right _ _ (Nat.two_pow_pos 128), Nat.add_comm]

theorem magicQuotient_toNat (d : Divisor) (x : Limb) :
    (magicQuotient d x).toNat = x.toNat / divisorValue d := by
  rw [← limb_mul_magicInverse_div_magicScale]
  cases d with
  | e16 => exact plainQuotient_toNat _ _ x
  | e31 => exact correctiveQuotient_toNat _ (by decide) x
  | e32 => exact correctiveQuotient_toNat _ (by decide) x

/-! ## The remainder multiplied back, and the short cut (R106, R113) -/

/-- Nothing wraps when the exact quotient is multiplied back. -/
theorem multiplyBack_toNat {x q : Limb} {c : Nat} (h : q.toNat = x.toNat / c) :
    (x - q * BitVec.ofNat 128 c).toNat = x.toNat % c := by
  have hx := x.isLt
  have hback : x.toNat / c * c ≤ x.toNat := Nat.div_mul_le_self ..
  have hmul : (q * BitVec.ofNat 128 c).toNat = x.toNat / c * c := by
    rw [BitVec.toNat_mul, BitVec.toNat_ofNat, Nat.mul_mod_mod, h]
    exact Nat.mod_eq_of_lt (Nat.lt_of_le_of_lt hback hx)
  rw [BitVec.toNat_sub_of_le (BitVec.le_def.mpr (hmul ▸ hback)), hmul, Nat.mod_eq_sub_div_mul]

theorem magicDivide_exact (d : Divisor) (x : Limb) :
    (magicDivide d x).1.toNat = x.toNat / divisorValue d
      ∧ (magicDivide d x).2.toNat = x.toNat % divisorValue d := by
  unfold magicDivide
  split
  case isTrue h => exact ⟨(Nat.div_eq_of_lt h).symm, (Nat.mod_eq_of_lt h).symm⟩
  case isFalse => exact ⟨magicQuotient_toNat d x, multiplyBack_toNat (magicQuotient_toNat d x)⟩

/-- Settles O34: the excess of each inverse is too small to carry the quotient of a limb past an integer. -/
theorem magicNumberDivisionIsExact : Obligations.MagicNumberDivisionIsExact :=
  ⟨by decide +kernel, by decide +kernel, by decide +kernel,
    fun d x => ⟨magicQuotient_toNat d x, magicDivide_exact d x⟩⟩

/-! ## Estimate and correct (R111) -/

/-- The correction of an estimate `qe` whose product with `c` leaves the difference `δ`. -/
def correctEstimate (c qe : Nat) (δ : Int) : Limb × Limb :=
  let dh := (BitVec.ofInt 256 δ).extractLsb' 128 128
  let dl := (BitVec.ofInt 256 δ).extractLsb' 0 128
  if dh ≠ 0 ∨ c ≤ dl.toNat then (BitVec.ofNat 128 (qe - 1), BitVec.ofNat 128 (dl.toNat + c))
  else (BitVec.ofNat 128 qe, dl)

theorem estimateDivide_eq {d : Divisor} (hd : d ≠ .e16) {hi lo : Limb} {x qe : Nat}
    (hx : x = hi.toNat * 2 ^ 128 + lo.toNat) (hqe : qe = x * magicInverse d / magicScale d) :
    estimateDivide d hi lo
      = correctEstimate (divisorValue d) qe ((x : Int) - (qe : Int) * (divisorValue d : Int)) := by
  subst hqe hx
  cases d with
  | e16 => exact absurd rfl hd
  | e31 => rfl
  | e32 => rfl

theorem highHalf_toNat (v : BitVec 256) : (v.extractLsb' 128 128).toNat = v.toNat / 2 ^ 128 := by
  have hv := v.isLt
  rw [BitVec.extractLsb'_toNat, Nat.shiftRight_eq_div_pow]
  omega

theorem lowHalf_toNat (v : BitVec 256) : (v.extractLsb' 0 128).toNat = v.toNat % 2 ^ 128 := by
  rw [BitVec.extractLsb'_toNat, Nat.shiftRight_zero]

section
variable {c r : Nat} (hr : r < c) (hc : c ≤ 2 ^ 128)
include hr hc

/-- The difference is the remainder: its high limb is zero and its low limb below the divisor, and the estimate
stands. -/
theorem correctEstimate_of_exact (q : Nat) :
    correctEstimate c q r = (BitVec.ofNat 128 q, BitVec.ofNat 128 r) := by
  have hdiff : (BitVec.ofInt 256 r).toNat = r := by
    rw [BitVec.ofInt_natCast, BitVec.toNat_ofNat]
    omega
  have hlow : (BitVec.ofInt 256 r).extractLsb' 0 128 = BitVec.ofNat 128 r := by
    apply BitVec.eq_of_toNat_eq
    rw [lowHalf_toNat, hdiff, BitVec.toNat_ofNat]
  have hhigh : (BitVec.ofInt 256 r).extractLsb' 128 128 = 0 := by
    apply BitVec.eq_of_toNat_eq
    rw [highHalf_toNat, hdiff]
    exact Nat.div_eq_of_lt (by omega)
  have hr' : (BitVec.ofNat 128 r).toNat = r := limbOfNat_toNat (by omega)
  rw [correctEstimate, hlow, hhigh, if_neg (not_or.mpr ⟨not_not.mpr rfl, by omega⟩)]

/-- The difference is the remainder less the divisor: it is negative, so its high limb is all ones, and adding
the divisor back gives the remainder. -/
theorem correctEstimate_of_high (q : Nat) :
    correctEstimate c (q + 1) ((r : Int) - c) = (BitVec.ofNat 128 q, BitVec.ofNat 128 r) := by
  have hdiff : (BitVec.ofInt 256 ((r : Int) - c)).toNat = 2 ^ 256 + r - c := by
    rw [BitVec.toNat_ofInt]
    omega
  have hhigh : (BitVec.ofInt 256 ((r : Int) - c)).extractLsb' 128 128 ≠ 0 := fun h => by
    have h0 : (2 ^ 256 + r - c) / 2 ^ 128 = 0 := by rw [← hdiff, ← highHalf_toNat, h]; rfl
    omega
  have hlow : BitVec.ofNat 128 (((BitVec.ofInt 256 ((r : Int) - c)).extractLsb' 0 128).toNat + c)
      = BitVec.ofNat 128 r := by
    apply BitVec.eq_of_toNat_eq
    rw [BitVec.toNat_ofNat, BitVec.toNat_ofNat, lowHalf_toNat, hdiff]
    omega
  rw [correctEstimate, if_pos (.inl hhigh), hlow, Nat.add_sub_cancel]

end

/-- For a dividend below C limbs the estimate is the quotient or one more, so the corrected estimate is the
quotient, with the remainder. -/
theorem estimateDivide_eq_divMod {d : Divisor} (hd : d ≠ .e16) {hi lo : Limb} {x : Nat}
    (hx : x = hi.toNat * 2 ^ 128 + lo.toNat) (h : hi.toNat < divisorValue d) :
    estimateDivide d hi lo
      = (BitVec.ofNat 128 (x / divisorValue d), BitVec.ofNat 128 (x % divisorValue d)) := by
  have hlo := lo.isLt
  have hc := divisorValue_le d
  have hpos := divisorValue_pos d
  have hr : x % divisorValue d < divisorValue d := Nat.mod_lt x hpos
  obtain ⟨hlow, hhigh⟩ := mul_magicInverse_div_magicScale (d := d) (k := divisorValue d) (x := x) (by omega)
  have hle : x * magicInverse d / magicScale d ≤ x / divisorValue d + 1 := by
    rw [← Nat.add_div_right x hpos]
    exact (Nat.le_div_iff_mul_le hpos).mpr hhigh.le
  have hdm : (x : Int) = divisorValue d * (x / divisorValue d : Nat) + (x % divisorValue d : Nat) :=
    mod_cast (Nat.div_add_mod x (divisorValue d)).symm
  rcases Nat.le_add_one_iff.mp hle with heq | heq
  · have hdiff : (x : Int) - (x / divisorValue d : Nat) * divisorValue d = (x % divisorValue d : Nat) := by
      linarith
    rw [estimateDivide_eq hd hx (hlow.antisymm heq), hdiff, correctEstimate_of_exact hr hc]
  · have hdiff : (x : Int) - (x / divisorValue d + 1 : Nat) * divisorValue d
        = (x % divisorValue d : Nat) - divisorValue d := by
      push_cast at hdm ⊢
      linarith
    rw [estimateDivide_eq hd hx heq.symm, hdiff, correctEstimate_of_high hr hc]

/-- Settles O35: the corrected estimate, whose quotient and remainder each fit a limb. -/
theorem estimateAndCorrectDivisionIsExact : Obligations.EstimateAndCorrectDivisionIsExact :=
  fun d hi lo hd h => by
    have hr := Nat.mod_lt (hi.toNat * 2 ^ 128 + lo.toNat) (divisorValue_pos d)
    rw [estimateDivide_eq_divMod hd rfl h]
    exact ⟨limbOfNat_toNat (twoLimbQuotient_lt h lo),
      limbOfNat_toNat (Nat.lt_of_lt_of_le hr (divisorValue_le d))⟩

end Sys2Proof.Machine
end

section
/-! SUPPORT. Signed decimal values: their bounds, the canonical words that hold them and what a guarded decimal
operation answers (R14, R121, R185); and the modulo operations (R122 to R125) with the statement on them. -/

namespace Sys2Proof.Machine

/-! ## Signs and magnitudes (R9, R13, R14) -/

theorem natAbs_val_lt {x : Limb} (h : pdValid x = true) : (val x).natAbs < 10 ^ 31 := by
  rw [val_natAbs]
  exact mag_lt h

theorem natAbs_val_le_one {c : Limb} (h : carryValid c = true) : (val c).natAbs ≤ 1 := by
  rw [val_natAbs]
  exact ((carryValid_iff c).mp h).2

theorem signOf_cases (t : Int) : (0 ≤ t ∧ signOf t = 1) ∨ (t < 0 ∧ signOf t = -1) := by
  unfold signOf
  split <;> omega

/-- A sign times a magnitude has that magnitude. -/
theorem natAbs_sign_mul {s : Int} (h : s.natAbs = 1) (m : Nat) : (s * (m : Int)).natAbs = m := by
  rw [Int.natAbs_mul, h, Nat.one_mul, Int.natAbs_natCast]

theorem canonical_enc {v : Int} (h : v.natAbs < 10 ^ 31) : Canonical (enc v) :=
  ⟨pdValid_enc v, by rw [val_enc h]⟩

theorem canonical_enc_sign_mul {s : Int} {m : Nat} (hs : s.natAbs = 1) (hm : m < 10 ^ 31) :
    Canonical (enc (s * (m : Int))) :=
  canonical_enc (by rwa [natAbs_sign_mul hs])

/-! ## What a guarded operation answers (R121, R185) -/

section
variable {i : Instr} {q : Request}

theorem answers_of_two_valid {u f : Limb → Limb → Response}
    (hi : ∀ s, exec i s = s.transact fun q => withTwo q u f)
    (ha : pdValid (slot q.a 0) = true) (hb : pdValid (slot q.b 0) = true) :
    Answers i q (f (slot q.a 0) (slot q.b 0)) := by
  have h := answers_of_transact hi q
  rwa [withTwo, if_pos (by rw [ha, hb]; rfl)] at h

theorem answers_of_two_invalid {u f : Limb → Limb → Response}
    (hi : ∀ s, exec i s = s.transact fun q => withTwo q u f)
    (h : (pdValid (slot q.a 0) && pdValid (slot q.b 0)) = false) :
    Answers i q (u (slot q.a 0) (slot q.b 0)) := by
  have hq := answers_of_transact hi q
  rwa [withTwo, if_neg (by rw [h]; decide)] at hq

theorem answers_of_three_valid {u f : Limb → Limb → Limb → Response}
    (hi : ∀ s, exec i s = s.transact fun q => withThree q u f)
    (ha : pdValid (slot q.a 0) = true) (hb : pdValid (slot q.b 0) = true)
    (hc : carryValid q.c = true) : Answers i q (f (slot q.a 0) (slot q.b 0) q.c) := by
  have h := answers_of_transact hi q
  rwa [withThree_of_valid ha hb hc] at h

theorem answers_of_three_invalid {u f : Limb → Limb → Limb → Response}
    (hi : ∀ s, exec i s = s.transact fun q => withThree q u f)
    (h : (pdValid (slot q.a 0) && pdValid (slot q.b 0) && pdValid q.c && decide (mag q.c ≤ 1))
      = false) : Answers i q (u (slot q.a 0) (slot q.b 0) q.c) := by
  have hq := answers_of_transact hi q
  rw [Bool.and_assoc (_ && _)] at h
  rwa [withThree, carryValid, if_neg (by rw [h]; decide)] at hq

end

/-! ## Modulo add and subtract (R122 to R125) -/

theorem bcdModulo_eq (t : Int) : bcdModulo t = enc (signOf t * ((t.natAbs : Int) % 10 ^ 31)) := by
  simp [bcdModulo, decT]

section
variable {q : Request} (ha : pdValid (slot q.a 0) = true) (hb : pdValid (slot q.b 0) = true)
include ha hb

theorem bcdadd_answers :
    Answers .bcdadd q (.ok [bcdModulo (val (slot q.a 0) + val (slot q.b 0))]) :=
  answers_of_two_valid (i := .bcdadd) (fun _ => rfl) ha hb

theorem bcdsub_answers :
    Answers .bcdsub q (.ok [bcdModulo (val (slot q.a 0) - val (slot q.b 0))]) :=
  answers_of_two_valid (i := .bcdsub) (fun _ => rfl) ha hb

theorem bcdadde_answers (hc : carryValid q.c = true) :
    Answers .bcdadde q (.ok [bcdModulo (val (slot q.a 0) + val (slot q.b 0) + val q.c)]) :=
  answers_of_three_valid (i := .bcdadde) (fun _ => rfl) ha hb hc

theorem bcdsube_answers (hc : carryValid q.c = true) :
    Answers .bcdsube q (.ok [bcdModulo (val (slot q.a 0) - val (slot q.b 0) + val q.c)]) :=
  answers_of_three_valid (i := .bcdsube) (fun _ => rfl) ha hb hc

end

/-- Settles O36: both branches of the guards; the open values are the `UNSPEC` functions of R122 to R125. -/
theorem decimalAddSubtractModulo : Obligations.DecimalAddSubtractModulo := by
  refine ⟨rfl, rfl, rfl, rfl, ?_, Config.unspecBcdaddR0, Config.unspecBcdsubR0,
    Config.unspecBcdaddeR0, Config.unspecBcdsubeR0, fun q => ⟨fun h => ?_, fun h => ?_⟩⟩
  · rintro q _ _ rfl rfl ha hb
    simp only [← bcdModulo_eq, ← ok_one]
    exact ⟨bcdadd_answers ha hb, bcdsub_answers ha hb, fun hc hm =>
      have hcarry := (carryValid_iff q.c).mpr ⟨hc, hm⟩
      ⟨bcdadde_answers ha hb hcarry, bcdsube_answers ha hb hcarry⟩⟩
  · simp only [← ok_one]
    exact ⟨answers_of_two_invalid (i := .bcdadd) (fun _ => rfl) h,
      answers_of_two_invalid (i := .bcdsub) (fun _ => rfl) h⟩
  · simp only [← ok_one]
    exact ⟨answers_of_three_invalid (i := .bcdadde) (fun _ => rfl) h,
      answers_of_three_invalid (i := .bcdsube) (fun _ => rfl) h⟩

end Sys2Proof.Machine
end

section
/-! SUPPORT. The element and the decimal carry of `cdc` as integers (R126, R131), and the statements on the
carry-detect operations (R126, R127, R129, R130). -/

namespace Sys2Proof.Machine

/-! ## The element and the carry of `cdc` (R126, R131) -/

/-- The integers that `cdc` encodes for the true sum `t` of a first operand `a`: R131 (a), the ranges of (b), and
the sign classes of (c). -/
structure CarrySplit (a : Limb) (t element carry : Int) : Prop where
  value : carry * 10 ^ 31 + element = t
  element_lt : element.natAbs < 10 ^ 31
  carry_le : carry.natAbs ≤ 1
  sign_of_fits : t.natAbs < 10 ^ 31 → 0 ≤ sgn a * element
  sign_of_overflow : 10 ^ 31 ≤ t.natAbs → 0 ≤ signOf t * element

/-- What `cdc` can do on a sum of two elements and a carry, branch by branch. -/
theorem cdc_eq_enc (a : Limb) {t : Int} (ht : t.natAbs < 2 * 10 ^ 31) :
    ∃ element carry, CarrySplit a t element carry ∧ cdc a t = (enc element, enc carry) := by
  have hT : (decT : Int) = 10 ^ 31 := rfl
  have hsgn := sgn_cases a
  have hsign := signOf_cases t
  rcases Nat.lt_or_ge t.natAbs decT with hfits | hover
  · have hfits' : t.natAbs < 10 ^ 31 := hfits
    by_cases hs : t = 0 ∨ signOf t = sgn a
    · have hsign : 0 ≤ sgn a * t := by
        rcases hsgn with h | h <;> rw [h] at hs ⊢ <;> omega
      exact ⟨t, 0, ⟨by omega, by omega, by decide, fun _ => hsign, fun _ => by omega⟩,
        cdc_plain hfits hs⟩
    · obtain ⟨h0, hne⟩ := not_or.mp hs
      refine ⟨_, _, ?_, cdc_correct hfits h0 hne⟩
      rw [hT]
      rcases hsgn with h | h <;> rw [h] at hne ⊢ <;>
        exact ⟨by omega, by omega, by decide, fun _ => by rw [h]; omega, fun _ => by omega⟩
  · have hover' : 10 ^ 31 ≤ t.natAbs := hover
    refine ⟨_, _, ?_, cdc_overflow hover⟩
    rw [hT]
    rcases hsign with ⟨h0, h⟩ | ⟨h0, h⟩ <;> rw [h] <;>
      exact ⟨by omega, by omega, by decide, fun _ => by omega, fun _ => by rw [h]; omega⟩

section
variable (a : Limb) {t : Int} (ht : t.natAbs < 2 * 10 ^ 31)
include ht

theorem carrySplit_cdc : CarrySplit a t (val (cdc a t).1) (val (cdc a t).2) := by
  obtain ⟨element, carry, h, heq⟩ := cdc_eq_enc a ht
  have hcarry : carry.natAbs < 10 ^ 31 := Nat.lt_of_le_of_lt h.carry_le (by decide)
  rwa [heq, val_enc h.element_lt, val_enc hcarry]

theorem canonical_cdc : Canonical (cdc a t).1 := by
  obtain ⟨element, carry, h, heq⟩ := cdc_eq_enc a ht
  rw [heq]
  exact canonical_enc h.element_lt

theorem cdc_carry_mem : (cdc a t).2 ∈ [enc 1, enc 0, enc (-1)] := by
  obtain ⟨element, carry, h, heq⟩ := cdc_eq_enc a ht
  have hle := h.carry_le
  obtain rfl | rfl | rfl : carry = 1 ∨ carry = 0 ∨ carry = -1 := by omega
  all_goals simp [heq]

end

theorem canonical_of_mem_unitCarry {c : Limb} (h : c ∈ [enc 1, enc 0, enc (-1)]) : Canonical c := by
  simp only [List.mem_cons, List.not_mem_nil, or_false] at h
  obtain rfl | rfl | rfl := h
  all_goals exact canonical_enc (by decide)

theorem eq_zero_or_signOf_eq {σ v : Int} (hσ : σ = 1 ∨ σ = -1) (h : 0 ≤ σ * v) :
    v = 0 ∨ signOf v = σ := by
  have hv := signOf_cases v
  rcases hσ with rfl | rfl <;> omega

/-! ## BCDADDC, BCDSUBC, BCDADDEC and BCDSUBEC (R126, R127, R129, R130) -/

theorem cdcResponse_eq_performed (a : Limb) (t : Int) :
    cdcResponse a t = performed (cdc a t).1.toNat (s := (cdc a t).2) := ok_one ..

@[simp] theorem cdcResponse_s (a : Limb) (t : Int) : (cdcResponse a t).s = (cdc a t).2 := rfl

@[simp] theorem slot_ok_one (x s : Limb) (t : Bool) : slot (Response.ok [x] s t).r 0 = x :=
  slot_portOf (ls := [x]) (by simp) (by simp)

@[simp] theorem slot_cdcResponse (a : Limb) (t : Int) : slot (cdcResponse a t).r 0 = (cdc a t).1 :=
  slot_ok_one ..

section
variable {q : Request} (ha : pdValid (slot q.a 0) = true) (hb : pdValid (slot q.b 0) = true)
include ha hb

theorem bcdaddc_answers :
    Answers .bcdaddc q (cdcResponse (slot q.a 0) (val (slot q.a 0) + val (slot q.b 0))) :=
  answers_of_two_valid (i := .bcdaddc) (fun _ => rfl) ha hb

theorem bcdsubc_answers :
    Answers .bcdsubc q (cdcResponse (slot q.a 0) (val (slot q.a 0) - val (slot q.b 0))) :=
  answers_of_two_valid (i := .bcdsubc) (fun _ => rfl) ha hb

theorem bcdaddec_answers (hc : carryValid q.c = true) :
    Answers .bcdaddec q (cdcResponse (slot q.a 0) (val (slot q.a 0) + val (slot q.b 0) + val q.c)) :=
  bcdaddec_isElementStep q ha hb hc

theorem bcdsubec_answers (hc : carryValid q.c = true) :
    Answers .bcdsubec q (cdcResponse (slot q.a 0) (val (slot q.a 0) - val (slot q.b 0) + val q.c)) :=
  bcdsubec_isElementStep q ha hb hc

/-- The true sums of the two-operand forms are in the range of `cdc`. -/
theorem natAbs_sum_lt :
    (val (slot q.a 0) + val (slot q.b 0)).natAbs < 2 * 10 ^ 31
      ∧ (val (slot q.a 0) - val (slot q.b 0)).natAbs < 2 * 10 ^ 31 := by
  have hx := natAbs_val_lt ha
  have hy := natAbs_val_lt hb
  omega

/-- The true sums of the three-operand forms are in the range of `cdc`. -/
theorem natAbs_sum_carry_lt (hc : carryValid q.c = true) :
    (val (slot q.a 0) + val (slot q.b 0) + val q.c).natAbs < 2 * 10 ^ 31
      ∧ (val (slot q.a 0) - val (slot q.b 0) + val q.c).natAbs < 2 * 10 ^ 31 := by
  have hx := natAbs_val_lt ha
  have hy := natAbs_val_lt hb
  have hz := natAbs_val_le_one hc
  omega

end

/-- An answer with the element and the carry of `cdc` is an answer by the branch that `t` is in. -/
theorem carryDetectAnswers_of_cdcResponse {i : Instr} {q : Request} {a : Limb} {t : Int}
    (h : Answers i q (cdcResponse a t)) (ht : t.natAbs < 2 * 10 ^ 31) :
    CarryDetectAnswers i q a t := by
  have hp := h
  rw [cdcResponse_eq_performed] at hp
  refine ⟨fun hover => ?_, fun hfits h0 hs => ?_, fun hfits hs => ?_, cdcResponse a t, h, ?_⟩
  · rwa [cdc_overflow hover] at hp
  · rwa [cdc_correct hfits h0 hs] at hp
  · rwa [cdc_plain hfits hs] at hp
  · rw [cdcResponse_s, slot_cdcResponse]
    exact (carrySplit_cdc a ht).value

/-- The open elements of the carry-detect operations (R17, R126, R127, R129, R130). -/
def openElement (i : Instr) (a b c : Limb) : Limb :=
  match i with
  | .bcdaddc => Config.unspecBcdaddcR0 a b
  | .bcdsubc => Config.unspecBcdsubcR0 a b
  | .bcdaddec => Config.unspecBcdaddecR0 a b c
  | .bcdsubec => Config.unspecBcdsubecR0 a b c
  | _ => 0

/-- The open decimal carries of the carry-detect operations (R17, R126, R127, R129, R130). -/
def openCarry (i : Instr) (a b c : Limb) : Limb :=
  match i with
  | .bcdaddc => Config.unspecBcdaddcS a b
  | .bcdsubc => Config.unspecBcdsubcS a b
  | .bcdaddec => Config.unspecBcdaddecS a b c
  | .bcdsubec => Config.unspecBcdsubecS a b c
  | _ => 0

/-- Settles O37: the true sums are in the range of `cdc`, whose branches and value law are proved once; the open
values are those of the guards. -/
theorem decimalCarryDetectByBranches : Obligations.DecimalCarryDetectByBranches := by
  refine ⟨rfl, rfl, rfl, rfl, ?_, openElement, openCarry, fun q => ⟨fun h i hi => ?_, fun h i hi => ?_⟩⟩
  · rintro q _ _ rfl rfl ha hb
    have ht := natAbs_sum_lt ha hb
    refine ⟨carryDetectAnswers_of_cdcResponse (bcdaddc_answers ha hb) ht.1,
      carryDetectAnswers_of_cdcResponse (bcdsubc_answers ha hb) ht.2, fun hc hm => ?_⟩
    have hcarry := (carryValid_iff q.c).mpr ⟨hc, hm⟩
    have ht := natAbs_sum_carry_lt ha hb hcarry
    exact ⟨carryDetectAnswers_of_cdcResponse (bcdaddec_answers ha hb hcarry) ht.1,
      carryDetectAnswers_of_cdcResponse (bcdsubec_answers ha hb hcarry) ht.2⟩
  · rw [← ok_one]
    rcases List.mem_pair.mp hi with rfl | rfl
    · exact answers_of_two_invalid (i := .bcdaddc) (fun _ => rfl) h
    · exact answers_of_two_invalid (i := .bcdsubc) (fun _ => rfl) h
  · rw [← ok_one]
    rcases List.mem_pair.mp hi with rfl | rfl
    · exact answers_of_three_invalid (i := .bcdaddec) (fun _ => rfl) h
    · exact answers_of_three_invalid (i := .bcdsubec) (fun _ => rfl) h

/-- Each carry-detect operation answers with `cdc` of its true sum, which is in the range of `cdc`. -/
theorem carryDetect_answers {q : Request} (ha : pdValid (slot q.a 0) = true)
    (hb : pdValid (slot q.b 0) = true) (hc : carryValid q.c = true) {i : Instr} {t : Int}
    (hit : (i, t) ∈ [(Instr.bcdaddc, val (slot q.a 0) + val (slot q.b 0)),
      (.bcdsubc, val (slot q.a 0) - val (slot q.b 0)),
      (.bcdaddec, val (slot q.a 0) + val (slot q.b 0) + val q.c),
      (.bcdsubec, val (slot q.a 0) - val (slot q.b 0) + val q.c)]) :
    Answers i q (cdcResponse (slot q.a 0) t) ∧ t.natAbs < 2 * 10 ^ 31 := by
  obtain ⟨hadd, hsub⟩ := natAbs_sum_lt ha hb
  obtain ⟨hadde, hsube⟩ := natAbs_sum_carry_lt ha hb hc
  simp only [List.mem_cons, Prod.mk.injEq, List.not_mem_nil, or_false] at hit
  obtain ⟨rfl, rfl⟩ | ⟨rfl, rfl⟩ | ⟨rfl, rfl⟩ | ⟨rfl, rfl⟩ := hit
  · exact ⟨bcdaddc_answers ha hb, hadd⟩
  · exact ⟨bcdsubc_answers ha hb, hsub⟩
  · exact ⟨bcdaddec_answers ha hb hc, hadde⟩
  · exact ⟨bcdsubec_answers ha hb hc, hsube⟩

/-- Settles O38: the laws of `cdc` on the true sum of each operation. -/
theorem decimalCarryDetectKeepsTheValue : Obligations.DecimalCarryDetectKeepsTheValue := by
  intro q ha hb hc hm i t hit
  obtain ⟨hans, ht⟩ := carryDetect_answers ha hb ((carryValid_iff q.c).mpr ⟨hc, hm⟩) hit
  have hsplit := carrySplit_cdc (slot q.a 0) ht
  obtain ⟨hvalid, hcanon⟩ := canonical_cdc (slot q.a 0) ht
  refine ⟨_, hans, ?_⟩
  rw [cdcResponse_s, slot_cdcResponse]
  exact ⟨hsplit.value, cdc_carry_mem _ ht, hvalid, hcanon,
    fun hfits => eq_zero_or_signOf_eq (sgn_cases _) (hsplit.sign_of_fits hfits),
    fun hover => eq_zero_or_signOf_eq (by have := signOf_cases t; omega) (hsplit.sign_of_overflow hover)⟩

end Sys2Proof.Machine
end

section
/-! SUPPORT. The multi-limb decimal chains as one number: the element steps telescope (R144), and the statement on
them. -/

namespace Sys2Proof.Machine

/-! ## The value of a sequence of elements, highest-order first (R32) -/

/-- The number whose digits to base 10^31, highest first, are the integers `x 0` to `x (n − 1)` (R144). -/
def elementsVal (x : Nat → Int) (n : Nat) : Int :=
  ∑ j ∈ Finset.range n, x j * 10 ^ (31 * (n - 1 - j))

theorem elementsVal_succ (x : Nat → Int) (n : Nat) :
    elementsVal x (n + 1) = elementsVal x n * 10 ^ 31 + x n := by
  have hshift : ∀ j ∈ Finset.range n,
      x j * 10 ^ (31 * (n + 1 - 1 - j)) = x j * 10 ^ (31 * (n - 1 - j)) * 10 ^ 31 := fun j hj => by
    have hj := Finset.mem_range.mp hj
    rw [mul_assoc, ← pow_add, show 31 * (n - 1 - j) + 31 = 31 * (n + 1 - 1 - j) by omega]
  rw [elementsVal, Finset.sum_range_succ, Finset.sum_congr rfl hshift, ← Finset.sum_mul, elementsVal]
  simp

theorem elementsVal_add_mul (x y : Nat → Int) (op : Int) (n : Nat) :
    elementsVal (fun j => x j + op * y j) n = elementsVal x n + op * elementsVal y n := by
  simp only [elementsVal, Finset.mul_sum, ← Finset.sum_add_distrib]
  exact Finset.sum_congr rfl fun _ _ => by ring

theorem elementsVal_mul (σ : Int) (x : Nat → Int) (n : Nat) :
    elementsVal (fun j => σ * x j) n = σ * elementsVal x n := by
  simp only [elementsVal, Finset.mul_sum, mul_assoc]

theorem elementsVal_range {x : Nat → Int} {n : Nat} (h : ∀ j, j < n → 0 ≤ x j ∧ x j < 10 ^ 31) :
    0 ≤ elementsVal x n ∧ elementsVal x n < 10 ^ (31 * n) := by
  induction n with
  | zero => simp [elementsVal]
  | succ n ih =>
    obtain ⟨hlow, hhigh⟩ := ih fun j hj => h j (by omega)
    obtain ⟨h0, h1⟩ := h n (Nat.lt_succ_self n)
    rw [elementsVal_succ, show 31 * (n + 1) = 31 * n + 31 by ring, pow_add]
    generalize (10 : Int) ^ (31 * n) = p at hhigh ⊢
    constructor <;> omega

/-- Steps that take a sum and a carry in and give an element and a carry out, in turn: the carries between the
steps cancel, and the carry out of the highest one and the elements hold what the sums and the carry in do. -/
theorem elementsVal_telescope {c e t : Nat → Int} {n : Nat}
    (h : ∀ j, j < n → c j * 10 ^ 31 + e j = t j + c (j + 1)) :
    c 0 * 10 ^ (31 * n) + elementsVal e n = elementsVal t n + c n := by
  induction n with
  | zero => simp [elementsVal]
  | succ n ih =>
    have hlow := ih fun j hj => h j (by omega)
    have hstep := h n (Nat.lt_succ_self n)
    rw [elementsVal_succ, elementsVal_succ, show 31 * (n + 1) = 31 * n + 31 by ring, pow_add]
    linear_combination 10 ^ 31 * hlow + hstep

/-! ## The chain of `cdc` (R142, R143) -/

/-- One step of a decimal chain, with the sign `op` of its second operand. -/
def cdcStep (op : Int) (a b c : Limb) : Limb × Limb := cdc a (val a + op * val b + val c)

theorem addStep_eq_cdcStep : addStep = cdcStep 1 := by
  funext a b c
  rw [addStep, cdcStep, one_mul]

theorem subStep_eq_cdcStep : subStep = cdcStep (-1) := by
  funext a b c
  rw [subStep, cdcStep, neg_one_mul, ← sub_eq_add_neg]

/-- WBCDADD and WBCDSUB are the chains of `cdc` with the second operand added and subtracted. -/
theorem decimalChain_isDecimalChain {w : Instr} {op : Int} {n : Nat}
    (h : (w, op) ∈ [(Instr.wbcdadd n, 1), (.wbcdsub n, -1)]) :
    IsDecimalChain w n (cdcStep op) ∧ op.natAbs = 1 := by
  rcases List.mem_pair.mp h with h | h <;> obtain ⟨rfl, rfl⟩ := Prod.mk.inj h
  · exact ⟨addStep_eq_cdcStep ▸ wbcdadd_isDecimalChain n, rfl⟩
  · exact ⟨subStep_eq_cdcStep ▸ wbcdsub_isDecimalChain n, rfl⟩

theorem natAbs_op_mul {op : Int} (h : op.natAbs = 1) (x : Int) : (op * x).natAbs = x.natAbs := by
  rw [Int.natAbs_mul, h, Nat.one_mul]

/-- Every step of a chain of `cdc` on valid elements is in the range of `cdc`, so that the laws of `cdc` hold of
each result slot and of the carries between the steps. -/
theorem cdcChain_steps {op : Int} (hop : op.natAbs = 1) {a b : Port} {n : Nat} (hn : n ≤ 32)
    (hv : ∀ j, j < n → pdValid (slot a j) = true ∧ pdValid (slot b j) = true) {r : Response}
    (hr : r = decimalChainResponse (decimalChain (cdcStep op) (slots a n) (slots b n))) :
    ∃ carry : Nat → Limb, val (carry n) = 0 ∧ r.s = carry 0
      ∧ (∀ j, j < n → (val (carry (j + 1))).natAbs ≤ 1)
      ∧ (∀ j, j < n → CarrySplit (slot a j) (val (slot a j) + op * val (slot b j) + val (carry (j + 1)))
          (val (slot r.r j)) (val (carry j)))
      ∧ (∀ j, j < n → Canonical (slot r.r j))
      ∧ ∀ j, j < n → carry j ∈ [enc 1, enc 0, enc (-1)] := by
  obtain ⟨carry, hlow, hout, -, hsteps⟩ := decimalChainResponse_steps _ a b hn hr
  have hzero : val (carry n) = 0 := by rw [hlow]; exact val_enc (by decide)
  have helem (j : Nat) (hj : j < n) := congrArg Prod.fst (hsteps j hj)
  have hcarry (j : Nat) (hj : j < n) := congrArg Prod.snd (hsteps j hj)
  simp only [cdcStep] at helem hcarry
  have hin : ∀ j, j < n → (val (carry (j + 1))).natAbs ≤ 1 := fun j hj => by
    rcases Nat.lt_or_eq_of_le (Nat.succ_le_of_lt hj) with hlt | heq
    · exact natAbs_val_le_one ((congrArg carryValid (hcarry (j + 1) hlt)).trans (carryValid_cdc _ _))
    · rw [show j + 1 = n from heq, hzero]
      decide
  have ht : ∀ j, j < n →
      (val (slot a j) + op * val (slot b j) + val (carry (j + 1))).natAbs < 2 * 10 ^ 31 := fun j hj => by
    have hx := natAbs_val_lt (hv j hj).1
    have hy := natAbs_val_lt (hv j hj).2
    have hc := hin j hj
    rw [← natAbs_op_mul hop] at hy
    omega
  refine ⟨carry, hzero, hout, hin, fun j hj => ?_, fun j hj => ?_, fun j hj => ?_⟩
  · rw [helem j hj, hcarry j hj]
    exact carrySplit_cdc _ (ht j hj)
  · rw [helem j hj]
    exact canonical_cdc _ (ht j hj)
  · rw [hcarry j hj]
    exact cdc_carry_mem _ (ht j hj)

/-! ## One sign class (R144 (c)) -/

theorem sgn_mul_val (x : Limb) : 0 ≤ sgn x * val x := by
  have h := sgn_cases x
  rw [val]
  rcases h with h | h <;> rw [h] <;> omega

/-- A step of a chain gives an element of the first operand's sign class even when its sum overflows: the sum can
reach 10^31 against that sign only as ∓10^31, which leaves 0. -/
theorem CarrySplit.sgn_mul_element {a : Limb} {y c element carry : Int}
    (h : CarrySplit a (val a + y + c) element carry) (hy : y.natAbs < 10 ^ 31) (hc : c.natAbs ≤ 1) :
    0 ≤ sgn a * element := by
  obtain ⟨hvalue, helem, -, hfits, hover⟩ := h
  rcases Nat.lt_or_ge (val a + y + c).natAbs (10 ^ 31) with hlt | hge
  · exact hfits hlt
  · have hover := hover hge
    have hval := sgn_mul_val a
    have hsign := signOf_cases (val a + y + c)
    rcases sgn_cases a with h | h <;> rw [h] at hval ⊢ <;>
      rcases hsign with ⟨h0, hs⟩ | ⟨h0, hs⟩ <;> rw [hs] at hover <;> omega

/-- The carry out of a chain whose elements have one sign class, from the value law alone. -/
theorem carry_of_sign_class {σ c R W : Int} {p : Nat} (hσ : σ = 1 ∨ σ = -1)
    (hc : c = 1 ∨ c = 0 ∨ c = -1) (hR : 0 ≤ σ * R ∧ σ * R < p) (hW : c * p + R = W) :
    (0 ≤ σ * W → c = 0 ∨ c = σ) ∧ (0 ≤ σ * W → W.natAbs < p → c = 0) ∧ (σ * W < 0 → c = -σ) := by
  rcases hσ with rfl | rfl <;> rcases hc with rfl | rfl | rfl <;> omega

theorem val_of_mem_unitCarry {c : Limb} (h : c ∈ [enc 1, enc 0, enc (-1)]) :
    val c = 1 ∨ val c = 0 ∨ val c = -1 := by
  simp only [List.mem_cons, List.not_mem_nil, or_false] at h
  obtain rfl | rfl | rfl := h
  · exact .inl (val_enc (by decide))
  · exact .inr (.inl (val_enc (by decide)))
  · exact .inr (.inr (val_enc (by decide)))

/-- Settles O46: the steps of the chain telescope; with one sign class the elements make a number of that sign below
10^(31·N), which the value law turns into the carry. -/
theorem decimalChainKeepsTheValue : Obligations.DecimalChainKeepsTheValue := by
  intro w op n q W h1 hn hw hv hW
  obtain ⟨hchain, hop⟩ := decimalChain_isDecimalChain hw
  obtain ⟨carry, hzero, hout, hin, hsplit, hcanon, hunit⟩ := cdcChain_steps hop hn hv rfl
  refine ⟨_, hchain q hv, ?_⟩
  generalize decimalChainResponse (decimalChain (cdcStep op) (slots q.a n) (slots q.b n)) = r
    at hout hsplit hcanon ⊢
  have hmem : r.s ∈ [enc 1, enc 0, enc (-1)] := hout ▸ hunit 0 h1
  have hvalue : val r.s * 10 ^ (31 * n) + elementsVal (fun j => val (slot r.r j)) n = W := by
    have htel := elementsVal_telescope (c := fun j => val (carry j)) fun j hj => (hsplit j hj).value
    rw [elementsVal_add_mul, hzero, add_zero, ← hout] at htel
    exact htel.trans hW.symm
  refine ⟨hvalue, hmem, hcanon, fun σ hσ => ?_⟩
  have hσ1 : σ = 1 ∨ σ = -1 := hσ 0 h1 ▸ sgn_cases _
  have hclass : ∀ j, j < n → 0 ≤ σ * val (slot r.r j) := fun j hj => by
    rw [← hσ j hj]
    exact (hsplit j hj).sgn_mul_element (by rw [natAbs_op_mul hop]; exact natAbs_val_lt (hv j hj).2)
      (hin j hj)
  have hR : 0 ≤ σ * elementsVal (fun j => val (slot r.r j)) n
      ∧ σ * elementsVal (fun j => val (slot r.r j)) n < (10 ^ (31 * n) : Nat) := by
    rw [← elementsVal_mul]
    push_cast
    refine elementsVal_range fun j hj => ⟨hclass j hj, ?_⟩
    have hlt := (hsplit j hj).element_lt
    rcases hσ1 with rfl | rfl <;> omega
  exact ⟨fun j hj => eq_zero_or_signOf_eq hσ1 (hclass j hj),
    carry_of_sign_class hσ1 (val_of_mem_unitCarry hmem) hR (by push_cast; exact hvalue)⟩

end Sys2Proof.Machine
end

section
/-! SUPPORT. The compare, the sign operations, the digit shifts, truncation and validity (R133 to R141), and the
statements on them. -/

namespace Sys2Proof.Machine

/-! ## Compare (R133) -/

theorem bcdcmp_answers (cond : Cond) {q : Request} (ha : pdValid (slot q.a 0) = true)
    (hb : pdValid (slot q.b 0) = true) :
    Answers (.bcdcmp cond) q
      (performed 0 (t := condHolds cond (val (slot q.a 0)) (val (slot q.b 0)))) :=
  answers_of_two_valid (i := .bcdcmp cond) (fun _ => rfl) ha hb

/-- Settles O40: each condition on the two values; the open bit is the `UNSPEC` function of R133. -/
theorem decimalCompareIsOfValues : Obligations.DecimalCompareIsOfValues := by
  refine ⟨?_, rfl, ⟨fun cond a b => Config.unspecBcdcmpT a b (condCode cond), fun cond q h =>
      answers_of_two_invalid (i := .bcdcmp cond) (fun _ => rfl) h⟩, fun n hn hlt =>
    decode_immediate_illegal (by decide) rfl hlt (by rw [condOfCode_eq_none hn]; rfl)⟩
  rintro q _ _ rfl rfl ha hb
  exact ⟨bcdcmp_answers .eq ha hb, bcdcmp_answers .ne ha hb, bcdcmp_answers .lt ha hb,
    bcdcmp_answers .le ha hb, bcdcmp_answers .gt ha hb, bcdcmp_answers .ge ha hb⟩

/-! ## Sign operations (R120, R134, R135) -/

/-- With `P_FIELDOP_NORM` at 0 a field operation leaves its result as it is (log 7). -/
@[simp] theorem fieldResult_eq (x : Limb) : fieldResult x = x := rfl

theorem nib_zero_toNat (x : Limb) : (nib x 0).toNat = x.toNat % 16 := by
  rw [nib_toNat, Nat.pow_zero, Nat.div_one]

theorem isPos_iff (s : Nibble) : isPos s = true ↔ s.toNat ∈ [0xA, 0xC, 0xE, 0xF] := by
  revert s; decide

theorem isNeg_iff (s : Nibble) : isNeg s = true ↔ s.toNat ∈ [0xB, 0xD] := by
  revert s; decide

/-- The three classes of the sign nibble: positive, negative, no sign code. -/
theorem setPreferredSign_toNat (a : Limb) :
    (setPreferredSign a).toNat = a.toNat / 16 * 16 +
      (if a.toNat % 16 ∈ [0xA, 0xC, 0xE, 0xF] then 0xC
       else if a.toNat % 16 ∈ [0xB, 0xD] then 0xD else a.toNat % 16) := by
  simp only [setPreferredSign, isPos_iff, isNeg_iff, nib_zero_toNat]
  split
  · rw [append_toNat, magBits_toNat]; rfl
  · split
    · rw [append_toNat, magBits_toNat]; rfl
    · omega

theorem bcdcpsgn_answers (q : Request) :
    Answers .bcdcpsgn q (performed ((slot q.a 0).toNat / 16 * 16 + (slot q.b 0).toNat % 16)) := by
  have h := answers_of_transact (i := .bcdcpsgn) (fun _ => rfl) q
  rwa [fieldResult_eq, ok_one, append_toNat, magBits_toNat, nib_zero_toNat] at h

/-- Settles O41: the word put together again from the digits of a and a sign nibble. -/
theorem signOperationsChangeTheSignNibbleOnly : Obligations.SignOperationsChangeTheSignNibbleOnly := by
  refine ⟨rfl, rfl, fun q => ⟨bcdcpsgn_answers q, ?_⟩⟩
  rw [← setPreferredSign_toNat, ← ok_one]
  exact answers_of_transact (i := .bcdsetsgn) (fun _ => rfl) q

/-! ## Digit shifts and truncation (R136, R137, R139, R140) -/

theorem bcdsl_answers (n : Nat) (q : Request) :
    Answers (.bcdsl n) q (performed
      ((slot q.a 0).toNat / 16 * 2 ^ (4 * n) % 2 ^ 124 * 16 + (slot q.a 0).toNat % 16)) := by
  have h := answers_of_transact (i := .bcdsl n) (fun _ => rfl) q
  rwa [fieldResult_eq, ok_one, append_toNat, BitVec.toNat_shiftLeft, Nat.shiftLeft_eq, magBits_toNat,
    nib_zero_toNat] at h

theorem bcdsr_answers (n : Nat) (q : Request) :
    Answers (.bcdsr n) q (performed
      ((slot q.a 0).toNat / 16 / 2 ^ (4 * n) * 16 + (slot q.a 0).toNat % 16)) := by
  have h := answers_of_transact (i := .bcdsr n) (fun _ => rfl) q
  rwa [fieldResult_eq, ok_one, append_toNat, BitVec.toNat_ushiftRight, Nat.shiftRight_eq_div_pow,
    magBits_toNat, nib_zero_toNat] at h

theorem lowNibbles_toNat (a : Limb) (k : Nat) : (lowNibbles a k).toNat = a.toNat % 2 ^ (4 * k) :=
  limbOfNat_toNat (Nat.lt_of_le_of_lt (Nat.mod_le ..) a.isLt)

theorem bcdtrunc_answers (k : Nat) (q : Request) :
    Answers (.bcdtrunc k) q (performed ((slot q.a 0).toNat % 2 ^ (4 * (k + 1)))) := by
  rw [← lowNibbles_toNat, ← ok_one]
  exact answers_of_transact (i := .bcdtrunc k) (fun _ => rfl) q

/-- Settles O42: each shift is of the magnitude bits alone; the decoder reads counts to 31. -/
theorem digitShiftsKeepTheSignNibble : Obligations.DigitShiftsKeepTheSignNibble := by
  refine ⟨fun q n hn => ⟨bcdsl_answers n q, bcdsr_answers n q, bcdtrunc_answers n q, ?_, ?_, ?_⟩,
    fun n hn hlt => ⟨?_, ?_, ?_⟩⟩
  · exact encode_eq_wordOf (i := .bcdsl n) (show n < 256 by omega) Laws.zero_lt
  · exact encode_eq_wordOf (i := .bcdsr n) (show n < 256 by omega) Laws.zero_lt
  · exact encode_eq_wordOf (i := .bcdtrunc n) (show n < 256 by omega) Laws.zero_lt
  · exact decode_countImmediate_illegal (by decide) rfl hn hlt
  · exact decode_countImmediate_illegal (by decide) rfl hn hlt
  · exact decode_countImmediate_illegal (by decide) rfl hn hlt

/-! ## The rounded shift (R138) -/

theorem shiftRound_zero (a : Limb) : shiftRound a 0 = enc (val a) := rfl

theorem shiftRound_of_pos (a : Limb) {n : Nat} (h : 1 ≤ n) :
    shiftRound a n
      = enc (sgn a * ((mag a / 10 ^ n + ((nib a n).toNat + 5) / 10 : Nat) : Int)) :=
  if_neg (by omega)

theorem bcdsrr_answers {q : Request} (n : Nat) (ha : pdValid (slot q.a 0) = true) :
    Answers (.bcdsrr n) q (.ok [shiftRound (slot q.a 0) n]) := by
  have h := answers_of_transact (i := .bcdsrr n) (fun _ => rfl) q
  rwa [if_pos ha] at h

theorem bcdsrr_answers_open {q : Request} (n : Nat) (ha : pdValid (slot q.a 0) = false) :
    Answers (.bcdsrr n) q (.ok [Config.unspecBcdsrrR0 (slot q.a 0) n]) := by
  have h := answers_of_transact (i := .bcdsrr n) (fun _ => rfl) q
  rwa [if_neg (by rw [ha]; decide)] at h

/-- Settles O43: count 0 and the other counts by the two branches of R138; the open value is its `UNSPEC`
function. -/
theorem roundedDigitShift : Obligations.RoundedDigitShift := by
  refine ⟨?_, ⟨Config.unspecBcdsrrR0, fun q n _ ha => ok_one _ 0 false ▸ bcdsrr_answers_open n ha⟩,
    fun n hn hlt => decode_countImmediate_illegal (by decide) rfl hn hlt⟩
  rintro q n _ rfl hn ha
  have h := bcdsrr_answers n ha
  rw [ok_one] at h
  refine ⟨?_, fun h1 => shiftRound_of_pos _ h1 ▸ h,
    encode_eq_wordOf (i := .bcdsrr n) (show n < 256 by omega) Laws.zero_lt⟩
  rintro rfl
  exact shiftRound_zero _ ▸ h

/-! ## Unsigned truncation and validity (R140, R141) -/

theorem digitsVal_of_zero (n : Nat) : digitsVal n 0 = 0 := by
  induction n with
  | zero => rfl
  | succ n ih => simp [digitsVal, ih]

/-- The k low nibbles of a digit string hold its k low digits. -/
theorem digitsVal_low_nibbles {n k x : Nat} (hk : k ≤ n) (h : digitsValid n x = true) :
    digitsVal n (x % 16 ^ k) = digitsVal n x % 10 ^ k := by
  induction k generalizing n x with
  | zero => rw [Nat.pow_zero, Nat.pow_zero, Nat.mod_one, Nat.mod_one, digitsVal_of_zero]
  | succ k ih =>
    obtain ⟨n, rfl⟩ := Nat.exists_eq_add_of_le' (Nat.one_le_of_lt hk)
    obtain ⟨hdigit, hrest⟩ := Bool.and_eq_true_iff.mp h
    have hdigit := of_decide_eq_true hdigit
    have hlow : x % 16 ^ (k + 1) % 16 = x % 16 := Nat.mod_mod_of_dvd x (Dvd.intro_left (16 ^ k) rfl)
    have hhigh : x % 16 ^ (k + 1) / 16 = x / 16 % 16 ^ k := by
      rw [Nat.pow_succ', Nat.mod_mul_right_div_self]
    rw [digitsVal, digitsVal, hlow, hhigh, ih (Nat.le_of_succ_le_succ hk) hrest, Nat.pow_succ',
      Nat.mod_mul, show (x % 16 + 10 * digitsVal n (x / 16)) % 10 = x % 16 by omega,
      show (x % 16 + 10 * digitsVal n (x / 16)) / 10 = digitsVal n (x / 16) by omega]

theorem umag_lowNibbles {a : Limb} {k : Nat} (hk : k ≤ 32) (h : updValid a = true) :
    umag (lowNibbles a k) = umag a % 10 ^ k := by
  rw [umag, lowNibbles_toNat, Nat.pow_mul]
  exact digitsVal_low_nibbles hk h

theorem bcdutrunc_answers (k : Nat) (q : Request) :
    Answers (.bcdutrunc k) q (performed ((slot q.a 0).toNat % 2 ^ (4 * k))) := by
  rw [← lowNibbles_toNat, ← ok_one]
  exact answers_of_transact (i := .bcdutrunc k) (fun _ => rfl) q

theorem bcdvalid_answers (fmt : DecFormat) (q : Request) :
    Answers (.bcdvalid fmt) q (performed 0 (t := decimalValid fmt (slot q.a 0))) :=
  answers_of_transact (i := .bcdvalid fmt) (fun _ => rfl) q

theorem pdValid_eq_decide (x : Limb) :
    pdValid x = decide (0xA ≤ x.toNat % 16 ∧ ∀ k ∈ List.range 31, x.toNat / 16 ^ (k + 1) % 16 ≤ 9) := by
  rw [Bool.eq_iff_iff, decide_eq_true_iff, pdValid, Bool.and_eq_true, isSign_iff, nib_zero_toNat,
    digitsValid_iff]
  simp only [List.mem_range, magBits_toNat, Nat.div_div_eq_div_mul, Nat.pow_succ']

theorem updValid_eq_decide (x : Limb) :
    updValid x = decide (∀ k ∈ List.range 32, x.toNat / 16 ^ k % 16 ≤ 9) := by
  rw [Bool.eq_iff_iff, decide_eq_true_iff, updValid, digitsValid_iff]
  simp only [List.mem_range]

theorem decFormatOfCode_eq_none {c : Nat} (h : 1 < c) : decFormatOfCode c = none :=
  readsCodes_decFormat.eq_none_of_code_lt fun f => Nat.lt_of_le_of_lt (decFormatCode_le f) h

/-- Settles O44: the low nibbles as a number and as digits; validity nibble by nibble. -/
theorem unsignedTruncateAndValidity : Obligations.UnsignedTruncateAndValidity := by
  refine ⟨fun q k hk => ⟨bcdutrunc_answers k q, umag_lowNibbles hk,
      encode_eq_wordOf (i := .bcdutrunc k) (show k < 256 by omega) Laws.zero_lt⟩,
    fun k hk hlt => decode_countImmediate_illegal (by decide) rfl hk hlt, fun q => ⟨?_, ?_⟩, rfl, rfl,
    fun n hn hlt =>
      decode_shape_illegal (by decide) rfl hlt (by rw [decFormatOfCode_eq_none hn]; rfl)⟩
  · rw [← pdValid_eq_decide]
    exact bcdvalid_answers .packed q
  · rw [← updValid_eq_decide]
    exact bcdvalid_answers .unsigned q

end Sys2Proof.Machine
end

section
/-! SUPPORT. The words the arithmetic decimal operations write are canonical (R120, R145, R185, R194), and the
statement on them. -/

namespace Sys2Proof.Machine

/-! ## Canonical results (R120) -/

theorem canonical_bcdModulo (t : Int) : Canonical (bcdModulo t) :=
  canonical_enc_sign_mul (signOf_natAbs t) (Nat.mod_lt _ (by decide))

theorem canonical_productLow (p : Int) : Canonical (productLow p) :=
  canonical_enc_sign_mul (signOf_natAbs p) (Nat.mod_lt _ (by decide))

section
variable {a b : Limb} (ha : pdValid a = true)
include ha

/-- A product of two 31-digit magnitudes has 62 digits. -/
theorem canonical_productHigh (hb : pdValid b = true) : Canonical (productHigh (val a * val b)) := by
  have hx := natAbs_val_lt ha
  have hy := natAbs_val_lt hb
  refine canonical_enc_sign_mul (signOf_natAbs _) (Nat.div_lt_of_lt_mul ?_)
  rw [Int.natAbs_mul]
  exact Nat.mul_lt_mul'' hx hy

theorem canonical_decimalQuotient : Canonical (decimalQuotient a b) :=
  canonical_enc_sign_mul (by rw [Int.natAbs_mul, sgn_natAbs, sgn_natAbs])
    (Nat.lt_of_le_of_lt (Nat.div_le_self ..) (mag_lt ha))

/-- The rounding digit adds at most 1 to a magnitude divided at least once by 10. -/
theorem canonical_shiftRound {n : Nat} (hn : n ≤ 31) : Canonical (shiftRound a n) := by
  rcases Nat.eq_zero_or_pos n with rfl | hpos
  · exact canonical_enc (natAbs_val_lt ha)
  · rw [shiftRound_of_pos a hpos]
    refine canonical_enc_sign_mul (sgn_natAbs a) ?_
    have hdigit := ((pdValid_iff a).mp ha).2 n hpos hn
    have hmag := mag_lt ha
    have hdiv : mag a / 10 ^ n ≤ mag a / 10 :=
      Nat.div_le_div_left (Nat.le_self_pow (by omega) 10) (by decide)
    omega

end

/-! ## Canonical answers (R60, R120) -/

section
variable {i : Instr} {q : Request} {x s : Limb}

/-- One slot and no second result. -/
theorem answersCanonically_one (h : Answers i q (.ok [x])) (hx : Canonical x)
    (hr : writesR i = 1) (hs : writesS i = false) : AnswersCanonically i q :=
  ⟨_, h, fun j hj => by
    obtain rfl : j = 0 := by omega
    rwa [slot_ok_one], fun hw => Bool.noConfusion (hs.symm.trans hw)⟩

/-- One slot and a second result. -/
theorem answersCanonically_two (h : Answers i q (.ok [x] s)) (hx : Canonical x) (hs : Canonical s)
    (hr : writesR i = 1) : AnswersCanonically i q :=
  ⟨_, h, fun j hj => by
    obtain rfl : j = 0 := by omega
    rwa [slot_ok_one], fun _ => hs⟩

theorem answersCanonically_cdc {a : Limb} {t : Int} (h : Answers i q (cdcResponse a t))
    (ht : t.natAbs < 2 * 10 ^ 31) (hr : writesR i = 1) : AnswersCanonically i q :=
  answersCanonically_two h (canonical_cdc a ht) (canonical_of_mem_unitCarry (cdc_carry_mem a ht)) hr

end

/-- A chain of `cdc` writes canonical elements and a canonical carry. -/
theorem answersCanonically_chain {w : Instr} {op : Int} {n : Nat} {q : Request} (h1 : 1 ≤ n) (hn : n ≤ 32)
    (hw : (w, op) ∈ [(Instr.wbcdadd n, 1), (.wbcdsub n, -1)])
    (hv : ∀ j, j < n → pdValid (slot q.a j) = true ∧ pdValid (slot q.b j) = true)
    (hr : writesR w = n) : AnswersCanonically w q := by
  obtain ⟨hchain, hop⟩ := decimalChain_isDecimalChain hw
  obtain ⟨carry, -, hout, -, -, hcanon, hunit⟩ := cdcChain_steps hop hn hv rfl
  exact ⟨_, hchain q hv, fun j hj => hcanon j (hr ▸ hj),
    fun _ => hout ▸ canonical_of_mem_unitCarry (hunit 0 h1)⟩

section
variable {q : Request} (ha : pdValid (slot q.a 0) = true) (hb : pdValid (slot q.b 0) = true)
include ha hb

theorem bcddiv_answersCanonically (h0 : mag (slot q.b 0) ≠ 0) : AnswersCanonically .bcddiv q := by
  have h := answers_of_two_valid (i := .bcddiv) (fun _ => rfl) ha hb
  rw [if_neg h0] at h
  exact answersCanonically_one h (canonical_decimalQuotient ha) rfl rfl

theorem twoOperand_answersCanonically :
    ∀ i ∈ [Instr.bcdadd, .bcdsub, .bcdaddc, .bcdsubc, .bcdmull, .bcdmulh, .bcdmulf],
      AnswersCanonically i q := by
  obtain ⟨hadd, hsub⟩ := natAbs_sum_lt ha hb
  simp only [List.forall_mem_cons, List.not_mem_nil, false_imp_iff, implies_true, and_true]
  refine ⟨answersCanonically_one (bcdadd_answers ha hb) (canonical_bcdModulo _) rfl rfl,
    answersCanonically_one (bcdsub_answers ha hb) (canonical_bcdModulo _) rfl rfl,
    answersCanonically_cdc (bcdaddc_answers ha hb) hadd rfl,
    answersCanonically_cdc (bcdsubc_answers ha hb) hsub rfl, ?_, ?_, ?_⟩
  · exact answersCanonically_one (answers_of_two_valid (i := .bcdmull) (fun _ => rfl) ha hb)
      (canonical_productLow _) rfl rfl
  · exact answersCanonically_one (answers_of_two_valid (i := .bcdmulh) (fun _ => rfl) ha hb)
      (canonical_productHigh ha hb) rfl rfl
  · exact answersCanonically_two (answers_of_two_valid (i := .bcdmulf) (fun _ => rfl) ha hb)
      (canonical_productLow _) (canonical_productHigh ha hb) rfl

theorem threeOperand_answersCanonically (hc : carryValid q.c = true) :
    ∀ i ∈ [Instr.bcdadde, .bcdsube, .bcdaddec, .bcdsubec], AnswersCanonically i q := by
  obtain ⟨hadd, hsub⟩ := natAbs_sum_carry_lt ha hb hc
  simp only [List.forall_mem_cons, List.not_mem_nil, false_imp_iff, implies_true, and_true]
  exact ⟨answersCanonically_one (bcdadde_answers ha hb hc) (canonical_bcdModulo _) rfl rfl,
    answersCanonically_one (bcdsube_answers ha hb hc) (canonical_bcdModulo _) rfl rfl,
    answersCanonically_cdc (bcdaddec_answers ha hb hc) hadd rfl,
    answersCanonically_cdc (bcdsubec_answers ha hb hc) hsub rfl⟩

end

/-- Settles O39: each kind of result word is canonical: a modulo result, a product half, a quotient, a rounded
shift, and the element and carry of `cdc`, alone or in a chain. -/
theorem arithmeticDecimalResultsAreCanonical : Obligations.ArithmeticDecimalResultsAreCanonical :=
  fun q => ⟨twoOperand_answersCanonically,
    fun ha hb hc hm => threeOperand_answersCanonically ha hb ((carryValid_iff q.c).mpr ⟨hc, hm⟩),
    bcddiv_answersCanonically,
    fun n hn ha => answersCanonically_one (bcdsrr_answers n ha) (canonical_shiftRound ha hn) rfl rfl,
    fun _ h1 hn hv => ⟨answersCanonically_chain (op := 1) h1 hn (by simp) hv rfl,
      answersCanonically_chain (op := -1) h1 hn (by simp) hv rfl⟩⟩

end Sys2Proof.Machine
end

section
/-! SUPPORT. The one-limb conversions and the five-stage pipelines (R161 to R166, R175), and the statements on
them. -/

namespace Sys2Proof.Machine

/-! ## The unsigned encoding and its value (R15) -/

theorem umag_uenc {v : Nat} (h : v < 10 ^ 32) : umag (uenc v) = v := by
  rw [umag, uenc_toNat, digitsVal_digitsOf, Nat.mod_eq_of_lt h]

theorem updValid_uenc (v : Nat) : updValid (uenc v) = true := by
  rw [updValid, uenc_toNat, digitsValid_digitsOf]

theorem digitsOf_umag {x : Limb} (h : updValid x = true) : digitsOf 32 (umag x) = x.toNat := by
  rw [umag, digitsOf_digitsVal h]
  exact Nat.mod_eq_of_lt x.isLt

theorem uenc_umag {x : Limb} (h : updValid x = true) : uenc (umag x) = x :=
  BitVec.eq_of_toNat_eq (by rw [uenc_toNat, digitsOf_umag h])

/-! ## CVB2D and CVD2B (R162, R165) -/

section
variable {q : Request}

theorem cvb2d_answers (h : (slot q.a 0).toNat < 10 ^ 32) :
    Answers .cvb2d q (performed (uenc (slot q.a 0).toNat).toNat) := by
  have hq := answers_of_transact (i := .cvb2d) (fun _ => rfl) q
  rwa [if_pos h, ok_one] at hq

theorem cvb2d_answers_open (h : 10 ^ 32 ≤ (slot q.a 0).toNat) :
    Answers .cvb2d q (performed (Config.unspecCvb2dR0 (slot q.a 0)).toNat) := by
  have hq := answers_of_transact (i := .cvb2d) (fun _ => rfl) q
  rwa [if_neg (Nat.not_lt.mpr h), ok_one] at hq

theorem cvd2b_answers (h : updValid (slot q.a 0) = true) :
    Answers .cvd2b q (performed (umag (slot q.a 0))) := by
  have hq := answers_of_transact (i := .cvd2b) (fun _ => rfl) q
  rwa [if_pos h, ok_one, limbOfNat_toNat (Nat.lt_trans (umag_lt h) (by decide))] at hq

theorem cvd2b_answers_open (h : ¬ updValid (slot q.a 0) = true) :
    Answers .cvd2b q (performed (Config.unspecCvd2bR0 (slot q.a 0)).toNat) := by
  have hq := answers_of_transact (i := .cvd2b) (fun _ => rfl) q
  rwa [if_neg h, ok_one] at hq

end

/-- Settles O47: both branches of each domain check, the digits read nibble by nibble. -/
theorem oneLimbConversions : Obligations.OneLimbConversions := by
  refine ⟨rfl, rfl, fun q h => ⟨_, cvb2d_answers h, fun k hk => nib_uenc _ (Nat.lt_succ_of_le hk)⟩,
    ⟨Config.unspecCvb2dR0, fun q => cvb2d_answers_open⟩, fun q h => ?_,
    Config.unspecCvd2bR0, fun q h => cvd2b_answers_open fun hv => h ((updValid_iff _).mp hv)⟩
  rw [← umag_eq_sum]
  exact cvd2b_answers ((updValid_iff _).mpr h)

/-! ## One conversion after the other (R175 (a), (b)) -/

theorem slot_performed (x : Limb) (s : Limb) (t : Bool) : slot (performed x.toNat s t).r 0 = x := by
  rw [← ok_one, slot_ok_one]

/-- Settles O48: the encoding holds every digit, and a word of valid digits is the encoding of its value. -/
theorem oneLimbConversionsAreInverse : Obligations.OneLimbConversionsAreInverse := by
  refine ⟨fun q h => ⟨_, cvb2d_answers h, fun q' hq' => ?_⟩,
    fun q h => ⟨_, cvd2b_answers h, fun q' hq' => ?_⟩⟩
  · rw [slot_performed] at hq'
    have hvalue := cvd2b_answers (q := q') (by rw [hq']; exact updValid_uenc _)
    rwa [hq', umag_uenc h] at hvalue
  · have hlimb := limbOfNat_toNat (Nat.lt_trans (umag_lt h) (by decide))
    rw [← hlimb, slot_performed] at hq'
    have hdigits := cvb2d_answers (q := q') (by rw [hq', hlimb]; exact umag_lt h)
    rwa [hq', hlimb, uenc_umag h] at hdigits

/-! ## One field of a pipeline stage (R161, R164) -/

/-- What the splitting step adds moves the quotient from weight r to weight 2^b. -/
theorem splitField_eq {r b : Nat} (hr : r ≤ 2 ^ b) (f : Nat) :
    splitField f r b = f / r * 2 ^ b + f % r := by
  obtain ⟨gap, hgap⟩ := Nat.exists_eq_add_of_le hr
  have hf := Nat.div_add_mod f r
  rw [splitField, hgap, Nat.add_sub_cancel_left]
  nlinarith

theorem splitField_of_digits {h l r b : Nat} (hl : l < r) (hr : r ≤ 2 ^ b) :
    splitField (h * r + l) r b = h * 2 ^ b + l := by
  rw [splitField_eq hr, Nat.mul_comm h, Nat.mul_add_div (by omega), Nat.div_eq_of_lt hl, Nat.add_zero,
    Nat.mul_add_mod, Nat.mod_eq_of_lt hl]

theorem joinField_of_digits {h l r b : Nat} (hl : l < r) (hr : r ≤ 2 ^ b) :
    joinField (h * 2 ^ b + l) r b = h * r + l := by
  obtain ⟨gap, hgap⟩ := Nat.exists_eq_add_of_le hr
  have hquot : (h * 2 ^ b + l) / 2 ^ b = h := by
    rw [Nat.mul_comm, Nat.mul_add_div (Nat.two_pow_pos b), Nat.div_eq_of_lt (by omega), Nat.add_zero]
  rw [joinField, hquot, hgap, Nat.add_sub_cancel_left, Nat.mul_add]
  omega

/-! ## The stages (R163, R166) -/

/-- The word between two stages: n fields of width w, lowest first, field j holding digit j of v in base r. -/
def radixFields (r w : Nat) : Nat → Nat → Nat
  | 0, _ => 0
  | n + 1, v => v % r + 2 ^ w * radixFields r w n (v / r)

theorem radixFields_ten (n v : Nat) : radixFields 10 4 n v = digitsOf n v := by
  induction n generalizing v with
  | zero => rfl
  | succ n ih => rw [radixFields, ih, digitsOf]; rfl

theorem radixFields_one {r v : Nat} (w : Nat) (h : v < r) : radixFields r w 1 v = v := by
  simp [radixFields, Nat.mod_eq_of_lt h]

/-- Two digits in base r, in the two halves of a field, are one digit in base r². -/
theorem radixFields_pair (r b n v : Nat) :
    radixFields r b (2 * (n + 1)) v
      = v / r % r * 2 ^ b + v % r + 2 ^ (2 * b) * radixFields r b (2 * n) (v / r ^ 2) := by
  rw [Nat.mul_add, Nat.mul_one, radixFields, radixFields, Nat.div_div_eq_div_mul, ← Nat.pow_two,
    Nat.two_mul b, Nat.pow_add]
  ring

theorem radixFields_square (r b n v : Nat) :
    radixFields (r ^ 2) (2 * b) (n + 1) v
      = v / r % r * r + v % r + 2 ^ (2 * b) * radixFields (r ^ 2) (2 * b) n (v / r ^ 2) := by
  rw [radixFields, Nat.pow_two, Nat.mod_mul]
  ring

theorem onFields_succ {step : Nat → Nat → Nat → Nat} {r b n f rest : Nat} (hf : f < 2 ^ (2 * b)) :
    onFields step r b (n + 1) (f + 2 ^ (2 * b) * rest)
      = step f r b + 2 ^ (2 * b) * onFields step r b n rest := by
  rw [onFields, Nat.add_mul_mod_self_left, Nat.mod_eq_of_lt hf,
    Nat.add_mul_div_left _ _ (Nat.two_pow_pos _), Nat.div_eq_of_lt hf, Nat.zero_add]

/-- Two digits, the higher at a weight up to 2^b, fit a field of width 2b. -/
theorem two_digits_lt {h l r b c : Nat} (hh : h < r) (hr : r ≤ 2 ^ b) (hc : c ≤ 2 ^ b)
    (hlc : l < c) : h * c + l < 2 ^ (2 * b) :=
  calc h * c + l < (h + 1) * c := by rw [Nat.succ_mul]; omega
    _ ≤ 2 ^ b * 2 ^ b := Nat.mul_le_mul (by omega) hc
    _ = 2 ^ (2 * b) := by rw [Nat.two_mul, Nat.pow_add]

section
variable {r b : Nat} (h0 : 0 < r) (hr : r ≤ 2 ^ b)
include h0 hr

/-- A splitting stage halves the fields: each digit in base r² becomes two in base r. -/
theorem onFields_splitField (n v : Nat) :
    onFields splitField r b n (radixFields (r ^ 2) (2 * b) n v) = radixFields r b (2 * n) v := by
  induction n generalizing v with
  | zero => rfl
  | succ n ih =>
    have hl : v % r < r := Nat.mod_lt v h0
    have hh : v / r % r < r := Nat.mod_lt _ h0
    rw [radixFields_square, onFields_succ (two_digits_lt hh hr hr hl), ih,
      splitField_of_digits hl hr, radixFields_pair]

/-- A combining stage doubles the fields: each two digits in base r become one in base r². -/
theorem onFields_joinField (n v : Nat) :
    onFields joinField r b n (radixFields r b (2 * n) v) = radixFields (r ^ 2) (2 * b) n v := by
  induction n generalizing v with
  | zero => rfl
  | succ n ih =>
    have hl : v % r < r := Nat.mod_lt v h0
    have hh : v / r % r < r := Nat.mod_lt _ h0
    rw [radixFields_pair, onFields_succ (two_digits_lt hh hr le_rfl (by omega)), ih,
      joinField_of_digits hl hr, radixFields_square]

end

theorem splitPipeline_eq_uenc {v : Nat} (h : v < 10 ^ 32) : splitPipeline v = (uenc v).toNat := by
  have stage16 : onFields splitField (10 ^ 16) 64 1 v = radixFields (10 ^ 16) 64 2 v := by
    conv_lhs => rw [← radixFields_one 128 h]
    exact onFields_splitField (r := 10 ^ 16) (b := 64) (by decide) (by decide) 1 v
  have stage8 : onFields splitField (10 ^ 8) 32 2 (radixFields (10 ^ 16) 64 2 v)
      = radixFields (10 ^ 8) 32 4 v :=
    onFields_splitField (r := 10 ^ 8) (b := 32) (by decide) (by decide) 2 v
  have stage4 : onFields splitField (10 ^ 4) 16 4 (radixFields (10 ^ 8) 32 4 v)
      = radixFields (10 ^ 4) 16 8 v :=
    onFields_splitField (r := 10 ^ 4) (b := 16) (by decide) (by decide) 4 v
  have stage2 : onFields splitField (10 ^ 2) 8 8 (radixFields (10 ^ 4) 16 8 v)
      = radixFields (10 ^ 2) 8 16 v :=
    onFields_splitField (r := 10 ^ 2) (b := 8) (by decide) (by decide) 8 v
  have stage1 : onFields splitField 10 4 16 (radixFields (10 ^ 2) 8 16 v) = radixFields 10 4 32 v :=
    onFields_splitField (r := 10) (b := 4) (by decide) (by decide) 16 v
  rw [splitPipeline, stage16, stage8, stage4, stage2, stage1, radixFields_ten, uenc_toNat]

theorem joinPipeline_eq_umag {x : Limb} (h : updValid x = true) : joinPipeline x.toNat = umag x := by
  have stage1 (v : Nat) : onFields joinField 10 4 16 (radixFields 10 4 32 v) = radixFields (10 ^ 2) 8 16 v :=
    onFields_joinField (r := 10) (b := 4) (by decide) (by decide) 16 v
  have stage2 (v : Nat) : onFields joinField (10 ^ 2) 8 8 (radixFields (10 ^ 2) 8 16 v)
      = radixFields (10 ^ 4) 16 8 v :=
    onFields_joinField (r := 10 ^ 2) (b := 8) (by decide) (by decide) 8 v
  have stage4 (v : Nat) : onFields joinField (10 ^ 4) 16 4 (radixFields (10 ^ 4) 16 8 v)
      = radixFields (10 ^ 8) 32 4 v :=
    onFields_joinField (r := 10 ^ 4) (b := 16) (by decide) (by decide) 4 v
  have stage8 (v : Nat) : onFields joinField (10 ^ 8) 32 2 (radixFields (10 ^ 8) 32 4 v)
      = radixFields (10 ^ 16) 64 2 v :=
    onFields_joinField (r := 10 ^ 8) (b := 32) (by decide) (by decide) 2 v
  have stage16 (v : Nat) : onFields joinField (10 ^ 16) 64 1 (radixFields (10 ^ 16) 64 2 v)
      = radixFields (10 ^ 32) 128 1 v :=
    onFields_joinField (r := 10 ^ 16) (b := 64) (by decide) (by decide) 1 v
  rw [← digitsOf_umag h, ← radixFields_ten, joinPipeline, stage1, stage2, stage4, stage8, stage16,
    radixFields_one 128 (umag_lt h)]

/-- Settles O49: between two stages the word holds the digits of one number in one base (`radixFields`). -/
theorem radixPipelinesGiveTheConversions : Obligations.RadixPipelinesGiveTheConversions :=
  ⟨fun _ => splitPipeline_eq_uenc, fun _ => joinPipeline_eq_umag, fun f _ _ hr _ => splitField_eq hr f,
    fun _ _ _ _ _ => joinField_of_digits⟩

end Sys2Proof.Machine
end

section
/-! SUPPORT. The conversions between zoned and packed decimal (R167 to R169), and the statements on them. -/

namespace Sys2Proof.Machine

/-! ## The zone codes (R167) -/

theorem zonePos_ne_zoneNeg : Config.zonePos ≠ Config.zoneNeg := by
  have hoff : ∀ (z : Nibble) (k : Fin 15), z + BitVec.ofNat 4 (k.val + 1) ≠ z := by decide
  exact hoff _ _

theorem zoneIsNeg_zoneNeg : Config.zoneIsNeg Config.zoneNeg = true := if_pos rfl

theorem zoneIsNeg_zonePos : Config.zoneIsNeg Config.zonePos = false := by
  rw [Config.zoneIsNeg, if_neg zonePos_ne_zoneNeg, if_pos rfl]

theorem zoneIsNeg_signZone (s : Nibble) : Config.zoneIsNeg (signZone s) = isNeg s := by
  cases h : isNeg s
  · rw [signZone, h, if_neg (by decide), zoneIsNeg_zonePos]
  · rw [signZone, h, if_pos rfl, zoneIsNeg_zoneNeg]

theorem isNeg_iff_mem (s : Nibble) : isNeg s = true ↔ s ∈ [0xB#4, 0xD#4] := by
  revert s; decide

/-! ## The two nibbles of a byte (R30) -/

theorem lowNibble_toNat (x : Limb) (i : Nat) :
    (x.extractLsb' (8 * i) 4).toNat = x.toNat / 256 ^ i % 256 % 16 := by
  rw [BitVec.extractLsb'_toNat, Nat.shiftRight_eq_div_pow, Nat.pow_mul]
  exact (Nat.mod_mod_of_dvd _ (by decide)).symm

theorem highNibble_toNat (x : Limb) (i : Nat) :
    (x.extractLsb' (8 * i + 4) 4).toNat = x.toNat / 256 ^ i % 256 / 16 := by
  rw [BitVec.extractLsb'_toNat, Nat.shiftRight_eq_div_pow, Nat.pow_add, ← Nat.div_div_eq_div_mul,
    Nat.pow_mul]
  change x.toNat / 256 ^ i / 16 % 16 = _
  omega

/-! ## CVZ2D (R168) -/

theorem zonedDigits_lt (n z : Nat) : zonedDigits n z < 16 ^ n := by
  induction n generalizing z with
  | zero => exact Nat.one_pos
  | succ n ih =>
    have hrest := ih (z / 256)
    rw [zonedDigits, Nat.pow_succ]
    omega

theorem zonedDigits_succ_div (n z : Nat) : zonedDigits (n + 1) z / 16 = zonedDigits n (z / 256) := by
  rw [zonedDigits]; omega

/-- Nibble i of the packed digits is the low nibble of byte i. -/
theorem zonedDigits_nibble {n i : Nat} (z : Nat) (h : i < n) :
    zonedDigits n z / 16 ^ i % 16 = z / 256 ^ i % 256 % 16 := by
  induction n generalizing i z with
  | zero => exact absurd h (Nat.not_lt_zero i)
  | succ n ih =>
    cases i with
    | zero => simp only [zonedDigits, Nat.pow_zero, Nat.div_one]; omega
    | succ i =>
      rw [Nat.pow_succ', ← Nat.div_div_eq_div_mul, zonedDigits_succ_div, ih _ (by omega),
        Nat.div_div_eq_div_mul, ← Nat.pow_succ']

theorem magBits_zonedToPacked_toNat (z : Limb) :
    (magBits (zonedToPacked z)).toNat = zonedDigits 16 z.toNat := by
  have hlt : zonedDigits 16 z.toNat < 2 ^ 124 := Nat.lt_trans (zonedDigits_lt 16 _) (by decide)
  rw [zonedToPacked, magBits_append, BitVec.toNat_ofNat, Nat.mod_eq_of_lt hlt]

theorem nib_zonedToPacked_zero (z : Limb) :
    nib (zonedToPacked z) 0 = if Config.zoneIsNeg (nib z 1) then 0xD else 0xC :=
  nib_append_zero _ _

theorem nib_zonedToPacked_succ {i : Nat} (z : Limb) (h : i < 16) :
    nib (zonedToPacked z) (i + 1) = z.extractLsb' (8 * i) 4 := by
  apply BitVec.eq_of_toNat_eq
  rw [nib_succ_toNat, magBits_zonedToPacked_toNat, zonedDigits_nibble _ h, lowNibble_toNat]

theorem nib_zonedToPacked_above {i : Nat} (z : Limb) (h : 16 ≤ i) : nib (zonedToPacked z) (i + 1) = 0 := by
  have hlt : zonedDigits 16 z.toNat < 16 ^ i :=
    Nat.lt_of_lt_of_le (zonedDigits_lt 16 _) (Nat.pow_le_pow_right (by decide) h)
  apply BitVec.eq_of_toNat_eq
  rw [nib_succ_toNat, magBits_zonedToPacked_toNat, Nat.div_eq_of_lt hlt]
  rfl

theorem cvz2d_answers (q : Request) :
    Answers .cvz2d q (performed (zonedToPacked (slot q.a 0)).toNat) := by
  have h := answers_of_transact (i := .cvz2d) (fun _ => rfl) q
  rwa [fieldResult_eq, ok_one] at h

/-- Settles O50: nibble by nibble; the zone of byte 0 is nibble 1. -/
theorem zonedToPackedByNibbles : Obligations.ZonedToPackedByNibbles := by
  refine ⟨rfl, fun q => ⟨_, cvz2d_answers q, fun i hi => nib_zonedToPacked_succ _ (by omega),
    fun k hlo _ => ?_, nib_zonedToPacked_zero _⟩⟩
  obtain ⟨i, rfl⟩ := Nat.exists_eq_add_of_le' (show 1 ≤ k by omega)
  exact nib_zonedToPacked_above _ (by omega)

/-! ## CVD2Z (R169) -/

theorem zonedFits_iff (a : Limb) :
    zonedFits a = true ↔ 0xA ≤ (nib a 0).toNat ∧ a.toNat / 2 ^ 68 = 0 := by
  have ha := a.isLt
  rw [zonedFits, Bool.and_eq_true, isSign_iff, decide_eq_true_iff, ← BitVec.toNat_inj,
    BitVec.extractLsb'_toNat, Nat.shiftRight_eq_div_pow,
    Nat.mod_eq_of_lt (Nat.div_lt_of_lt_mul (by omega))]
  rfl

section
variable {q : Request}

theorem cvd2z_answers (h : zonedFits (slot q.a 0) = true) :
    Answers .cvd2z q (performed (packedToZoned (slot q.a 0)).toNat) := by
  have hq := answers_of_transact (i := .cvd2z) (fun _ => rfl) q
  rwa [if_pos h, ok_one] at hq

theorem cvd2z_answers_open (h : ¬ zonedFits (slot q.a 0) = true) :
    Answers .cvd2z q (performed (Config.unspecCvd2zR0 (slot q.a 0)).toNat) := by
  have hq := answers_of_transact (i := .cvd2z) (fun _ => rfl) q
  rwa [if_neg h, ok_one] at hq

end

section
variable {zone : Nat} (hz : zone < 16)
include hz

theorem zonedBytes_lt (n x : Nat) : zonedBytes zone n x < 256 ^ n := by
  induction n generalizing x with
  | zero => exact Nat.one_pos
  | succ n ih =>
    have hrest := ih (x / 16)
    rw [zonedBytes, Nat.pow_succ]
    omega

theorem zonedBytes_succ_div (n x : Nat) :
    zonedBytes zone (n + 1) x / 256 = zonedBytes zone n (x / 16) := by
  rw [zonedBytes]; omega

theorem zonedBytes_byte {n i : Nat} (x : Nat) (h : i < n) :
    zonedBytes zone n x / 256 ^ i % 256 = x / 16 ^ i % 16 + 16 * zone := by
  induction n generalizing i x with
  | zero => exact absurd h (Nat.not_lt_zero i)
  | succ n ih =>
    cases i with
    | zero => simp only [zonedBytes, Nat.pow_zero, Nat.div_one]; omega
    | succ i =>
      rw [Nat.pow_succ', ← Nat.div_div_eq_div_mul, zonedBytes_succ_div hz, ih _ (by omega),
        Nat.div_div_eq_div_mul, ← Nat.pow_succ']

theorem zonedDigits_zonedBytes (n x : Nat) : zonedDigits n (zonedBytes zone n x) = x % 16 ^ n := by
  induction n generalizing x with
  | zero => exact (Nat.mod_one x).symm
  | succ n ih =>
    have hlow : zonedBytes zone (n + 1) x % 16 = x % 16 := by rw [zonedBytes]; omega
    rw [zonedDigits, hlow, zonedBytes_succ_div hz, ih, Nat.pow_succ', Nat.mod_mul]

end

theorem packedToZoned_toNat (a : Limb) :
    (packedToZoned a).toNat
      = (magBits a).toNat % 16 + 16 * (signZone (nib a 0)).toNat
        + 256 * zonedBytes Config.zoneDigit.toNat 15 ((magBits a).toNat / 16) := by
  have hsign := (signZone (nib a 0)).isLt
  have hrest := zonedBytes_lt Config.zoneDigit.isLt 15 ((magBits a).toNat / 16)
  exact limbOfNat_toNat (by omega)

theorem packedToZoned_toNat_div (a : Limb) :
    (packedToZoned a).toNat / 256
      = zonedBytes Config.zoneDigit.toNat 15 ((magBits a).toNat / 16) := by
  have hsign := (signZone (nib a 0)).isLt
  rw [packedToZoned_toNat]
  omega

/-- Byte 0 of the zoned form: the lowest digit under the sign zone. -/
theorem packedToZoned_byte_zero (a : Limb) :
    (packedToZoned a).toNat / 256 ^ 0 % 256
      = (magBits a).toNat / 16 ^ 0 % 16 + 16 * (signZone (nib a 0)).toNat := by
  have hsign := (signZone (nib a 0)).isLt
  rw [packedToZoned_toNat]
  omega

/-- The other bytes of the zoned form: a digit under `ZONE_DIGIT`. -/
theorem packedToZoned_byte_succ {i : Nat} (a : Limb) (h : i < 15) :
    (packedToZoned a).toNat / 256 ^ (i + 1) % 256
      = (magBits a).toNat / 16 ^ (i + 1) % 16 + 16 * Config.zoneDigit.toNat := by
  rw [Nat.pow_succ', ← Nat.div_div_eq_div_mul, packedToZoned_toNat_div,
    zonedBytes_byte Config.zoneDigit.isLt _ h, Nat.div_div_eq_div_mul, ← Nat.pow_succ']

theorem packedToZoned_digit {i : Nat} (a : Limb) (h : i ≤ 15) :
    (packedToZoned a).extractLsb' (8 * i) 4 = nib a (i + 1) := by
  apply BitVec.eq_of_toNat_eq
  rw [lowNibble_toNat, nib_succ_toNat]
  cases i with
  | zero => rw [packedToZoned_byte_zero]; omega
  | succ i => rw [packedToZoned_byte_succ a (by omega)]; omega

theorem packedToZoned_zone {i : Nat} (a : Limb) (h1 : 1 ≤ i) (h : i ≤ 15) :
    (packedToZoned a).extractLsb' (8 * i + 4) 4 = Config.zoneDigit := by
  obtain ⟨j, rfl⟩ := Nat.exists_eq_add_of_le' h1
  apply BitVec.eq_of_toNat_eq
  rw [highNibble_toNat, packedToZoned_byte_succ a (by omega)]
  omega

theorem packedToZoned_signZone (a : Limb) :
    (packedToZoned a).extractLsb' 4 4 = signZone (nib a 0) := by
  apply BitVec.eq_of_toNat_eq
  have hzone := highNibble_toNat (packedToZoned a) 0
  rw [packedToZoned_byte_zero] at hzone
  exact hzone.trans (by omega)

/-- Settles O51: byte by byte; outside the format the open value is the `UNSPEC` function of R169. -/
theorem packedToZonedByNibbles : Obligations.PackedToZonedByNibbles := by
  refine ⟨rfl, fun q hsign hfit => ⟨_, cvd2z_answers ((zonedFits_iff _).mpr ⟨hsign, hfit⟩),
    fun i => packedToZoned_digit _, fun i => packedToZoned_zone _, ?_⟩,
    Config.unspecCvd2zR0, fun q hout => cvd2z_answers_open fun hin => ?_⟩
  · simp only [packedToZoned_signZone, signZone, isNeg_iff_mem]
  · obtain ⟨hsign, hfit⟩ := (zonedFits_iff _).mp hin
    exact hout.elim (Nat.not_lt.mpr hsign) fun hne => hne hfit

/-! ## CVZ2D after CVD2Z -/

theorem zonedDigits_packedToZoned (a : Limb) :
    zonedDigits 16 (packedToZoned a).toNat = (magBits a).toNat % 16 ^ 16 := by
  have hlow : (packedToZoned a).toNat % 16 = (magBits a).toNat % 16 := by
    rw [packedToZoned_toNat]; omega
  rw [zonedDigits, hlow, packedToZoned_toNat_div, zonedDigits_zonedBytes Config.zoneDigit.isLt,
    Nat.pow_succ' (n := 15), Nat.mod_mul]

theorem zonedToPacked_packedToZoned_toNat {a : Limb} (h : a.toNat / 2 ^ 68 = 0) :
    (zonedToPacked (packedToZoned a)).toNat
      = a.toNat / 16 * 16 + (if nib a 0 ∈ [0xB#4, 0xD#4] then 0xD else 0xC) := by
  have hzone : nib (packedToZoned a) 1 = signZone (nib a 0) := packedToZoned_signZone a
  have hdigits : (magBits a).toNat % 16 ^ 16 = a.toNat / 16 := by rw [magBits_toNat]; omega
  rw [← magBits_append_nib_zero (zonedToPacked _), append_toNat, magBits_zonedToPacked_toNat,
    zonedDigits_packedToZoned, hdigits, nib_zonedToPacked_zero, hzone, zoneIsNeg_signZone]
  simp only [isNeg_iff_mem]
  split <;> rfl

/-- Settles O52: the zone written in byte 0 is read back as the sign class it was written for. -/
theorem zonedFormComesBack : Obligations.ZonedFormComesBack := by
  refine ⟨zoneIsNeg_zoneNeg, zoneIsNeg_zonePos, fun q hsign hfit =>
    ⟨_, cvd2z_answers ((zonedFits_iff _).mpr ⟨hsign, hfit⟩), fun q' hq' => ?_⟩⟩
  have h := cvz2d_answers q'
  rw [slot_performed] at hq'
  rwa [hq', zonedToPacked_packedToZoned_toNat hfit] at h

end Sys2Proof.Machine
end

section
/-! SUPPORT. The long conversion to decimal and the way back (R170 to R173, R175), the long division and the long
multiplication (R172, R174), and the statements on them. -/

namespace Sys2Proof.Machine

/-! ## The table of K_OF (R171) -/

theorem divisorValue_ge {d : Divisor} (hd : d ≠ .e16) : 10 ^ 31 ≤ divisorValue d := by
  cases d with
  | e16 => exact absurd rfl hd
  | e31 => exact le_rfl
  | e32 => decide

section
variable {n c : Nat} (hn : n ≤ 16) (hc : 10 ^ 31 ≤ c)
include hn hc

theorem two_pow_le_twenty_groups : 2 ^ (128 * n) ≤ c ^ 20 :=
  calc 2 ^ (128 * n) ≤ (2 ^ 128) ^ 16 := by
        rw [Nat.pow_mul]; exact Nat.pow_le_pow_right (by decide) hn
    _ ≤ (10 ^ 31) ^ 20 := by decide
    _ ≤ c ^ 20 := Nat.pow_le_pow_left hc 20

/-- K_OF is the least group count that holds every N-limb value. -/
theorem kOf_spec : 2 ^ (128 * n) ≤ c ^ kOf n c ∧ ∀ k, k < kOf n c → c ^ k < 2 ^ (128 * n) := by
  obtain ⟨henough, hleast⟩ := leastPower_spec (base := c) (bound := 2 ^ (128 * n)) (fuel := 32)
    (k₀ := 0) (p := 1) rfl ⟨20, by decide, by decide, two_pow_le_twenty_groups hn hc⟩
  exact ⟨henough, fun k hk => hleast k (Nat.zero_le k) hk⟩

theorem kOf_le : kOf n c ≤ 20 :=
  Nat.le_of_not_lt fun hlt =>
    Nat.not_lt.mpr (two_pow_le_twenty_groups hn hc) ((kOf_spec hn hc).2 20 hlt)

end

/-! ## The base-C expansion (R171) -/

theorem groupsOf_length (k c v : Nat) : (groupsOf k c v).length = k := by simp [groupsOf]

theorem groupsOf_getElem {k c v j : Nat} (hj : j < k) (h : k - 1 - j < (groupsOf k c v).length) :
    (groupsOf k c v)[k - 1 - j] = v / c ^ j % c := by
  have hback : k - 1 - (k - 1 - j) = j := by omega
  simp only [groupsOf, List.getElem_map, List.getElem_reverse, List.getElem_range, List.length_range, hback]

theorem sum_groups (c v k : Nat) : ∑ j ∈ Finset.range k, v / c ^ j % c * c ^ j = v % c ^ k := by
  induction k with
  | zero => exact (Nat.mod_one v).symm
  | succ k ih => rw [Finset.sum_range_succ, ih, Nat.mod_pow_succ, Nat.mul_comm (_ % _)]

/-! ## Group formats (R170) -/

theorem groupEnc_eq {d : Divisor} (hd : d ≠ .e16) (g : Nat) :
    groupEnc d g = if d = .e31 then enc (g : Int) else uenc g := by
  cases d with
  | e16 => exact absurd rfl hd
  | e31 => rfl
  | e32 => rfl

theorem groupValid_groupEnc {d : Divisor} (hd : d ≠ .e16) (g : Nat) : groupValid d (groupEnc d g) = true := by
  cases d with
  | e16 => exact absurd rfl hd
  | e31 =>
    change groupValid .e31 (enc g) = true
    rw [groupValid_e31, pdValid_enc, sgn_enc, if_pos (Int.natCast_nonneg g)]
    rfl
  | e32 => exact updValid_uenc g

theorem groupVal_groupEnc {d : Divisor} (hd : d ≠ .e16) {g : Nat} (hg : g < divisorValue d) :
    groupVal d (groupEnc d g) = g := by
  cases d with
  | e16 => exact absurd rfl hd
  | e31 => exact (mag_enc g).trans (Nat.mod_eq_of_lt hg)
  | e32 => exact umag_uenc hg

/-! ## LCVB2D (R171) -/

section
variable {n : Nat} {d : Divisor} (hn : n ≤ 16) (hd : d ≠ .e16)
include hn hd

/-- The response slot by slot: group j from the low end in slot K − 1 − j, and 0 above. -/
theorem lcvb2d_answers_groups (q : Request) :
    ∃ r : Response, Answers (.lcvb2d n d) q r ∧ r.s = 0 ∧ r.t = false
      ∧ (∀ j, j < kOf n (divisorValue d) → slot r.r (kOf n (divisorValue d) - 1 - j)
          = groupEnc d (wide q.a n / divisorValue d ^ j % divisorValue d))
      ∧ ∀ j, kOf n (divisorValue d) ≤ j → slot r.r j = 0 := by
  have hk := kOf_le hn (divisorValue_ge hd)
  have hlen : ((groupsOf (kOf n (divisorValue d)) (divisorValue d) (wide q.a n)).map
      (groupEnc d)).length = kOf n (divisorValue d) := by rw [List.length_map, groupsOf_length]
  refine ⟨_, answers_of_transact (i := .lcvb2d n d) (fun _ => rfl) q, rfl, rfl, fun j hj => ?_,
    fun j hj => slot_portOf_above (by omega) (by omega)⟩
  refine (slot_portOf (by omega) (by omega)).trans ?_
  rw [List.getElem_map, groupsOf_getElem hj]

theorem encode_lcvb2d :
    encode (.lcvb2d n d)
      = BitVec.ofNat 32 (0x64 + 2 ^ 8 * (if d = .e31 then 1 else 2) + 2 ^ 16 * n) := by
  have hcode : (if d = .e31 then 1 else 2) = divisorCode d := by
    cases d with
    | e16 => exact absurd rfl hd
    | e31 => rfl
    | e32 => rfl
  rw [hcode]
  exact encode_eq_wordOf (i := .lcvb2d n d)
    (Nat.lt_of_le_of_lt (divisorCode_le d) (by decide)) (show n < 256 by omega)

end

/-- Settles O53: the groups slot by slot, and K_OF by the search that defines it. -/
theorem longBinaryToDecimalExpansion : Obligations.LongBinaryToDecimalExpansion := by
  refine ⟨by decide +kernel, by decide +kernel, fun n d q _ hn hd => ?_, fun n m hn hbad hm => ?_,
    fun n m h1 hn hm hbad => ?_⟩
  · obtain ⟨henough, hleast⟩ := kOf_spec hn (divisorValue_ge hd)
    obtain ⟨r, hr, hs, ht, hgroups, habove⟩ := lcvb2d_answers_groups hn hd q
    refine ⟨henough, hleast, ⟨r, hr, hs, ht, fun j hj => ?_, fun j hj _ => habove j hj⟩,
      encode_lcvb2d hn hd⟩
    rw [hgroups j hj, groupEnc_eq hd]
    cases d with
    | e16 => exact absurd rfl hd
    | e31 => simp only [divisorValue, Nat.pow_mul, ↓reduceIte]
    | e32 => simp only [divisorValue, Nat.pow_mul, reduceCtorEq, ↓reduceIte]
  · have hnone : countOfCode 1 16 n = none := countOfCode_eq_none (by omega)
    exact (decode_wordOf (by decide) hm (by omega) rfl).trans (readFields_si_illegalShape hnone)
  · exact (decode_wordOf (by decide) hm (by omega) rfl).trans
      (readFields_si_illegalImmediate (countOfCode_eq_some h1 hn) (groupDivisorOfCode_eq_none hbad))

/-! ## LCVD2B after LCVB2D (R175 (c), (d)) -/

/-- Slots that hold the groups of a number, highest-order first, have its value modulo C^K. -/
theorem sum_groupVal_of_groups {d : Divisor} (hd : d ≠ .e16) {p : Port} {k v : Nat}
    (h : ∀ j, j < k →
      slot p j = groupEnc d (v / divisorValue d ^ (k - 1 - j) % divisorValue d)) :
    ∑ j ∈ Finset.range k, groupVal d (slot p j) * divisorValue d ^ (k - 1 - j)
      = v % divisorValue d ^ k := by
  rw [← sum_groups, ← Finset.sum_range_reflect (fun j => v / divisorValue d ^ j % divisorValue d * _)]
  refine Finset.sum_congr rfl fun j hj => ?_
  rw [h j (Finset.mem_range.mp hj), groupVal_groupEnc hd (Nat.mod_lt _ (divisorValue_pos d))]

/-- Settles O55: every group written is in the domain of LCVD2B, and C^K is above every N-limb value. -/
theorem longConversionsAreInverse : Obligations.LongConversionsAreInverse := by
  intro n d q _ hn hd
  have hk := kOf_le hn (divisorValue_ge hd)
  obtain ⟨henough, -⟩ := kOf_spec hn (divisorValue_ge hd)
  obtain ⟨r, hr, -, -, hgroups, -⟩ := lcvb2d_answers_groups hn hd q
  refine ⟨r, hr, fun q' hq' => ?_⟩
  generalize kOf n (divisorValue d) = k at *
  have hslot : ∀ j, j < k → slot q'.a j
      = groupEnc d (wide q.a n / divisorValue d ^ (k - 1 - j) % divisorValue d) := fun j hj => by
    rw [hq' j hj, ← hgroups (k - 1 - j) (by omega), show k - 1 - (k - 1 - j) = j by omega]
  have h := lcvd2b_answers_value (k := k) (q := q') (by omega) hd fun j hj => by
    rw [hslot j hj]; exact groupValid_groupEnc hd _
  rwa [sum_groupVal_of_groups hd hslot, Nat.mod_eq_of_lt (Nat.lt_of_lt_of_le (wide_lt q.a n) henough)] at h

/-! ## Long division (R109, R172) -/

theorem groupDivisor_bounds {c : Nat} (h : c = 10 ^ 31 ∨ c = 10 ^ 32) : 0 < c ∧ c < 2 ^ 128 := by
  rcases h with rfl | rfl <;> decide

/-- The next limb below the remainder of the limbs above it: what one DIVDC step divides (R172). -/
def passDividend (rem x : Limb) : Nat := rem.toNat * 2 ^ 128 + x.toNat

theorem longDividePass_cons (c : Nat) (x : Limb) (xs : List Limb) (rem : Limb) :
    longDividePass c (x :: xs) rem
      = (BitVec.ofNat 128 (passDividend rem x / c)
          :: (longDividePass c xs (BitVec.ofNat 128 (passDividend rem x % c))).1,
        (longDividePass c xs (BitVec.ofNat 128 (passDividend rem x % c))).2) := rfl

theorem longDividePass_length (c : Nat) (xs : List Limb) (rem : Limb) :
    (longDividePass c xs rem).1.length = xs.length := by
  induction xs generalizing rem with
  | nil => rfl
  | cons x xs ih => rw [longDividePass_cons, List.length_cons, ih, List.length_cons]

section
variable {c : Nat} (hc0 : 0 < c) (hc : c < 2 ^ 128)
include hc0 hc

/-- Every step leaves a remainder below the divisor, so the next one is in the domain of DIVDC. -/
theorem passRemainder_toNat (rem x : Limb) :
    (BitVec.ofNat 128 (passDividend rem x % c)).toNat = passDividend rem x % c :=
  limbOfNat_toNat (Nat.lt_trans (Nat.mod_lt _ hc0) hc)

theorem longDividePass_remainder_lt (xs : List Limb) {rem : Limb} (h : rem.toNat < c) :
    (longDividePass c xs rem).2.toNat < c := by
  induction xs generalizing rem with
  | nil => exact h
  | cons x xs ih =>
    rw [longDividePass_cons]
    exact ih (by rw [passRemainder_toNat hc0 hc]; exact Nat.mod_lt _ hc0)

/-- Highest limb first, the reversed list is the number. -/
theorem longDividePass_exact (xs : List Limb) {rem : Limb} (h : rem.toNat < c) :
    limbsVal (longDividePass c xs rem).1.reverse * c + (longDividePass c xs rem).2.toNat
      = rem.toNat * 2 ^ (128 * xs.length) + limbsVal xs.reverse := by
  induction xs generalizing rem with
  | nil => simp [longDividePass]
  | cons x xs ih =>
    have hrem := passRemainder_toNat hc0 hc rem x
    have hrest := ih (rem := BitVec.ofNat 128 (passDividend rem x % c))
      (by rw [hrem]; exact Nat.mod_lt _ hc0)
    have hquot : (BitVec.ofNat 128 (passDividend rem x / c)).toNat = passDividend rem x / c :=
      limbOfNat_toNat (twoLimbQuotient_lt h x)
    have hstep : passDividend rem x / c * c + passDividend rem x % c = rem.toNat * 2 ^ 128 + x.toNat :=
      Nat.div_add_mod' _ c
    have hpow : (2 : Nat) ^ (128 * (xs.length + 1)) = 2 ^ 128 * 2 ^ (128 * xs.length) := by
      rw [← Nat.pow_add]; congr 1; omega
    rw [hrem] at hrest
    rw [longDividePass_cons, List.reverse_cons, List.reverse_cons, limbsVal_append, limbsVal_append,
      List.length_reverse, List.length_reverse, longDividePass_length, limbsVal_cons, limbsVal_cons,
      limbsVal_nil, hquot, List.length_cons, hpow]
    linear_combination hrest + 2 ^ (128 * xs.length) * hstep

/-- One pass from remainder 0 divides the number by c. -/
theorem longDividePass_divMod (xs : List Limb) :
    (longDividePass c xs 0).2.toNat = limbsVal xs.reverse % c
      ∧ limbsVal (longDividePass c xs 0).1.reverse = limbsVal xs.reverse / c := by
  have hlt := longDividePass_remainder_lt hc0 hc xs (rem := 0) hc0
  have hexact := longDividePass_exact hc0 hc xs (rem := 0) hc0
  rw [show (0 : Limb).toNat = 0 from rfl, Nat.zero_mul, Nat.zero_add, Nat.add_comm, Nat.mul_comm] at hexact
  obtain ⟨hquot, hrem⟩ := (Nat.div_mod_unique hc0).mpr ⟨hexact, hlt⟩
  exact ⟨hrem.symm, hquot.symm⟩

/-- The remainders of the passes are the groups, lowest-order first. -/
theorem longDivide_eq_groups (k : Nat) (xs : List Limb) :
    (longDivide c k xs).map BitVec.toNat
      = (List.range k).map (fun j => limbsVal xs.reverse / c ^ j % c) := by
  induction k generalizing xs with
  | zero => rfl
  | succ k ih =>
    obtain ⟨hrem, hquot⟩ := longDividePass_divMod hc0 hc xs
    simp only [longDivide, List.map_cons, ih, hrem, hquot, List.range_succ_eq_map, List.map_map,
      Nat.pow_zero, Nat.div_one, Nat.div_div_eq_div_mul, ← Nat.pow_succ', Function.comp_def]

end

/-! ## Long multiplication (R95, R174) -/

/-- A top limb that is 0 adds nothing to the value. -/
theorem limbsVal_dropLast_of_getLast?_zero {xs : List Limb} (h : xs.getLast? = some 0) :
    limbsVal xs.dropLast = limbsVal xs := by
  have hparts := List.dropLast_append_getLast? 0 h
  conv_rhs => rw [← hparts, limbsVal_append]
  simp

theorem limbsVal_trim (xs : List Limb) :
    limbsVal (if xs.getLast? = some 0 then xs.dropLast else xs) = limbsVal xs := by
  split
  · next h => exact limbsVal_dropLast_of_getLast?_zero h
  · rfl

/-- A sum that fits the limbs of its operands is what the adder chain gives. -/
theorem limbsVal_chain_adder_of_fits {as bs : List Limb} (h : as.length = bs.length)
    (hfit : limbsVal as + limbsVal bs < 2 ^ (128 * as.length)) :
    limbsVal (chain adder as bs false).1 = limbsVal as + limbsVal bs := by
  have hsum := chain_adder_exact h false
  cases hcarry : (chain adder as bs false).2 with
  | true =>
    rw [hcarry, Bool.toNat_true, Bool.toNat_false] at hsum
    omega
  | false =>
    rw [hcarry, Bool.toNat_false] at hsum
    omega

/-- The one limb more of the row has room for the product by c and the next group. -/
theorem limbsVal_longMultiplyStep {c : Nat} (hc : c < 2 ^ 128) (acc : List Limb) (g : Limb) :
    limbsVal (longMultiplyStep c acc g) = limbsVal acc * c + g.toNat := by
  have hrow : limbsVal (rowMul acc (BitVec.ofNat 128 c) 0) = limbsVal acc * c := by
    rw [limbsVal_rowMul, limbOfNat_toNat hc]; rfl
  have hgroup : limbsVal (g :: List.replicate acc.length 0) = g.toNat := by
    rw [limbsVal_cons, limbsVal_replicate_zero]; rfl
  have hroom : limbsVal acc * c + g.toNat < 2 ^ (128 * (acc.length + 1)) :=
    calc limbsVal acc * c + g.toNat < (limbsVal acc + 1) * 2 ^ 128 := by
          rw [Nat.succ_mul]
          exact Nat.add_lt_add_of_le_of_lt (Nat.mul_le_mul_left _ hc.le) g.isLt
      _ ≤ 2 ^ (128 * acc.length) * 2 ^ 128 := Nat.mul_le_mul_right _ (limbsVal_lt acc)
      _ = 2 ^ (128 * (acc.length + 1)) := by rw [← Nat.pow_add]; rfl
  rw [longMultiplyStep, limbsVal_trim, limbsVal_chain_adder_of_fits (by simp [rowMul_length])
    (by rwa [hrow, hgroup, rowMul_length]), hrow, hgroup]

theorem limbsVal_foldl_longMultiplyStep {c : Nat} (hc : c < 2 ^ 128) (acc gs : List Limb) :
    limbsVal (gs.foldl (longMultiplyStep c) acc)
      = (gs.map BitVec.toNat).foldl (fun v g => v * c + g) (limbsVal acc) := by
  induction gs generalizing acc with
  | nil => rfl
  | cons g gs ih => rw [List.foldl_cons, ih, limbsVal_longMultiplyStep hc, List.map_cons, List.foldl_cons]

theorem limbsVal_longMultiply {c : Nat} (hc : c < 2 ^ 128) (gs : List Limb) :
    limbsVal (longMultiply c gs) = groupsVal c (gs.map BitVec.toNat) := by
  cases gs with
  | nil => rfl
  | cons g gs =>
    rw [longMultiply, limbsVal_foldl_longMultiplyStep hc, groupsVal, List.map_cons, List.foldl_cons]
    simp

/-- Settles O56: the invariant of a pass is its division identity, the invariant of the multiplication is that
the limbs hold the Horner value so far. -/
theorem longConversionTechniquesAreExact : Obligations.LongConversionTechniquesAreExact := by
  refine ⟨fun c k xs h => ?_, fun c xs rem h hrem => ?_,
    fun c gs h => limbsVal_longMultiply (groupDivisor_bounds h).2 gs⟩
  · obtain ⟨hc0, hc⟩ := groupDivisor_bounds h
    exact longDivide_eq_groups hc0 hc k xs
  · obtain ⟨hc0, hc⟩ := groupDivisor_bounds h
    exact ⟨longDividePass_remainder_lt hc0 hc xs hrem, longDividePass_exact hc0 hc xs hrem⟩

end Sys2Proof.Machine
end

section
/-! SUPPORT. Decimal multiply and divide and the chunk products (R187 to R194), and the statements on them. -/

namespace Sys2Proof.Machine

/-! ## A value that fits 31 digits (R9, R122, R187) -/

theorem signOf_mul_natAbs (t : Int) : signOf t * (t.natAbs : Int) = t := by
  rcases signOf_cases t with ⟨h0, h⟩ | ⟨h0, h⟩ <;> rw [h] <;> omega

theorem bcdModulo_of_fits {t : Int} (h : t.natAbs < 10 ^ 31) : bcdModulo t = enc t := by
  have hmod : t.natAbs % decT = t.natAbs := Nat.mod_eq_of_lt h
  rw [bcdModulo, hmod, signOf_mul_natAbs]

theorem productLow_of_fits {p : Int} (h : p.natAbs < 10 ^ 31) : productLow p = enc p :=
  bcdModulo_of_fits h

/-! ## The halves of a product (R187 to R190) -/

theorem val_enc_sign_mul {s : Int} {m : Nat} (hs : s.natAbs = 1) (hm : m < 10 ^ 31) :
    val (enc (s * (m : Int))) = s * (m : Int) :=
  val_enc (by rwa [natAbs_sign_mul hs])

theorem val_productLow (p : Int) :
    val (productLow p) = signOf p * ((p.natAbs % 10 ^ 31 : Nat) : Int) :=
  val_enc_sign_mul (signOf_natAbs p) (Nat.mod_lt _ (by decide))

theorem val_productHigh {p : Int} (h : p.natAbs / 10 ^ 31 < 10 ^ 31) :
    val (productHigh p) = signOf p * ((p.natAbs / 10 ^ 31 : Nat) : Int) :=
  val_enc_sign_mul (signOf_natAbs p) h

/-- The high digits of a magnitude of at most 62 digits fit a word, so the two halves lose nothing. -/
theorem val_product_halves {p : Int} (h : p.natAbs / 10 ^ 31 < 10 ^ 31) :
    val (productHigh p) * 10 ^ 31 + val (productLow p) = p := by
  have hsplit : ((p.natAbs / 10 ^ 31 : Nat) : Int) * 10 ^ 31 + (p.natAbs % 10 ^ 31 : Nat) = p.natAbs := by
    omega
  rw [val_productHigh h, val_productLow, Int.mul_assoc, ← Int.mul_add, hsplit, signOf_mul_natAbs]

/-- A product of two 31-digit magnitudes has at most 62 digits. -/
theorem natAbs_val_mul_val_div_lt {a b : Limb} (ha : pdValid a = true) (hb : pdValid b = true) :
    (val a * val b).natAbs / 10 ^ 31 < 10 ^ 31 := by
  refine Nat.div_lt_of_lt_mul ?_
  rw [Int.natAbs_mul]
  exact Nat.mul_lt_mul'' (natAbs_val_lt ha) (natAbs_val_lt hb)

section
variable {q : Request} (ha : pdValid (slot q.a 0) = true) (hb : pdValid (slot q.b 0) = true)
include ha hb

theorem bcdmull_answers :
    Answers .bcdmull q (.ok [productLow (val (slot q.a 0) * val (slot q.b 0))]) :=
  answers_of_two_valid (i := .bcdmull) (fun _ => rfl) ha hb

theorem bcdmulh_answers :
    Answers .bcdmulh q (.ok [productHigh (val (slot q.a 0) * val (slot q.b 0))]) :=
  answers_of_two_valid (i := .bcdmulh) (fun _ => rfl) ha hb

theorem bcdmulf_answers :
    Answers .bcdmulf q (.ok [productLow (val (slot q.a 0) * val (slot q.b 0))]
      (s := productHigh (val (slot q.a 0) * val (slot q.b 0)))) :=
  answers_of_two_valid (i := .bcdmulf) (fun _ => rfl) ha hb

end

/-- Settles O57: the two halves split the magnitude of the product at 10^31 under one sign; the open values are the
`UNSPEC` functions of R188 to R190. -/
theorem decimalProductHalves : Obligations.DecimalProductHalves := by
  refine ⟨rfl, rfl, rfl, ?_, Config.unspecBcdmullR0, Config.unspecBcdmulhR0, Config.unspecBcdmulfR0,
    Config.unspecBcdmulfS, fun q h => ?_⟩
  · rintro q _ rfl ha hb
    refine ⟨_, _, rfl, rfl, ?_, ?_, ?_, val_product_halves (natAbs_val_mul_val_div_lt ha hb)⟩
    · exact ok_one .. ▸ bcdmull_answers ha hb
    · exact ok_one .. ▸ bcdmulh_answers ha hb
    · exact ok_one .. ▸ bcdmulf_answers ha hb
  · simp only [← ok_one]
    exact ⟨answers_of_two_invalid (i := .bcdmull) (fun _ => rfl) h,
      answers_of_two_invalid (i := .bcdmulh) (fun _ => rfl) h,
      answers_of_two_invalid (i := .bcdmulf) (fun _ => rfl) h⟩

/-! ## Chunk splitting (R191) -/

/-- The four chunk products of two numbers cut at their sixteenth digit. -/
theorem mul_eq_chunk_products (a b : Nat) :
    a * b = a % 10 ^ 16 * (b % 10 ^ 16)
      + (a % 10 ^ 16 * (b / 10 ^ 16) + a / 10 ^ 16 * (b % 10 ^ 16)) * 10 ^ 16
      + a / 10 ^ 16 * (b / 10 ^ 16) * 10 ^ 32 := by
  calc a * b = (a % 10 ^ 16 + 10 ^ 16 * (a / 10 ^ 16)) * (b % 10 ^ 16 + 10 ^ 16 * (b / 10 ^ 16)) := by
        rw [Nat.mod_add_div, Nat.mod_add_div]
    _ = _ := by ring

/-- With both high chunks zero the three other products are zero. -/
theorem chunkProduct_eq_mul (a b : Nat) : chunkProduct a b = a * b := by
  rw [mul_eq_chunk_products, chunkProduct]
  split
  next h =>
    obtain ⟨ha, hb⟩ := h
    simp only [ha, hb, Nat.mul_zero, Nat.zero_mul, Nat.add_zero]
  next => rfl

/-- Only the low 15 digits of the cross products reach the low 31 digits, and the highest product reaches none. -/
theorem low_digits_of_chunks (low cross high : Nat) :
    (low + cross % 10 ^ 15 * 10 ^ 16) % 10 ^ 31 = (low + cross * 10 ^ 16 + high * 10 ^ 32) % 10 ^ 31 := by
  omega

theorem chunkLowHalf_eq_mod (a b : Nat) : chunkLowHalf a b = a * b % 10 ^ 31 := by
  rw [mul_eq_chunk_products]
  exact low_digits_of_chunks ..

/-- Settles O58: both are the schoolbook product of the chunks, the low half without the product of the high ones. -/
theorem chunkSplittingGivesTheProduct : Obligations.ChunkSplittingGivesTheProduct :=
  fun a b _ _ => ⟨chunkProduct_eq_mul a b, chunkLowHalf_eq_mod a b⟩

/-! ## BCDDIV (R192) -/

/-- Signs over a quotient of magnitudes truncate toward zero, in all four combinations. -/
theorem sign_mul_sign_mul_div {s t : Int} (hs : s = 1 ∨ s = -1) (ht : t = 1 ∨ t = -1) (m n : Nat) :
    s * t * ((m / n : Nat) : Int) = (s * m).tdiv (t * n) := by
  rcases hs with rfl | rfl <;> rcases ht with rfl | rfl <;>
    simp [Int.neg_tdiv, Int.tdiv_neg]

theorem val_decimalQuotient {a : Limb} (ha : pdValid a = true) (b : Limb) :
    val (decimalQuotient a b) = (val a).tdiv (val b) := by
  have hsign : (sgn a * sgn b).natAbs = 1 := by rw [Int.natAbs_mul, sgn_natAbs, sgn_natAbs]
  have hmag : mag a / mag b < 10 ^ 31 := Nat.lt_of_le_of_lt (Nat.div_le_self ..) (mag_lt ha)
  rw [decimalQuotient, val_enc_sign_mul hsign hmag]
  exact sign_mul_sign_mul_div (sgn_cases a) (sgn_cases b) ..

section
variable {q : Request}

theorem bcddiv_answers (ha : pdValid (slot q.a 0) = true) (hb : pdValid (slot q.b 0) = true)
    (h0 : mag (slot q.b 0) ≠ 0) :
    Answers .bcddiv q (.ok [decimalQuotient (slot q.a 0) (slot q.b 0)]) := by
  have h := answers_of_two_valid (i := .bcddiv) (fun _ => rfl) ha hb
  rwa [if_neg h0] at h

/-- An invalid operand and a zero divisor give one and the same open value. -/
theorem bcddiv_answers_open
    (h : (pdValid (slot q.a 0) && pdValid (slot q.b 0) && decide (mag (slot q.b 0) ≠ 0)) = false) :
    Answers .bcddiv q (.ok [Config.unspecBcddivR0 (slot q.a 0) (slot q.b 0)]) := by
  cases hv : pdValid (slot q.a 0) && pdValid (slot q.b 0) with
  | false => exact answers_of_two_invalid (i := .bcddiv) (fun _ => rfl) hv
  | true =>
    obtain ⟨ha, hb⟩ := Bool.and_eq_true_iff.mp hv
    have h0 : mag (slot q.b 0) = 0 := by simpa [hv] using h
    have hans := answers_of_two_valid (i := .bcddiv) (fun _ => rfl) ha hb
    rwa [if_pos h0] at hans

end

/-- Settles O59: the word written is that of the truncated quotient; otherwise the `UNSPEC` function of R192. -/
theorem decimalQuotientTruncates : Obligations.DecimalQuotientTruncates := by
  refine ⟨rfl, fun q ha hb h0 => ⟨?_, val_decimalQuotient ha _⟩, Config.unspecBcddivR0, fun q h => ?_⟩
  · exact ok_one .. ▸ bcddiv_answers ha hb h0
  · exact ok_one .. ▸ bcddiv_answers_open h

/-! ## The remainder (R194 (d)) -/

/-- Multiplying the truncated quotient back does not pass the dividend. -/
theorem natAbs_tdiv_mul_le (x y : Int) : (x.tdiv y * y).natAbs ≤ x.natAbs := by
  rw [Int.natAbs_mul, Int.natAbs_tdiv]
  exact Nat.div_mul_le_self ..

theorem sub_tdiv_mul_eq_tmod (x y : Int) : x - x.tdiv y * y = x.tmod y := by
  rw [Int.tmod_def, Int.mul_comm]

/-- Settles O60: the product of quotient and divisor fits its low half and the difference fits a word, so no step
loses a digit. -/
theorem decimalRemainderByThreeTransactions : Obligations.DecimalRemainderByThreeTransactions := by
  intro q ha hb h0
  have hdividend := natAbs_val_lt ha
  have hback := Nat.lt_of_le_of_lt (natAbs_tdiv_mul_le (val (slot q.a 0)) (val (slot q.b 0))) hdividend
  have hrem : ((val (slot q.a 0)).tmod (val (slot q.b 0))).natAbs < mag (slot q.b 0) := by
    rw [Int.natAbs_tmod, val_natAbs (slot q.b 0)]
    exact Nat.mod_lt _ (Nat.pos_of_ne_zero h0)
  refine ⟨_, bcddiv_answers ha hb h0, fun q₂ ha₂ hb₂ => ?_⟩
  rw [slot_ok_one] at ha₂
  have hmul := bcdmull_answers (q := q₂) (by rw [ha₂]; exact pdValid_enc _) (by rwa [hb₂])
  rw [ha₂, hb₂, val_decimalQuotient ha, productLow_of_fits hback] at hmul
  refine ⟨_, hmul, fun q₃ ha₃ hb₃ => ?_⟩
  rw [slot_ok_one] at hb₃
  have hsub := bcdsub_answers (q := q₃) (by rwa [ha₃]) (by rw [hb₃]; exact pdValid_enc _)
  have hfits := Nat.lt_trans hrem (mag_lt hb)
  rw [ha₃, hb₃, val_enc hback, sub_tdiv_mul_eq_tmod, bcdModulo_of_fits hfits] at hsub
  refine ⟨_, hsub, ?_⟩
  rw [slot_ok_one, val_enc hfits]
  exact ⟨rfl, hrem⟩

end Sys2Proof.Machine
end

section
/-! SUPPORT. The responses the unit may produce (R200 to R202): the code of each error, that the command word alone
decides between a normal and an error response, and that every step keeps the responses delivered well formed; and
the statements on them. -/

namespace Sys2Proof.Machine

/-! ## The codes of the errors (R201) -/

theorem errCode_ne_zero (e : DecodeError) : errCode e ≠ 0 := by cases e <;> decide

theorem errCode_toNat_le (e : DecodeError) : (errCode e).toNat ≤ 4 := by cases e <;> decide

/-! ## Normal and error responses (R200, R202) -/

@[simp] theorem answer_err (i : Instr) (q : Request) : (answer i q).err = 0 :=
  (answer_writesAtMost i q).err_eq_zero

theorem Response.wellFormed_iff {r : Response} :
    r.wellFormed = true ↔ r.err.toNat ≤ 4 ∧ (r.err ≠ 0 → r.r = 0 ∧ r.s = 0 ∧ r.t = false) := by
  simp only [Response.wellFormed, Bool.and_eq_true, Bool.or_eq_true, Bool.not_eq_true',
    decide_eq_true_eq, and_assoc, ne_eq, or_iff_not_imp_left]

theorem Response.wellFormed_of_err_eq_zero {r : Response} (h : r.err = 0) : r.wellFormed = true :=
  Response.wellFormed_iff.mpr ⟨by simp [h], fun hn => absurd h hn⟩

theorem Response.wellFormed_error (e : DecodeError) : (Response.error e).wellFormed = true :=
  Response.wellFormed_iff.mpr ⟨errCode_toNat_le e, fun _ => ⟨rfl, rfl, rfl⟩⟩

/-- Whatever the request, the unit's response to it is one the unit may produce. -/
theorem Request.response_wellFormed (q : Request) : q.response.wellFormed = true := by
  cases hd : decode q.cw with
  | ok i =>
    rw [Request.response_of_decode hd]
    exact Response.wellFormed_of_err_eq_zero (answer_err i q)
  | error e =>
    rw [Request.response_of_illegal hd]
    exact Response.wellFormed_error e

/-- The command word alone decides between a normal and an error response. -/
theorem Request.response_err_eq_zero_iff (q : Request) :
    q.response.err = 0 ↔ ∃ i, decode q.cw = .ok i := by
  cases hd : decode q.cw with
  | ok i => simp [Request.response_of_decode hd]
  | error e => simpa [Request.response_of_illegal hd] using errCode_ne_zero e

/-! ## The responses delivered, along a step (R202) -/

section
variable {s t : State}

/-- All that a step does to the responses delivered: nothing, or one response of the unit is added. -/
theorem step_delivered (h : step s = .next t) :
    t.delivered = s.delivered ∨ ∃ q : Request, t.delivered = q.response :: s.delivered := by
  cases hr : s.resetLine with
  | true =>
    obtain rfl := Host.Outcome.next.inj ((step_of_reset hr).symm.trans h)
    exact .inl s.underReset_delivered
  | false =>
    cases hq : s.inflight with
    | none =>
      obtain rfl := Host.Outcome.next.inj ((step_of_idle hr hq).symm.trans h)
      exact .inl s.accept_delivered
    | some q =>
      obtain rfl := Host.Outcome.next.inj ((step_of_inflight hr hq).symm.trans h)
      exact .inr ⟨q, s.deliver_delivered q.response⟩

theorem State.inv_of_delivered_eq (h : t.delivered = s.delivered) (hs : s.inv = true) :
    t.inv = true := by
  rwa [State.inv, h]

theorem State.inv_of_delivered_cons {r : Response} (h : t.delivered = r :: s.delivered)
    (hr : r.wellFormed = true) (hs : s.inv = true) : t.inv = true := by
  rw [State.inv, h, List.all_cons, hr]
  exact hs

end

/-- Settles O11: a step adds at most one response, and the response to any request is well formed. -/
theorem stepKeepsDeliveredResponsesWellFormed : Obligations.StepKeepsDeliveredResponsesWellFormed := by
  intro s t hs h
  rcases step_delivered h with hsame | ⟨q, hadded⟩
  · exact State.inv_of_delivered_eq hsame hs
  · exact State.inv_of_delivered_cons hadded q.response_wellFormed hs

/-! ## How a transaction ends (R200, R202) -/

/-- Settles O7: the response delivered is the unit's response to the request. -/
theorem everyRequestGetsOneResponse : Obligations.EveryRequestGetsOneResponse := by
  intro s q hr hq
  obtain ⟨hcode, hzero⟩ := Response.wellFormed_iff.mp q.response_wellFormed
  refine ⟨q.response, step_of_inflight hr hq, hcode, q.response_err_eq_zero_iff, fun i hd => ?_, hzero⟩
  rw [Request.response_of_decode hd]
  exact answers_answer i q

/-- A step with an illegal command word in flight delivers the error response. -/
theorem step_of_illegal {s : State} {q : Request} {e : DecodeError} (hr : s.resetLine = false)
    (hq : s.inflight = some q) (hd : decode q.cw = .error e) : step s = .next (s.raise e) := by
  rw [step_of_inflight hr hq, Request.response_of_illegal hd, State.raise]

theorem answers_err_eq_zero {i : Instr} {q : Request} {r : Response} (h : Answers i q r) :
    r.err = 0 := by
  rw [answers_unique h (answers_answer i q), answer_err]

/-- After any response, normal or error, the step that follows accepts the next request presented (R202). -/
theorem step_accepts_after_response {s t : State} {q next : Request} {rest : List Request}
    (hr : s.resetLine = false) (hq : s.inflight = some q) (hqueue : s.hostQueue = next :: rest)
    (h : step s = .next t) :
    step t = .next { t with inflight := some next, hostQueue := rest } := by
  obtain rfl := Host.Outcome.next.inj ((step_of_inflight hr hq).symm.trans h)
  exact step_of_idle_cons hr rfl hqueue

/-- Settles O6: the error response is delivered with the code of the first failing check, an operation performed
answers with code 0, and a unit that has delivered any response is idle with its queue as it was. -/
theorem illegalWordGetsTheErrorResponse : Obligations.IllegalWordGetsTheErrorResponse := by
  refine ⟨fun s q e hr hq hd => ⟨errCode e, ?_, ?_, ?_, ?_, step_of_illegal hr hq hd⟩,
    fun _ _ _ => answers_err_eq_zero, fun _ _ _ _ _ => step_accepts_after_response⟩
  all_goals
    rintro rfl
    rfl

end Sys2Proof.Machine
end

section
/-! SUPPORT. The base case of the invariant on the responses delivered: it asks nothing of a state that has delivered
none, and reset is such a state; and the statement on it. -/

namespace Sys2Proof.Machine

/-! ## The responses delivered, at reset (R202) -/

/-- A state that has delivered no response has the invariant, whatever it has in flight or queued. -/
theorem State.inv_of_delivered_nil {s : State} (h : s.delivered = []) : s.inv = true := by
  rw [State.inv, h, List.all_nil]

/-- Settles O12: `State.reset` has delivered no response (log 2). -/
theorem resetHasTheResponseInvariant : Obligations.ResetHasTheResponseInvariant :=
  State.inv_of_delivered_nil State.reset_delivered

end Sys2Proof.Machine
end
